-- ==== Sys2Proof/Word.lean ====
section
/-! DEFINITION. The word types of the ports and of the buffer (spec rules R7, R8, R22, R23; decision D39).
Only what the spec treats as bits is a bit vector: port contents, bytes, addresses on a port.  Sizes, lengths and
the buffer addresses an operation computes are `Nat` ("Addresses are computed as mathematical integers", rule R9),
and signed values are `Int`. -/

namespace Sys2Proof

/-- A byte, `b[7:0]` (rule R7). -/
abbrev Byte := BitVec 8

/-- The contents of the address port BASE: ADDR_W = 32 bits (rules R6, R22, decision D5). -/
abbrev Addr := BitVec 32

/-- The contents of the 64-bit ports A, OUT0 and OUT1 (rules R22, R23). -/
abbrev Word64 := BitVec 64

/-- The contents of the 32-bit port SLEN (rule R22). -/
abbrev Count32 := BitVec 32

end Sys2Proof
end

