-- ==== Sys2Proof/Config.lean ====
section
/-! DEFINITION. The implementation parameters of rule R6 and the model's free values.
A parameter the spec marks "source" and gives a fixed meaning is a constant here; every other one is a field of
`Params`, so that a claim can be stated for every configuration (rule R6: "A model may take any parameter as an
argument; a claim proved for the listed values holds only for them"). -/

namespace Sys2Proof

/-- `ADDR_W`, the width of the address port BASE in bits (rule R6, decision D5). -/
abbrev Config.addrW : Nat := 32
/-- `STR06_MAX`, the longest length in a 1-byte string header (rule R6, source). -/
abbrev Config.str06Max : Nat := 63
/-- `STR14_MAX`, the longest length in a 2-byte string header (rule R6, source). -/
abbrev Config.str14Max : Nat := 16383
/-- `STR32_MAX`, the longest length in a 5-byte string header and the longest length operand (rules R6, R52). -/
abbrev Config.str32Max : Nat := 2 ^ 32 - 1
/-- `COUNTER_MAX`, the saturation value of the element counter (rule R6). -/
abbrev Config.counterMax : Nat := 65535

/-- `STR14_LAYOUT` (rules R6, R35; conflict C2).  `be` is the spec's placement `len14 = {b0[5:0], b1}`.  The spec
names the parameter but spells out no other value; `le` is the other placement that keeps the class bits in byte 0,
`len14 = {b1, b0[5:0]}`.  DESIGN CHOICE (log entry 4), safe: it only widens what a claim must cover. -/
inductive Str14Layout where
  | be
  | le
deriving DecidableEq, Repr

/-- `COUNTER_OVERFLOW`: what INCL stores when an unsaturated count plus delta exceeds COUNTER_MAX (rules R6, R88). -/
inductive CounterOverflow where
  | clamp
  | wrap
deriving DecidableEq, Repr

/-- `SAVI_RANGE`: what SAVI does with a value outside its tag's width (rules R6, R86). -/
inductive SaviRange where
  | truncate
  | fault
deriving DecidableEq, Repr

/-- The parameters of rule R6 that a model takes as arguments. -/
structure Params where
  /-- `BUF_LEN`, the size of the buffer window in bytes: OPEN (rules R6, R33). -/
  bufLen : Nat
  /-- `PREVLEN_BIG`, the large-prevlen threshold. -/
  prevlenBig : Nat
  /-- `PREVLEN_MARKER`, byte 0 of a 5-byte previous-length field. -/
  prevlenMarker : Byte
  /-- `STR14_LAYOUT`, the bit placement of the 14-bit length. -/
  str14Layout : Str14Layout
  /-- `IMM_ENC_MAX`, the largest value the encoder puts in an immediate tag. -/
  immEncMax : Nat
  /-- `IMM_DEC_MAX`, the largest value an immediate tag carries on decode. -/
  immDecMax : Nat
  /-- `STR_MAX_LEN`, the length at or above which S2N answers InvalidString. -/
  strMaxLen : Nat
  /-- `TRY_ENC_MAX_LEN`, the length at or above which TRYE answers absent. -/
  tryEncMaxLen : Nat
  /-- `COUNTER_OFFSET`, the byte offset of the element counter from BASE. -/
  counterOffset : Nat
  /-- `TAG_STR06` -/
  tagStr06 : Byte
  /-- `TAG_STR14` -/
  tagStr14 : Byte
  /-- `TAG_STR32` -/
  tagStr32 : Byte
  /-- `TAG_STR_MASK` -/
  tagStrMask : Byte
  /-- `TAG_INT8` -/
  tagInt8 : Byte
  /-- `TAG_INT16` -/
  tagInt16 : Byte
  /-- `TAG_INT24` -/
  tagInt24 : Byte
  /-- `TAG_INT32` -/
  tagInt32 : Byte
  /-- `TAG_INT64` -/
  tagInt64 : Byte
  /-- `IMM_BASE`, the tag of immediate 0. -/
  immBase : Byte
  /-- `COUNTER_OVERFLOW` -/
  counterOverflow : CounterOverflow
  /-- `SAVI_RANGE` -/
  saviRange : SaviRange
deriving DecidableEq, Repr

/-- The values rules R6 and R56 list, for a given BUF_LEN (which is OPEN and so stays an argument). -/
def Params.listed (bufLen : Nat) : Params where
  bufLen := bufLen
  prevlenBig := 254
  prevlenMarker := 0xFE
  str14Layout := .be
  immEncMax := 11
  immDecMax := 12
  strMaxLen := 21
  tryEncMaxLen := 32
  counterOffset := 8
  tagStr06 := 0x00
  tagStr14 := 0x40
  tagStr32 := 0x80
  tagStrMask := 0xC0
  tagInt8 := 0xFE
  tagInt16 := 0xC0
  tagInt24 := 0xF0
  tagInt32 := 0xD0
  tagInt64 := 0xE0
  immBase := 0xF1
  counterOverflow := .clamp
  saviRange := .truncate

/-! Free values: rule R106, a reset "leaves every input port unspecified".  The contents of an input port after the
host asserts reset are therefore constants without a body, applied to the number of resets so far
(`State.freeCount`), so nothing can be proved of them (log entry 3, safe). -/

/-- CMD after the n-th asserted reset: unspecified (rules R31, R106). -/
opaque Config.freeCmd : Nat → Byte
/-- BASE after the n-th asserted reset: unspecified (rules R31, R106). -/
opaque Config.freeBase : Nat → Addr
/-- A after the n-th asserted reset: unspecified (rules R31, R106). -/
opaque Config.freeA : Nat → Word64
/-- ENC after the n-th asserted reset: unspecified (rules R31, R106). -/
opaque Config.freeEnc : Nat → Byte
/-- SLEN after the n-th asserted reset: unspecified (rules R31, R106). -/
opaque Config.freeSlen : Nat → Count32

end Sys2Proof
end

