-- ==== Sys2Proof/Syntax.lean ====
section
/-! DEFINITION. The commands (rule R50, opcode_table.json), the closed variant of entry kinds (rule R12), the entry
record (rules R15, R16), and the syntax of the host's side: what the host may do between operations (rule R17) and the
listing line (rule R53). -/

namespace Sys2Proof

/-- The 17 commands of rule R50, one constructor per row of opcode_table.json.  There are no immediates inside the
command byte (rule R52), so no constructor has a field: operands come from the input ports. -/
inductive Instr where
  | dpls   -- DPLS   decode previous-length size (R67)
  | dpl    -- DPL    decode previous length (R68)
  | splW   -- SPL.W  store previous-entry length, write mode (R69)
  | splD   -- SPL.D  store previous-entry length, dry-run (R70)
  | pld    -- PLD    previous-length bytes difference (R71)
  | eenc   -- EENC   entry encoding (R72)
  | dlen   -- DLEN   decode length (R73)
  | els    -- ELS    encoding length size (R74)
  | seeW   -- SEE.W  store entry encoding, write mode (R75)
  | seeD   -- SEE.D  store entry encoding, dry-run (R76)
  | isstr  -- ISSTR  is string (R77)
  | s2n    -- S2N    string to number (R79)
  | trye   -- TRYE   try encoding (R83)
  | isz    -- ISZ    integer payload size (R84)
  | savi   -- SAVI   save integer (R86)
  | ldi    -- LDI    load integer payload (R87)
  | incl   -- INCL   increment length (R88)
deriving DecidableEq, Repr

/-- The closed variant of the entry kind of rule R12; `invalid` is "not an entry header" (rule R65). -/
inductive EntryKind where
  | str6
  | str14
  | str32
  | imm (v : Nat)
  | int8
  | int16
  | int24
  | int32
  | int64
  | invalid
deriving DecidableEq, Repr

/-- The content of an entry: "either a byte sequence (string) or a signed 64-bit value (integer)" (rule R15). -/
inductive Content where
  | string (bytes : List Byte)
  | integer (v : Int)
deriving DecidableEq, Repr

/-- The conceptual entry record of rule R15.  It is "not a stored struct": ZLEC holds none of it between operations;
the model uses it to say what the bytes of a buffer mean. -/
structure Entry where
  prevLen : Nat
  prevLenSize : Nat
  encoding : Byte
  lenSize : Nat
  contentLen : Nat
  content : Content
deriving DecidableEq, Repr

/-- The result ports of rule R23. -/
inductive ResultPort where
  | out0
  | out1
  | renc
  | ok
  | err
deriving DecidableEq, Repr

/-- What the host may do between operations (rule R17), and the two things rule R105 puts outside the contract.
Writing CMD issues the command (rule R48). -/
inductive HostAction where
  /-- write the input port BASE -/
  | setBase (v : Addr)
  /-- write the input port A -/
  | setA (v : Word64)
  /-- write the input port ENC -/
  | setEnc (v : Byte)
  /-- write the input port SLEN -/
  | setSlen (v : Count32)
  /-- write the input port CMD: issues the command (rule R48) -/
  | command (cmd : Byte)
  /-- write STATUS: "A host write to STATUS has no effect" (rule R27) -/
  | writeStatus (v : Byte)
  /-- `host.write addr: bytes` and `host.string addr: "text"` (rule R53) -/
  | writeBytes (addr : Addr) (bytes : List Byte)
  /-- read one byte of the buffer the host owns (rule R43) -/
  | readByte (addr : Addr)
  /-- `host.read port` (rule R53) -/
  | readPort (p : ResultPort)
  /-- `host.read STATUS` -/
  | readStatus
  /-- assert reset (rules R17, R106) -/
  | reset
  /-- issue `cmd` and access the buffer or the ports while its operation is in progress (rule R105 (a)) -/
  | accessDuringOperation (cmd : Byte)
  /-- issue `cmd` while another ZLEC works on the same window and one of the two writes a byte the other reads or
  writes (rules R46, R105 (b)) -/
  | overlapOtherUnit (cmd : Byte)
deriving DecidableEq, Repr

/-- One line of a listing (rule R53): a mnemonic and the port assignments it names.  A port not named keeps its
previous value.  `a` is an integer because a negative decimal stands for its 64-bit two's complement. -/
structure Line where
  instr : Instr
  base : Option Addr := none
  a : Option Int := none
  enc : Option Byte := none
  slen : Option Count32 := none
deriving DecidableEq, Repr

end Sys2Proof
end

