-- ==== Sys2Proof/WellFormed.lean ====
section
/-! DEFINITION. The checks: reserved command bytes (rule R51), a listing line's scalar (rule R53), and the constraints
a configuration must satisfy (rules R6, R33 and decision D37). -/

namespace Sys2Proof

/-- Every command is well-formed: it has no operand field that could be out of range (rule R52). -/
def Instr.wellFormed (_ : Instr) : Bool := true

/-- The reserved command bytes, as rule R51 lists them: 0x00, 0x10 to 0x7F, and every byte with D = 1 other than 0x83
and 0x88. -/
def reservedCommand (b : Byte) : Bool :=
  b == 0x00 || (decide (0x10 ≤ b.toNat) && decide (b.toNat ≤ 0x7F)) ||
    (decide (0x80 ≤ b.toNat) && b != 0x83 && b != 0x88)

/-- A listing line is well-formed when its scalar is an unsigned or a two's-complement 64-bit number (rule R53). -/
def Line.wellFormed (l : Line) : Bool :=
  match l.a with
  | none => true
  | some v => decide (-(2 ^ 63) ≤ v) && decide (v < 2 ^ 64)

/-- `0 ≤ BUF_LEN ≤ 2^ADDR_W` (rule R6). -/
def Params.windowFits (p : Params) : Bool := decide (p.bufLen ≤ 2 ^ Config.addrW)

/-- `PREVLEN_MARKER ≥ PREVLEN_BIG` (decision D37), so that a reader classifies the marker as a 5-byte field. -/
def Params.markerReadsAsLarge (p : Params) : Bool := decide (p.prevlenBig ≤ p.prevlenMarker.toNat)

/-- `STR_MAX_LEN ≥ 21` (decision D37, rule R82). -/
def Params.s2nCeilingHigh (p : Params) : Bool := decide (21 ≤ p.strMaxLen)

/-- `TRY_ENC_MAX_LEN ≥ 21` (decision D37, rule R82). -/
def Params.tryeCeilingHigh (p : Params) : Bool := decide (21 ≤ p.tryEncMaxLen)

/-- `0 ≤ IMM_ENC_MAX ≤ IMM_DEC_MAX` (decision D37). -/
def Params.immediatesOrdered (p : Params) : Bool := decide (p.immEncMax ≤ p.immDecMax)

/-- The tags of the fixed-width integers, in the order of rule R59. -/
def Params.fixedIntTags (p : Params) : List Byte :=
  [p.tagInt8, p.tagInt16, p.tagInt24, p.tagInt32, p.tagInt64]

/-- Every tag of rule R56 as a number: the three string classes, the five fixed widths and the immediate tags
`IMM_BASE .. IMM_BASE + IMM_DEC_MAX`. -/
def Params.tagNumbers (p : Params) : List Nat :=
  ([p.tagStr06, p.tagStr14, p.tagStr32] ++ p.fixedIntTags).map BitVec.toNat ++
    (List.range (p.immDecMax + 1)).map (p.immBase.toNat + ·)

/-- The tags are pairwise distinct (decision D37). -/
def Params.tagsDistinct (p : Params) : Bool := decide p.tagNumbers.Nodup

/-- Integer tags, immediates among them, are bytes with bits 7:6 = 11 (decision D37). -/
def Params.integerTagsMarked (p : Params) : Bool :=
  p.fixedIntTags.all (fun t => decide (192 ≤ t.toNat)) && decide (192 ≤ p.immBase.toNat) &&
    decide (p.immBase.toNat + p.immDecMax ≤ 255)

/-- A configuration the unit may have; "a configuration that breaks one is refused" (decision D37). -/
def Params.legal (p : Params) : Bool :=
  p.windowFits && p.markerReadsAsLarge && p.s2nCeilingHigh && p.tryeCeilingHigh && p.immediatesOrdered &&
    p.tagsDistinct && p.integerTagsMarked

end Sys2Proof
end

