-- ==== Sys2Proof/Decode.lean ====
section
/-! DEFINITION. Decoding and encoding the command byte (rules R48 to R51, opcode_table.json): bit 7 is D, bits 6:0 are
FUNC.  Every command is one byte; nothing is fetched (rules R25, R47). -/

namespace Sys2Proof

/-- Why a byte is no command. -/
inductive DecodeError where
  /-- the byte is reserved (rule R51) -/
  | reserved (cmd : Byte)
deriving DecidableEq, Repr

/-- Bit 7 of a command byte, the dry-run bit D (rule R48). -/
def cmdDryRun (b : Byte) : Bool := b.msb

/-- Bits 6:0 of a command byte, FUNC (rule R48). -/
def cmdFunc (b : Byte) : Nat := b.toNat % 128

/-- The commands with D = 0 (rule R50). -/
def decodeNormal (func : Nat) : Option Instr :=
  match func with
  | 0x01 => some .dpls
  | 0x02 => some .dpl
  | 0x03 => some .splW
  | 0x04 => some .pld
  | 0x05 => some .eenc
  | 0x06 => some .dlen
  | 0x07 => some .els
  | 0x08 => some .seeW
  | 0x09 => some .isstr
  | 0x0A => some .s2n
  | 0x0B => some .trye
  | 0x0C => some .isz
  | 0x0D => some .savi
  | 0x0E => some .ldi
  | 0x0F => some .incl
  | _ => none

/-- The commands with D = 1: only the two dual-mode store operations (rule R49). -/
def decodeDryRun (func : Nat) : Option Instr :=
  match func with
  | 0x03 => some .splD
  | 0x08 => some .seeD
  | _ => none

/-- The command a byte written to CMD selects, or the byte rejected as reserved (rules R48 to R51). -/
def decode (b : Byte) : Except DecodeError Instr :=
  match (if cmdDryRun b then decodeDryRun (cmdFunc b) else decodeNormal (cmdFunc b)) with
  | some i => .ok i
  | none => .error (.reserved b)

/-- The D bit of a command (rule R50). -/
def Instr.dryRun (i : Instr) : Bool :=
  match i with
  | .splD | .seeD => true
  | .dpls | .dpl | .splW | .pld | .eenc | .dlen | .els | .seeW | .isstr | .s2n | .trye | .isz | .savi | .ldi
  | .incl => false

/-- The FUNC field of a command (rule R50). -/
def Instr.func (i : Instr) : BitVec 7 :=
  match i with
  | .dpls => 0x01
  | .dpl => 0x02
  | .splW => 0x03
  | .splD => 0x03
  | .pld => 0x04
  | .eenc => 0x05
  | .dlen => 0x06
  | .els => 0x07
  | .seeW => 0x08
  | .seeD => 0x08
  | .isstr => 0x09
  | .s2n => 0x0A
  | .trye => 0x0B
  | .isz => 0x0C
  | .savi => 0x0D
  | .ldi => 0x0E
  | .incl => 0x0F

/-- The one word of a command: the byte `{D, FUNC}` (rule R48). -/
def encode (i : Instr) : Byte := BitVec.ofBool i.dryRun ++ i.func

/-- The host's view of the decoder: the instruction read from an opcode-table word.  A command is one byte, so only the
low 8 bits of `w` are laid out, whatever `_nbits` (the table gives every row 8). -/
def decodeTableWord (_nbits w : Nat) : Option Instr :=
  match decode (BitVec.ofNat 8 w) with
  | .ok i => some i
  | .error _ => none

end Sys2Proof
end

