-- ==== Sys2Proof/Machine/State.lean ====
section
/-! DEFINITION. The state of the machine: ZLEC's ports and STATUS (10_state.md), the host's buffer window
(20_memory.md), the configuration (rule R6), and the model's own fields, each named so in INVENTORY.md. -/

namespace Sys2Proof.Machine

/-- The buffer window: (address, byte) pairs, addresses strictly rising, no entry equal to what an unlisted address
reads as (`Memory.unlisted`). -/
abbrev Memory := List Host.Cell

/-- What an unlisted address of the window reads as.  The contents of the window are the host's (rule R31) and the spec
gives no power-on contents; the model takes 0x00.  DESIGN CHOICE (log entry 2), unsafe. -/
def Memory.unlisted : Byte := 0x00

/-- The faults of rule R93 with the info rule R9 and the operation rules give them (`raise F(info)`).  Taking one is an
effect of the machine, `State.takeFault`; none ends a run of the model. -/
inductive Raise where
  /-- a reserved command byte (rule R51) -/
  | illegalCommand (cmd : Byte)
  /-- a length operand of 2^32 or more, or with SAVI_RANGE = fault a value outside its tag's width -/
  | operandRange (a : Word64)
  /-- ENC is not an integer tag -/
  | invalidIntegerEncoding (enc : Byte)
  /-- an access of n bytes at addr with addr + n > BUF_LEN -/
  | bufferBounds (addr n : Nat)
  /-- an unsaturated count plus delta below 0 -/
  | counterUnderflow (cur : Nat) (delta : Int)
deriving DecidableEq, Repr

/-- Why the model itself stops with a fault.  Only a host action raises one; no command does. -/
inductive Fault where
  /-- The host reads a result port that no operation has written since reset: "a fault of the model (the read has no
  meaning), never a zero" (rule R24; rule R17, decision D28 and entry I20 say the same).  Raised by
  `hostReadPort`.  Safe: the run stops. -/
  | unwrittenPort (p : ResultPort)
  /-- The host reads or writes n bytes at addr outside the window `buf[0 .. BUF_LEN−1]`, where no byte exists (rule
  R33).  Raised by `hostWriteBytes` and `hostReadByte`.  Safe: the run stops. -/
  | outsideWindow (addr n : Nat)
deriving DecidableEq, Repr

/-- Why the model gives a state no step. -/
inductive Refusal where
  /-- The instruction has no meaning yet.  Raised by no arm of this model.  Safe. -/
  | notModelled (mnemonic : String)
  /-- The configuration breaks a constraint of decision D37 ("a configuration that breaks one is refused").  Raised by
  `step`.  Safe. -/
  | illegalConfiguration
  /-- The host accesses the buffer or the ports while an operation is in progress: "the model gives it no step" (rule
  R105 (a)).  Raised by `hostAct`.  Safe. -/
  | accessDuringOperation
  /-- Two units overlap a byte range one of them writes: "the model gives it no step" (rules R46, R105 (b)).  Raised by
  `hostAct`.  Safe. -/
  | overlappingUnits
deriving DecidableEq, Repr

/-- The machine: one ZLEC, the buffer window it reaches, and the host actions still to come. -/
structure State where
  /-- Configuration, not state of ZLEC (rules R6, R20): `exec` and `step` take no other argument, and no step changes
  it (log entry 5). -/
  params : Params
  /-- input port CMD, 8 bits (rule R22) -/
  cmd : Byte
  /-- input port BASE, ADDR_W = 32 bits (rule R22) -/
  base : Addr
  /-- input port A, 64 bits (rule R22) -/
  a : Word64
  /-- input port ENC, 8 bits (rule R22) -/
  enc : Byte
  /-- input port SLEN, 32 bits (rule R22) -/
  slen : Count32
  /-- result port OUT0, 64 bits or ⊥ (rules R23, R24) -/
  out0 : Option Word64
  /-- result port OUT1, 64 bits or ⊥ (rules R23, R24) -/
  out1 : Option Word64
  /-- result port RENC, 8 bits or ⊥ (rules R23, R24) -/
  renc : Option Byte
  /-- result port and flag OK, 1 bit or ⊥ (rules R23, R24, R26) -/
  ok : Option Bool
  /-- result port and flag ERR, 4 bits or ⊥ (rules R23, R24, R26) -/
  err : Option (BitVec 4)
  /-- STATUS.HALT (rule R27) -/
  halt : Bool
  /-- STATUS.FCODE, 4 bits (rule R27); bits 3:1 of STATUS are hardwired 0 and hold nothing, see `State.status` -/
  fcode : BitVec 4
  /-- the buffer window, the host's memory (rules R29, R33) -/
  buf : Memory
  /-- Model's own: the info of the fault that halted the unit, "for diagnosis; no rule reads it" (rule R94). -/
  lastRaise : Option Raise
  /-- Model's own: a command was issued while halted; "A model marks the run refused for good" (rule R99). -/
  runRefused : Bool
  /-- Model's own: what the host's last read returned (`host.read`, rule R53). -/
  hostRead : Option Word64
  /-- Model's own: how many resets the host has asserted; the free values are applied to it (rule R106). -/
  freeCount : Nat
  /-- Model's own: the host's actions still to come, the next one first (rules R17, R25). -/
  host : List HostAction
deriving DecidableEq, Repr

/-- The machine right after power-on reset (rule R31): STATUS 0, every result port ⊥.  The input ports are "unspecified"
there and read 0 here (DESIGN CHOICE, log entry 1, unsafe); BUF_LEN is OPEN and is 256, as in 95_test_vectors.md
(DESIGN CHOICE, log entry 6, unsafe); the host has nothing to do yet (log entry 7). -/
def State.reset : State where
  params := Params.listed 256
  cmd := 0
  base := 0
  a := 0
  enc := 0
  slen := 0
  out0 := none
  out1 := none
  renc := none
  ok := none
  err := none
  halt := false
  fcode := 0
  buf := []
  lastRaise := none
  runRefused := false
  hostRead := none
  freeCount := 0
  host := []

end Sys2Proof.Machine
end

