-- ==== Sys2Proof/Machine/Ops.lean ====
section
/-! DEFINITION. The named operations every meaning is built from: number notation (rules R7, R8), the buffer window and
its three access operations (rule R9), writing a result port (rules R11, R23), taking a fault (rules R93, R97), the
refusal while halted (rule R99), reset, which is the only return from a fault (rules R100, R106), and the issue of one
operation (rules R10, R90). -/

namespace Sys2Proof.Machine

/-! ## Notation (rules R7, R8) -/

/-- `v[hi:lo]`, bits hi down to lo of v as an unsigned number (rule R7). -/
def bitField (v hi lo : Nat) : Nat := v / 2 ^ lo % 2 ^ (hi + 1 - lo)

/-- `LE(b0, .., bk) = Σ bi·2^(8i)` (rule R8). -/
def leNat : List Byte → Nat
  | [] => 0
  | b :: bs => b.toNat + 256 * leNat bs

/-- `BE(b0, .., bk) = Σ bi·2^(8(k−i))` (rule R8), which is also the concatenation `{b0, .., bk}` (rule R7). -/
def beNat (bs : List Byte) : Nat := leNat bs.reverse

/-- `trunc_8(v >> 8i)` for i = 0 .. n−1, lowest first: the bytes `MemWrite` writes (rule R9). -/
def leBytes : Nat → Nat → List Byte
  | 0, _ => []
  | n + 1, v => BitVec.ofNat 8 v :: leBytes n (v / 256)

/-- `sext` of a field of width w read as two's complement (rule R8). -/
def sextInt (w v : Nat) : Int := if v / 2 ^ (w - 1) % 2 = 1 then (v : Int) - 2 ^ w else v

/-- `trunc_64(v)`, the low 64 bits of v's two's complement (rule R8). -/
def trunc64 (v : Int) : Word64 := BitVec.ofInt 64 v

/-! ## The buffer window (rules R9, R33, R40) -/

/-- The canonical form: addresses strictly rising and no entry equal to what an unlisted address reads as. -/
def Memory.wf : Memory → Bool
  | [] => true
  | [c] => c.2 != Memory.unlisted
  | c :: d :: m => c.2 != Memory.unlisted && decide (c.1 < d.1) && Memory.wf (d :: m)

/-- Every listed address is below n. -/
def Memory.below (n : Nat) (m : Memory) : Bool := m.all (fun c => decide (c.1 < n))

/-- The byte at an address. -/
def Memory.read : Memory → Nat → Byte
  | [], _ => Memory.unlisted
  | c :: m, x => if x = c.1 then c.2 else Memory.read m x

/-- Write one byte, keeping the canonical form. -/
def Memory.write : Memory → Nat → Byte → Memory
  | [], x, b => if b = Memory.unlisted then [] else [(x, b)]
  | c :: m, x, b =>
    if x < c.1 then (if b = Memory.unlisted then c :: m else (x, b) :: c :: m)
    else if x = c.1 then (if b = Memory.unlisted then m else (x, b) :: m)
    else c :: Memory.write m x b

/-- The n bytes at addr .. addr+n−1, the one at addr first. -/
def Memory.readBytes (m : Memory) : Nat → Nat → List Byte
  | _, 0 => []
  | addr, n + 1 => m.read addr :: Memory.readBytes m (addr + 1) n

/-- Write the bytes in order from addr on. -/
def Memory.writeBytes (m : Memory) : Nat → List Byte → Memory
  | _, [] => m
  | addr, b :: bs => Memory.writeBytes (m.write addr b) (addr + 1) bs

/-- The range check of rule R9: an access of n bytes at addr is inside the window, or is of no byte.  "Addresses are
computed as mathematical integers (no wrap at 2^ADDR_W)". -/
def State.inWindow (s : State) (addr n : Nat) : Bool := n == 0 || decide (addr + n ≤ s.params.bufLen)

/-- `MemRead(addr, n)` (rule R9). -/
def memRead (s : State) (addr n : Nat) : Except Raise (List Byte) :=
  if s.inWindow addr n then .ok (s.buf.readBytes addr n) else .error (.bufferBounds addr n)

/-- `MemWriteBytes(addr, bs)` (rule R9). -/
def memWriteBytes (s : State) (addr : Nat) (bs : List Byte) : Except Raise State :=
  if s.inWindow addr bs.length then .ok { s with buf := s.buf.writeBytes addr bs }
  else .error (.bufferBounds addr bs.length)

/-- `MemWrite(addr, n, v)`, little-endian (rule R9). -/
def memWrite (s : State) (addr n v : Nat) : Except Raise State := memWriteBytes s addr (leBytes n v)

/-! ## Writing a result port, `P <- v` (rules R11, R23) -/

/-- `OUT0 <- v` -/
def State.setOut0 (s : State) (v : Word64) : State := { s with out0 := some v }
/-- `OUT1 <- v` -/
def State.setOut1 (s : State) (v : Word64) : State := { s with out1 := some v }
/-- `RENC <- t` -/
def State.setRenc (s : State) (t : Byte) : State := { s with renc := some t }
/-- `OK <- b` -/
def State.setOk (s : State) (b : Bool) : State := { s with ok := some b }
/-- `ERR <- c` -/
def State.setErr (s : State) (c : BitVec 4) : State := { s with err := some c }

/-- What the host sees on a result port: its value extended to 64 bits, or nothing for ⊥ (rules R23, R24). -/
def State.resultPort (s : State) (p : ResultPort) : Option Word64 :=
  match p with
  | .out0 => s.out0
  | .out1 => s.out1
  | .renc => s.renc.map (fun t => t.setWidth 64)
  | .ok => s.ok.map (fun b => (BitVec.ofBool b).setWidth 64)
  | .err => s.err.map (fun c => c.setWidth 64)

/-! ## STATUS, faults, refusal and reset (rules R27, R93, R97, R99, R106) -/

/-- The FCODE of a fault (rule R93). -/
def Raise.code : Raise → BitVec 4
  | .illegalCommand _ => 1
  | .operandRange _ => 2
  | .invalidIntegerEncoding _ => 3
  | .bufferBounds _ _ => 4
  | .counterUnderflow _ _ => 5

/-- The STATUS register as the host reads it: FCODE in bits 7:4, bits 3:1 hardwired 0, HALT in bit 0 (rule R27). -/
def State.status (s : State) : Byte := s.fcode ++ (0 : BitVec 3) ++ BitVec.ofBool s.halt

/-- Fault entry (rule R97): FCODE and HALT are set; no buffer byte and no result port is written.  There is no vector, no
saved state and no mode change.  The info is kept for diagnosis (rule R94). -/
def State.takeFault (s : State) (f : Raise) : State :=
  { s with fcode := f.code, halt := true, lastRaise := some f }

/-- A command issued while halted: no effect on ZLEC, and the run is marked refused for good (rule R99). -/
def State.refuseCommand (s : State) : State := { s with runRefused := true }

/-- Reset, the only way out of the halted state (rules R100, R106, R107): STATUS 0, result ports ⊥, input ports
unspecified, the buffer window untouched. -/
def State.assertReset (s : State) : State :=
  { s with
    halt := false, fcode := 0, lastRaise := none
    out0 := none, out1 := none, renc := none, ok := none, err := none
    cmd := Config.freeCmd s.freeCount
    base := Config.freeBase s.freeCount
    a := Config.freeA s.freeCount
    enc := Config.freeEnc s.freeCount
    slen := Config.freeSlen s.freeCount
    freeCount := s.freeCount + 1 }

/-- The issue of one operation whose pseudocode, run on s, ends in `op` (rule R90): refused while halted (R99), else
completed, else its fault is taken from s, so that a faulting operation has written nothing (rules R10, R97). -/
def issue (s : State) (op : Except Raise State) : Host.Outcome State Fault Refusal :=
  if s.halt then .next s.refuseCommand
  else
    match op with
    | .ok t => .next t
    | .error f => .next (s.takeFault f)

/-- A reserved command byte does `raise IllegalCommand(CMD)` and has no other effect (rule R51). -/
def execReserved (b : Byte) (s : State) : Host.Outcome State Fault Refusal := issue s (.error (.illegalCommand b))

end Sys2Proof.Machine
end

