-- ==== Sys2Proof/Machine/Flags.lean ====
section
/-! DEFINITION. The flags OK and ERR (rule R26) and the error kinds of S2N with their ERR codes (rule R92). -/

namespace Sys2Proof.Machine

/-- The error kinds of S2N (rule R92); "none" is the absence of a kind. -/
inductive ErrKind where
  | invalidString
  | invalidFirstDigit
  | invalidChar
  | overFlowMul
  | overFlowAdd
  | overFlowNegative
  | overFlowPositive
deriving DecidableEq, Repr

/-- `code(kind)` (rule R92); codes 8..15 are never written. -/
def ErrKind.code : ErrKind → BitVec 4
  | .invalidString => 1
  | .invalidFirstDigit => 2
  | .invalidChar => 3
  | .overFlowMul => 4
  | .overFlowAdd => 5
  | .overFlowNegative => 6
  | .overFlowPositive => 7

/-- `ERR <- 0` on success (rules R26, R79). -/
def errNone : BitVec 4 := 0

/-- Completion of an operation with one 64-bit result: `OUT0 <- v; OK <- 1` (rule R26). -/
def State.answer (s : State) (v : Word64) : State := (s.setOut0 v).setOk true

end Sys2Proof.Machine
end

