-- ==== Sys2Proof/Machine/Operands.lean ====
section
/-! DEFINITION. Operand assembly (rules R11, R52) and the entry format's functions (rules R55 to R66, R81, R85):
the classifiers, the previous-length field, the string header, the integer payload and the width policy. -/

namespace Sys2Proof.Machine

/-! ## The input ports as operands (rules R11, R52) -/

/-- BASE as an unsigned address. -/
abbrev State.baseAddr (s : State) : Nat := s.base.toNat

/-- `uA`, A as an unsigned number. -/
abbrev State.uA (s : State) : Nat := s.a.toNat

/-- `sA = sext_64(A)`, A as a signed number. -/
abbrev State.sA (s : State) : Int := s.a.toInt

/-- SLEN as an unsigned byte count. -/
abbrev State.strLen (s : State) : Nat := s.slen.toNat

/-- A length operand: `uA`, which must fit 32 bits (rule R52), else `raise OperandRange(A)`. -/
def lengthOperand (s : State) : Except Raise Nat :=
  if s.uA ≤ Config.str32Max then .ok s.uA else .error (.operandRange s.a)

/-! ## The previous-length field (rules R55, R62) -/

/-- `prevlen_size(len)` (rule R62). -/
def prevlenSize (p : Params) (len : Nat) : Nat := if len < p.prevlenBig then 1 else 5

/-- The size of the previous-length field whose byte 0 is b (rules R55, R66). -/
def prevlenFieldSize (p : Params) (b : Byte) : Nat := if b.toNat < p.prevlenBig then 1 else 5

/-- The bytes of the previous-length field of a length in u32 (rule R55). -/
def prevlenBytes (p : Params) (len : Nat) : List Byte :=
  if len < p.prevlenBig then [BitVec.ofNat 8 len] else p.prevlenMarker :: leBytes 4 len

/-! ## Header tags (rules R56 to R61) -/

/-- `classify_tag(t)` (rule R59). -/
def classifyTag (p : Params) (t : Byte) : EntryKind :=
  if t = p.tagStr06 then .str6
  else if t = p.tagStr14 then .str14
  else if t = p.tagStr32 then .str32
  else if t = p.tagInt8 then .int8
  else if t = p.tagInt16 then .int16
  else if t = p.tagInt24 then .int24
  else if t = p.tagInt32 then .int32
  else if t = p.tagInt64 then .int64
  else if p.immBase.toNat ≤ t.toNat ∧ t.toNat ≤ p.immBase.toNat + p.immDecMax then
    .imm (t.toNat - p.immBase.toNat)
  else .invalid

/-- `b[7:6]`, the class bits of a header byte. -/
def classBits (b : Byte) : Nat := bitField b.toNat 7 6

/-- `classify_byte(b)` (rule R58). -/
def classifyByte (p : Params) (b : Byte) : EntryKind :=
  if classBits b = 0 then .str6
  else if classBits b = 1 then .str14
  else if classBits b = 2 then .str32
  else classifyTag p b

/-- `is_string_tag(t)` (rule R61). -/
def isStringTag (t : Byte) : Bool := classBits t != 3

/-- `entry_encoding_of(b)` (rule R60). -/
def entryEncodingOf (p : Params) (b : Byte) : Byte := if isStringTag b then b &&& p.tagStrMask else b

/-- The header size of an entry kind: 1, 2 or 5 for strings, 1 for integers, 0 for the invalid marker (rules R56,
R66, R74). -/
def headerSize : EntryKind → Nat
  | .str6 => 1
  | .str14 => 2
  | .str32 => 5
  | .imm _ => 1
  | .int8 => 1
  | .int16 => 1
  | .int24 => 1
  | .int32 => 1
  | .int64 => 1
  | .invalid => 0

/-- The payload bytes of an integer kind (rules R84, R85); none for a kind that is not an integer. -/
def payloadWidth : EntryKind → Option Nat
  | .str6 => none
  | .str14 => none
  | .str32 => none
  | .imm _ => some 0
  | .int8 => some 1
  | .int16 => some 2
  | .int24 => some 3
  | .int32 => some 4
  | .int64 => some 8
  | .invalid => none

/-- The payload width of an integer tag, else `raise InvalidIntegerEncoding(t)` (rules R84, R86, R87). -/
def integerWidth (p : Params) (t : Byte) : Except Raise Nat :=
  match payloadWidth (classifyTag p t) with
  | some n => .ok n
  | none => .error (.invalidIntegerEncoding t)

/-! ## String headers (rules R35, R57, R63) -/

/-- `str_header_size(raw_len)` (rule R57). -/
def strHeaderSize (rawLen : Nat) : Nat :=
  if rawLen ≤ Config.str06Max then 1 else if rawLen ≤ Config.str14Max then 2 else 5

/-- The two bytes of a 14-bit length (rules R35, R63; `.le` is log entry 4). -/
def str14Bytes (p : Params) (rawLen : Nat) : List Byte :=
  match p.str14Layout with
  | .be => [p.tagStr14 ||| BitVec.ofNat 8 (bitField rawLen 13 8), BitVec.ofNat 8 (bitField rawLen 7 0)]
  | .le => [p.tagStr14 ||| BitVec.ofNat 8 (bitField rawLen 5 0), BitVec.ofNat 8 (bitField rawLen 13 6)]

/-- The 14-bit length of a header's two bytes: `{b0[5:0], b1}` (rule R35; `.le` is log entry 4). -/
def str14Length (p : Params) (b0 b1 : Byte) : Nat :=
  match p.str14Layout with
  | .be => bitField b0.toNat 5 0 * 256 + b1.toNat
  | .le => bitField b0.toNat 5 0 + 64 * b1.toNat

/-- `str_header_bytes(raw_len)` (rule R63); the 4-byte length is little-endian (STR32_ORDER, conflict C3). -/
def strHeaderBytes (p : Params) (rawLen : Nat) : List Byte :=
  if rawLen ≤ Config.str06Max then [p.tagStr06 ||| BitVec.ofNat 8 rawLen]
  else if rawLen ≤ Config.str14Max then str14Bytes p rawLen
  else p.tagStr32 :: leBytes 4 rawLen

/-! ## Integers (rules R81, R85) -/

/-- `-2^(8n−1) ≤ v ≤ 2^(8n−1) − 1`: v fits n bytes of two's complement (rules R81, R86). -/
def fitsBytes (n : Nat) (v : Int) : Bool := decide (-(2 ^ (8 * n - 1)) ≤ v) && decide (v ≤ 2 ^ (8 * n - 1) - 1)

/-- `select_encoding(v)`, the width policy (rule R81). -/
def selectEncoding (p : Params) (v : Int) : Byte :=
  if 0 ≤ v ∧ v ≤ p.immEncMax then BitVec.ofNat 8 (p.immBase.toNat + v.toNat)
  else if fitsBytes 1 v then p.tagInt8
  else if fitsBytes 2 v then p.tagInt16
  else if fitsBytes 3 v then p.tagInt24
  else if fitsBytes 4 v then p.tagInt32
  else p.tagInt64

/-- The signed value of an integer payload (rule R85). -/
def payloadValue (bs : List Byte) : Int := sextInt (8 * bs.length) (leNat bs)

/-! ## A whole entry (rules R15, R16, R54, R66) -/

/-- "An entry's total encoded size is `prev_len_size + len_size + content_len`" (rule R16). -/
def entrySize (e : Entry) : Nat := e.prevLenSize + e.lenSize + e.contentLen

/-- The length of a string whose header stands at addr (rules R56, R73). -/
def stringLength (p : Params) (m : Memory) (addr : Nat) : EntryKind → Nat
  | .str6 => bitField (m.read addr).toNat 5 0
  | .str14 => str14Length p (m.read addr) (m.read (addr + 1))
  | .str32 => leNat (m.readBytes (addr + 1) 4)
  | .imm _ | .int8 | .int16 | .int24 | .int32 | .int64 | .invalid => 0

/-- The content of an entry of a kind whose payload of n bytes stands at addr (rules R15, R54, R85). -/
def contentAt (m : Memory) (addr n : Nat) : EntryKind → Content
  | .imm v => .integer v
  | .int8 | .int16 | .int24 | .int32 | .int64 => .integer (payloadValue (m.readBytes addr n))
  | .str6 | .str14 | .str32 | .invalid => .string (m.readBytes addr n)

/-- The entry whose previous-length field stands at addr, "reconstructed per access from buffer offsets" (rule R15), the
fields in the order of rule R16; none where the header byte is not an entry header (rule R65).  No rule says what the
record of an entry that runs past BUF_LEN is, or whether it is an entry: no byte exists there (rules R33, R54; note N6);
here a byte past BUF_LEN is read as `Memory.read` reads an unlisted address.  DESIGN CHOICE (log entry 22), unsafe for a
claim about such an entry; no step calls this function. -/
def entryAt (p : Params) (m : Memory) (addr : Nat) : Option Entry :=
  let ps := prevlenFieldSize p (m.read addr)
  let b := m.read (addr + ps)
  let k := classifyByte p b
  let hs := headerSize k
  let n := (payloadWidth k).getD (stringLength p m (addr + ps) k)
  if hs = 0 then none
  else some
    { prevLen := if ps = 1 then (m.read addr).toNat else leNat (m.readBytes (addr + 1) 4)
      prevLenSize := ps
      encoding := entryEncodingOf p b
      lenSize := hs
      contentLen := n
      content := contentAt m (addr + ps + hs) n k }

end Sys2Proof.Machine
end

