-- ==== Sys2Proof/Machine/Counter.lean ====
section
/-! DEFINITION. The counter field (44_counter.md): INCL. -/

namespace Sys2Proof.Machine

/-- The address of the element counter, `BASE + COUNTER_OFFSET` (rules R41, R88). -/
abbrev State.counterAddr (s : State) : Nat := s.baseAddr + s.params.counterOffset

/-- The 16-bit little-endian element count the buffer holds (rules R41, R88).  Where a counter byte lies past BUF_LEN no
byte exists (rule R33; note N6) and no rule gives a count; here such a byte is read as `Memory.read` reads an unlisted
address.  DESIGN CHOICE (log entry 24), unsafe for a claim about such a count; INCL faults there and reads nothing. -/
def State.storedCount (s : State) : Nat := leNat (s.buf.readBytes s.counterAddr 2)

/-- What the stored count states of the number of elements: "when the stored count is COUNTER_MAX (65535), it no longer
states the number of elements; the true count is not held anywhere in ZLEC" (rules R89, R115), so a saturated count
states nothing.  Where a counter byte lies past BUF_LEN the answer is a number the spec does not give (DESIGN CHOICE, log entry
24).  Rules R89 and R115 speak of COUNTER_MAX only; that a count INCL wrapped (COUNTER_OVERFLOW = wrap, t mod 2^16) still
states itself is the model's reading (DESIGN CHOICE, log entry 25).  State has no field for the true count, and recovering it by a full scan is the host's (rule R89). -/
def State.statedCount (s : State) : Option Nat :=
  if s.storedCount = Config.counterMax then none else some s.storedCount

/-- What INCL stores for a sum t ≥ 0 of an unsaturated count and delta (rule R88, conflict C5). -/
def counterSum (p : Params) (t : Nat) : Nat :=
  if t ≤ Config.counterMax then t
  else
    match p.counterOverflow with
    | .clamp => Config.counterMax
    | .wrap => t % 2 ^ 16

/-- INCL, increment length (rule R88): a saturated count is left unchanged and not written. -/
def execIncl (s : State) : Host.Outcome State Fault Refusal :=
  issue s do
    let bs ← memRead s s.counterAddr 2
    let cur := leNat bs
    if cur = Config.counterMax then
      return s.answer (BitVec.ofNat 64 cur)
    else if (cur : Int) + s.sA < 0 then
      throw (.counterUnderflow cur s.sA)
    else
      let new := counterSum s.params ((cur : Int) + s.sA).toNat
      let t ← memWrite s s.counterAddr 2 new
      return t.answer (BitVec.ofNat 64 new)

end Sys2Proof.Machine
end

