-- ==== Sys2Proof/Machine/Header.lean ====
section
/-! DEFINITION. The encoding-header codec (41_header.md): EENC, DLEN, ELS, SEE.W, SEE.D and ISSTR. -/

namespace Sys2Proof.Machine

/-- EENC, entry encoding (rule R72). -/
def execEenc (s : State) : Host.Outcome State Fault Refusal :=
  issue s do
    let bs ← memRead s s.baseAddr 1
    return (s.setRenc (entryEncodingOf s.params (bs.getD 0 0))).setOk true

/-- The pair (header size, content length) of DLEN: the class from ENC, the length bits of a string from the buffer at
BASE (rules R73, R111). -/
def decodedLength (s : State) : Except Raise (Nat × Nat) :=
  match classifyTag s.params s.enc with
  | .str6 => do
    let bs ← memRead s s.baseAddr 1
    return (1, bitField (bs.getD 0 0).toNat 5 0)
  | .str14 => do
    let bs ← memRead s s.baseAddr 2
    return (2, str14Length s.params (bs.getD 0 0) (bs.getD 1 0))
  | .str32 => do
    let bs ← memRead s s.baseAddr 5
    return (5, leNat bs.tail)
  | .int8 => .ok (1, 1)
  | .int16 => .ok (1, 2)
  | .int24 => .ok (1, 3)
  | .int32 => .ok (1, 4)
  | .int64 => .ok (1, 8)
  | .imm _ => .ok (1, 0)
  | .invalid => .ok (0, 0)

/-- DLEN, decode length (rule R73): OK is 0 exactly for the invalid marker. -/
def execDlen (s : State) : Host.Outcome State Fault Refusal :=
  issue s do
    let r ← decodedLength s
    return ((s.setOut0 (BitVec.ofNat 64 r.1)).setOut1 (BitVec.ofNat 64 r.2)).setOk (r.1 != 0)

/-- ELS, encoding length size (rule R74): lookup only, no buffer access, no fault. -/
def execEls (s : State) : Host.Outcome State Fault Refusal :=
  let hs := headerSize (classifyTag s.params s.enc)
  issue s (.ok ((s.setOut0 (BitVec.ofNat 64 hs)).setOk (hs != 0)))

/-- The header bytes SEE.W stores: for a string tag those of the length on A, for an integer tag the tag verbatim, and A
is not read (rules R63, R64, R75). -/
def headerToStore (s : State) : Except Raise (List Byte) :=
  if isStringTag s.enc then (lengthOperand s).map (strHeaderBytes s.params) else .ok [s.enc]

/-- The header size SEE.D reports (rules R57, R76). -/
def headerSizeToStore (s : State) : Except Raise Nat :=
  if isStringTag s.enc then (lengthOperand s).map strHeaderSize else .ok 1

/-- SEE.W, store entry encoding, write mode (rule R75). -/
def execSeeW (s : State) : Host.Outcome State Fault Refusal :=
  issue s do
    let bs ← headerToStore s
    let t ← memWriteBytes s s.baseAddr bs
    return t.answer (BitVec.ofNat 64 bs.length)

/-- SEE.D, store entry encoding, dry-run (rule R76): BASE and the buffer are not read. -/
def execSeeD (s : State) : Host.Outcome State Fault Refusal :=
  issue s do
    let n ← headerSizeToStore s
    return s.answer (BitVec.ofNat 64 n)

/-- ISSTR, is string (rule R77). -/
def execIsstr (s : State) : Host.Outcome State Fault Refusal :=
  issue s (.ok (s.answer (if isStringTag s.enc then 1 else 0)))

end Sys2Proof.Machine
end

