-- ==== Sys2Proof/Machine/IntConv.lean ====
section
/-! DEFINITION. Integer conversion (42_intconv.md): the decimal parser, S2N, TRYE and ISZ. -/

namespace Sys2Proof.Machine

/-- `'0'` = 0x30 .. `'9'` = 0x39 (42_intconv.md, ASCII). -/
def isDigit (c : Byte) : Bool := decide (0x30 ≤ c.toNat) && decide (c.toNat ≤ 0x39)

/-- `c - '0'`. -/
def digitValue (c : Byte) : Nat := c.toNat - 0x30

/-- The digit loop of `parse_dec` from accumulator v: per character, left to right, the non-digit check, then
multiplication overflow, then addition overflow (rule R78). -/
def parseDigits : List Byte → Nat → Except ErrKind Nat
  | [], v => .ok v
  | c :: cs, v =>
    if !isDigit c then .error .invalidChar
    else if (2 ^ 64 - 1) / 10 < v then .error .overFlowMul
    else if (2 ^ 64 - 1) - digitValue c < v * 10 then .error .overFlowAdd
    else parseDigits cs (v * 10 + digitValue c)

/-- The characters after the optional sign: the first must be '1'..'9' (rule R78). -/
def parseMagnitude (body : List Byte) : Except ErrKind Nat :=
  match body with
  | [] => .error .invalidFirstDigit
  | c :: cs =>
    if decide (0x31 ≤ c.toNat) && decide (c.toNat ≤ 0x39) then parseDigits (c :: cs) 0
    else .error .invalidFirstDigit

/-- `parse_dec` on the bytes of a string that passed the length check (rule R78). -/
def parseString (bs : List Byte) : Except ErrKind Int :=
  if bs = [0x30] then .ok 0
  else if bs.head? = some 0x2D then
    match parseMagnitude bs.tail with
    | .ok v => if 2 ^ 63 < v then .error .overFlowNegative else .ok (-(v : Int))
    | .error k => .error k
  else
    match parseMagnitude bs with
    | .ok v => if 2 ^ 63 - 1 < v then .error .overFlowPositive else .ok (v : Int)
    | .error k => .error k

/-- `parse_dec(addr, n)` (rule R78): no byte is read for an empty string or one at or above STR_MAX_LEN. -/
def parseDec (s : State) (addr n : Nat) : Except Raise (Except ErrKind Int) :=
  if n = 0 ∨ s.params.strMaxLen ≤ n then .ok (.error .invalidString)
  else (memRead s addr n).map parseString

/-- The result ports S2N writes (rule R79): a parse failure is a completion with OK = 0, not a fault. -/
def State.answerNumber (s : State) : Except ErrKind Int → State
  | .ok v => ((s.setOut0 (trunc64 v)).setErr errNone).setOk true
  | .error k => ((s.setOut0 0).setErr k.code).setOk false

/-- S2N, string to number (rule R79). -/
def execS2n (s : State) : Host.Outcome State Fault Refusal :=
  issue s ((parseDec s s.baseAddr s.strLen).map s.answerNumber)

/-- The value and its tag where the string is a number, else absent (rule R83). -/
def encodingChoice (p : Params) : Except ErrKind Int → Option (Int × Byte)
  | .ok v => some (v, selectEncoding p v)
  | .error _ => none

/-- The answer of TRYE: absent for an empty string or one at or above TRY_ENC_MAX_LEN, of which no byte is read, else as
`parse_dec` decides (rule R83). -/
def tryEncoding (s : State) : Except Raise (Option (Int × Byte)) :=
  if s.strLen = 0 ∨ s.params.tryEncMaxLen ≤ s.strLen then .ok none
  else (parseDec s s.baseAddr s.strLen).map (encodingChoice s.params)

/-- The result ports TRYE writes (rule R83); ERR is not written. -/
def State.answerEncoding (s : State) : Option (Int × Byte) → State
  | some r => ((s.setOut0 (trunc64 r.1)).setRenc r.2).setOk true
  | none => ((s.setOut0 0).setRenc 0).setOk false

/-- TRYE, try encoding (rule R83). -/
def execTrye (s : State) : Host.Outcome State Fault Refusal :=
  issue s ((tryEncoding s).map s.answerEncoding)

/-- ISZ, integer payload size (rule R84). -/
def execIsz (s : State) : Host.Outcome State Fault Refusal :=
  issue s do
    let n ← integerWidth s.params s.enc
    return s.answer (BitVec.ofNat 64 n)

/-! ## Canonical decimal spelling (rule R80) -/

/-- The decimal digits of n, at most `fuel` of them, most significant first, put before `acc`. -/
def decimalDigits : Nat → Nat → List Byte → List Byte
  | 0, _, acc => acc
  | fuel + 1, n, acc =>
    if n < 10 then BitVec.ofNat 8 (0x30 + n) :: acc
    else decimalDigits fuel (n / 10) (BitVec.ofNat 8 (0x30 + n % 10) :: acc)

/-- The canonical decimal spelling of v in i64: "no leading zeros, no `+`, `-` only for v < 0, `"0"` for zero" (rule
R80).  20 digits are enough for every magnitude up to 2^64 − 1. -/
def canonicalDecimal (v : Int) : List Byte :=
  if v < 0 then 0x2D :: decimalDigits 20 v.natAbs [] else decimalDigits 20 v.natAbs []

end Sys2Proof.Machine
end

