-- ==== Sys2Proof/Machine/Payload.lean ====
section
/-! DEFINITION. The payload codec (43_payload.md): SAVI and LDI. -/

namespace Sys2Proof.Machine

/-- SAVI, save integer (rule R86): the low n bytes of sA, little-endian, where n is the width of the tag on ENC; a tag
check first, then with SAVI_RANGE = fault the range check, then the write. -/
def execSavi (s : State) : Host.Outcome State Fault Refusal :=
  issue s do
    let n ← integerWidth s.params s.enc
    if s.params.saviRange = .fault ∧ 0 < n ∧ fitsBytes n s.sA = false then
      throw (.operandRange s.a)
    else
      let t ← memWrite s s.baseAddr n (trunc64 s.sA).toNat
      return t.answer (BitVec.ofNat 64 n)

/-- The value LDI reads (rule R87): sign-extended from the tag's width, or the value an immediate tag carries. -/
def loadedValue (s : State) : Except Raise Int :=
  match classifyTag s.params s.enc with
  | .int8 => (memRead s s.baseAddr 1).map payloadValue
  | .int16 => (memRead s s.baseAddr 2).map payloadValue
  | .int24 => (memRead s s.baseAddr 3).map payloadValue
  | .int32 => (memRead s s.baseAddr 4).map payloadValue
  | .int64 => (memRead s s.baseAddr 8).map payloadValue
  | .imm k => .ok k
  | .str6 => .error (.invalidIntegerEncoding s.enc)
  | .str14 => .error (.invalidIntegerEncoding s.enc)
  | .str32 => .error (.invalidIntegerEncoding s.enc)
  | .invalid => .error (.invalidIntegerEncoding s.enc)

/-- LDI, load integer payload (rule R87). -/
def execLdi (s : State) : Host.Outcome State Fault Refusal :=
  issue s do
    let v ← loadedValue s
    return s.answer (trunc64 v)

end Sys2Proof.Machine
end

