-- ==== Sys2Proof/Machine/PrevLen.lean ====
section
/-! DEFINITION. The length-field codec (40_prevlen.md): DPLS, DPL, SPL.W, SPL.D and PLD. -/

namespace Sys2Proof.Machine

/-- DPLS, decode previous-length size (rule R67). -/
def execDpls (s : State) : Host.Outcome State Fault Refusal :=
  issue s do
    let bs ← memRead s s.baseAddr 1
    return s.answer (BitVec.ofNat 64 (prevlenFieldSize s.params (bs.getD 0 0)))

/-- DPL, decode previous length (rule R68).  The marker byte of a 5-byte field is read again and ignored. -/
def execDpl (s : State) : Host.Outcome State Fault Refusal :=
  issue s do
    let bs ← memRead s s.baseAddr 1
    if (bs.getD 0 0).toNat < s.params.prevlenBig then
      return (s.answer 1).setOut1 (BitVec.ofNat 64 (bs.getD 0 0).toNat)
    else
      let field ← memRead s s.baseAddr 5
      return (s.answer 5).setOut1 (BitVec.ofNat 64 (leNat field.tail))

/-- SPL.W, store previous-entry length, write mode (rule R69). -/
def execSplW (s : State) : Host.Outcome State Fault Refusal :=
  issue s do
    let len ← lengthOperand s
    let bs := prevlenBytes s.params len
    let t ← memWriteBytes s s.baseAddr bs
    return t.answer (BitVec.ofNat 64 bs.length)

/-- SPL.D, store previous-entry length, dry-run (rule R70): BASE and the buffer are not read. -/
def execSplD (s : State) : Host.Outcome State Fault Refusal :=
  issue s do
    let len ← lengthOperand s
    return s.answer (BitVec.ofNat 64 (prevlenSize s.params len))

/-- PLD, previous-length bytes difference (rule R71). -/
def execPld (s : State) : Host.Outcome State Fault Refusal :=
  issue s do
    let newLen ← lengthOperand s
    let bs ← memRead s s.baseAddr 1
    return s.answer
      (trunc64 ((prevlenSize s.params newLen : Int) - (prevlenFieldSize s.params (bs.getD 0 0) : Int)))

end Sys2Proof.Machine
end

