-- ==== Sys2Proof/Machine/Dispatch.lean ====
section
/-! DEFINITION. One arm per command of rule R50, each one call of its meaning. -/

namespace Sys2Proof.Machine

def exec (i : Instr) (s : State) : Host.Outcome State Fault Refusal :=
  match i with
  | .dpls => Sys2Proof.Machine.execDpls s
  | .dpl => Sys2Proof.Machine.execDpl s
  | .splW => Sys2Proof.Machine.execSplW s
  | .splD => Sys2Proof.Machine.execSplD s
  | .pld => Sys2Proof.Machine.execPld s
  | .eenc => Sys2Proof.Machine.execEenc s
  | .dlen => Sys2Proof.Machine.execDlen s
  | .els => Sys2Proof.Machine.execEls s
  | .seeW => Sys2Proof.Machine.execSeeW s
  | .seeD => Sys2Proof.Machine.execSeeD s
  | .isstr => Sys2Proof.Machine.execIsstr s
  | .s2n => Sys2Proof.Machine.execS2n s
  | .trye => Sys2Proof.Machine.execTrye s
  | .isz => Sys2Proof.Machine.execIsz s
  | .savi => Sys2Proof.Machine.execSavi s
  | .ldi => Sys2Proof.Machine.execLdi s
  | .incl => Sys2Proof.Machine.execIncl s

end Sys2Proof.Machine
end

