-- ==== Sys2Proof/Machine/HostPort.lean ====
section
/-! DEFINITION. The host's side of the ports: issuing a command by writing CMD (rule R48), and every other thing the
host may do between operations (rules R17, R22, R24, R27, R53, R105, R106). -/

namespace Sys2Proof.Machine

/-- A write to CMD: the byte is latched and selects the operation, which reads the other ports as they stand (rules R22,
R48, R51). -/
def issueCommand (b : Byte) (s : State) : Host.Outcome State Fault Refusal :=
  match decode b with
  | .ok i => exec i { s with cmd := b }
  | .error (.reserved c) => execReserved c { s with cmd := b }

/-- The host writes bytes into the window it owns (rules R17, R33). -/
def hostWriteBytes (addr : Nat) (bs : List Byte) (s : State) : Host.Outcome State Fault Refusal :=
  if s.inWindow addr bs.length then .next { s with buf := s.buf.writeBytes addr bs }
  else .fault (.outsideWindow addr bs.length)

/-- The host reads a byte of the window (rules R33, R43). -/
def hostReadByte (addr : Nat) (s : State) : Host.Outcome State Fault Refusal :=
  if s.inWindow addr 1 then .next { s with hostRead := some ((s.buf.read addr).setWidth 64) }
  else .fault (.outsideWindow addr 1)

/-- The host reads a result port: "A host read of a port holding ⊥ is a fault of the model (the read has no meaning),
never a zero" (rule R24).  ⊥ is the reset value the spec gives the port (rule R31), not the want of one.  A port that an operation wrote since reset, but not the last one, "still holds an older
operation's value" (rule R117), which the read returns: rule R117 forbids the host that read and names no consequence,
rule R24 faults ⊥ alone, and entry I20 counts "not written by the last operation" under its fault.  DESIGN CHOICE (log
entry 26), unsafe for a claim about such a read. -/
def hostReadPort (p : ResultPort) (s : State) : Host.Outcome State Fault Refusal :=
  match s.resultPort p with
  | some v => .next { s with hostRead := some v }
  | none => .fault (.unwrittenPort p)

/-- One action of the host. -/
def hostAct (act : HostAction) (s : State) : Host.Outcome State Fault Refusal :=
  match act with
  | .setBase v => .next { s with base := v }
  | .setA v => .next { s with a := v }
  | .setEnc v => .next { s with enc := v }
  | .setSlen v => .next { s with slen := v }
  | .command b => issueCommand b s
  | .writeStatus _ => .next s
  | .writeBytes addr bs => hostWriteBytes addr.toNat bs s
  | .readByte addr => hostReadByte addr.toNat s
  | .readPort p => hostReadPort p s
  | .readStatus => .next { s with hostRead := some (s.status.setWidth 64) }
  | .reset => .next s.assertReset
  | .accessDuringOperation _ => .refused .accessDuringOperation
  | .overlapOtherUnit _ => .refused .overlappingUnits

/-- The next host action, or none while the host issues nothing: ZLEC then waits (rules R25, R106). -/
def hostStep (s : State) : Host.Outcome State Fault Refusal :=
  match s.host with
  | [] => .next s
  | act :: rest => hostAct act { s with host := rest }

/-- What a listing line does: the port writes it names, then the command byte (rule R53). -/
def lineActions (l : Line) : List HostAction :=
  (l.base.map HostAction.setBase).toList ++ (l.a.map (fun v => HostAction.setA (trunc64 v))).toList ++
    (l.enc.map HostAction.setEnc).toList ++ (l.slen.map HostAction.setSlen).toList ++ [.command (encode l.instr)]

/-- `host.string addr: "text"`: "writes the ASCII bytes, no terminator" (rule R53).  The rule speaks of ASCII text only;
of a character above 0x7F this writes the low 8 bits of its code point.  DESIGN CHOICE (log entry 23), unsafe for a claim
about such text. -/
def hostString (addr : Addr) (text : List Char) : HostAction :=
  .writeBytes addr (text.map (fun c => BitVec.ofNat 8 c.toNat))

end Sys2Proof.Machine
end

