-- ==== Sys2Proof/Machine/Step.lean ====
section
/-! DEFINITION. One step of the machine: the next host action, which for a write to CMD is one whole operation, atomic
to the host (rules R19, R38, R43). -/

namespace Sys2Proof.Machine

/-- One step.  A configuration that breaks a constraint of decision D37 is refused; otherwise the host's next action is
performed. -/
def step (s : State) : Host.Outcome State Fault Refusal :=
  if s.params.legal then hostStep s else .refused .illegalConfiguration

/-- s with the command byte w as the host's next action: ZLEC fetches nothing, the host writes CMD (rules R25, R48; log
entry 7).  A command is one byte, whatever `_nbits`. -/
def State.withFetchWord (s : State) (_nbits w : Nat) : State :=
  { s with host := .command (BitVec.ofNat 8 w) :: s.host }

end Sys2Proof.Machine
end

