-- ==== Sys2Proof/Safety.lean ====
section
/-! DEFINITION. The terms claims are stated in: a successful run (rules R98, R99), the buffer accesses an operation may
make (rule R39), and the invariant of a machine that started at reset. -/

namespace Sys2Proof.Machine

/-- A state that ends a successful run: the unit is not halted by a fault (rule R98) and no command was issued while it
was halted ("a refused run is never a successful end", rule R99). -/
def State.successful (s : State) : Bool := !s.halt && !s.runRefused

/-- The bytes at or above addr and below addr + n. -/
def inRange (r : Nat × Nat) (x : Nat) : Bool := decide (r.1 ≤ x) && decide (x < r.1 + r.2)

/-- The number of bytes DLEN reads under a class (rule R39). -/
def dlenReads : EntryKind → Nat
  | .str6 => 1
  | .str14 => 2
  | .str32 => 5
  | .imm _ => 0
  | .int8 => 0
  | .int16 => 0
  | .int24 => 0
  | .int32 => 0
  | .int64 => 0
  | .invalid => 0

/-- The column "reads" of rule R39: the address and the number of bytes a command reads in a state.  For a DPL that faults
because BASE is past BUF_LEN it takes the size from a byte that does not exist (DESIGN CHOICE, log entry 24). -/
def readRange (i : Instr) (s : State) : Nat × Nat :=
  match i with
  | .dpls => (s.baseAddr, 1)
  | .dpl => (s.baseAddr, prevlenFieldSize s.params (s.buf.read s.baseAddr))
  | .splW => (s.baseAddr, 0)
  | .splD => (s.baseAddr, 0)
  | .pld => (s.baseAddr, 1)
  | .eenc => (s.baseAddr, 1)
  | .dlen => (s.baseAddr, dlenReads (classifyTag s.params s.enc))
  | .els => (s.baseAddr, 0)
  | .seeW => (s.baseAddr, 0)
  | .seeD => (s.baseAddr, 0)
  | .isstr => (s.baseAddr, 0)
  | .s2n => (s.baseAddr, if s.strLen < s.params.strMaxLen then s.strLen else 0)
  | .trye => (s.baseAddr, if s.strLen < min s.params.strMaxLen s.params.tryEncMaxLen then s.strLen else 0)
  | .isz => (s.baseAddr, 0)
  | .savi => (s.baseAddr, 0)
  | .ldi => (s.baseAddr, (payloadWidth (classifyTag s.params s.enc)).getD 0)
  | .incl => (s.counterAddr, 2)

/-- The column "writes" of rule R39: the address and the number of bytes a command writes in a state where it
completes; of a state where it faults the answer means nothing (log entry 24). -/
def writeRange (i : Instr) (s : State) : Nat × Nat :=
  match i with
  | .dpls => (s.baseAddr, 0)
  | .dpl => (s.baseAddr, 0)
  | .splW => (s.baseAddr, prevlenSize s.params s.uA)
  | .splD => (s.baseAddr, 0)
  | .pld => (s.baseAddr, 0)
  | .eenc => (s.baseAddr, 0)
  | .dlen => (s.baseAddr, 0)
  | .els => (s.baseAddr, 0)
  | .seeW => (s.baseAddr, if isStringTag s.enc then strHeaderSize s.uA else 1)
  | .seeD => (s.baseAddr, 0)
  | .isstr => (s.baseAddr, 0)
  | .s2n => (s.baseAddr, 0)
  | .trye => (s.baseAddr, 0)
  | .isz => (s.baseAddr, 0)
  | .savi => (s.baseAddr, (payloadWidth (classifyTag s.params s.enc)).getD 0)
  | .ldi => (s.baseAddr, 0)
  | .incl => (s.counterAddr, if leNat (s.buf.readBytes s.counterAddr 2) = Config.counterMax then 0 else 2)

/-- The result ports a command writes when it completes (rule R32). -/
def writesPort (i : Instr) (p : ResultPort) : Bool :=
  match p with
  | .out0 => i != .eenc
  | .out1 => i == .dpl || i == .dlen
  | .renc => i == .eenc || i == .trye
  | .ok => true
  | .err => i == .s2n

/-- What holds of every machine that started at reset: the configuration is legal (D37); the buffer is canonical and
inside the window (R33); STATUS shows the fault that halted the unit and nothing else (R27, R93, R97, R100); ERR holds no
reserved code (R92); OK is written by every completion (R26); a decoded length on OUT1 fits 32 bits (R68, R73). -/
structure Inv (s : State) : Prop where
  legal : s.params.legal = true
  canonical : s.buf.wf = true
  inside : s.buf.below s.params.bufLen = true
  halted : s.halt = true → ∃ f, s.lastRaise = some f ∧ s.fcode = f.code
  running : s.halt = false → s.lastRaise = none ∧ s.fcode = 0
  errKind : ∀ c, s.err = some c → c.toNat ≤ 7
  okFirst : s.ok = none → s.out0 = none ∧ s.out1 = none ∧ s.renc = none ∧ s.err = none
  lengthFits : ∀ v, s.out1 = some v → v.toNat < 2 ^ 32

end Sys2Proof.Machine
end

