-- ==== Sys2Proof/Certificates/Slice0/Obligations.lean ====
section
/-! DEFINITION. The statements for the provers.  Each docstring names the rule of spec/ a statement formalises; a
statement about a choice of the model says so and names the log entry. -/

open Sys2Proof Sys2Proof.Machine

/-! ## The command byte (rules R48 to R51) -/

/-- Rule R50: each listed byte is its command, and every other byte is reserved. -/
def Obligations.CommandCodesOfTheTable : Prop :=
  (∀ e ∈ [(0x01#8, Instr.dpls), (0x02#8, .dpl), (0x03#8, .splW), (0x83#8, .splD), (0x04#8, .pld), (0x05#8, .eenc),
      (0x06#8, .dlen), (0x07#8, .els), (0x08#8, .seeW), (0x88#8, .seeD), (0x09#8, .isstr), (0x0A#8, .s2n),
      (0x0B#8, .trye), (0x0C#8, .isz), (0x0D#8, .savi), (0x0E#8, .ldi), (0x0F#8, .incl)],
    decode e.1 = .ok e.2) ∧
  ∀ b : Byte, b ∉ [0x01#8, 0x02#8, 0x03#8, 0x83#8, 0x04#8, 0x05#8, 0x06#8, 0x07#8, 0x08#8, 0x88#8, 0x09#8, 0x0A#8,
      0x0B#8, 0x0C#8, 0x0D#8, 0x0E#8, 0x0F#8] → decode b = .error (.reserved b)

/-- Rules R48, R50: decoding inverts encoding both ways, and bit 7 of a command byte is set for the dry-run commands
alone. -/
def Obligations.DecodeAndEncodeAgree : Prop :=
  (∀ i : Instr, decode (encode i) = .ok i) ∧ (∀ (b : Byte) (i : Instr), decode b = .ok i → encode i = b) ∧
  ∀ i : Instr, (encode i).msb = true ↔ i = .splD ∨ i = .seeD

/-- Rule R51: a reserved command raises IllegalCommand and has no other effect (CMD keeps the byte, rule R22). -/
def Obligations.ReservedCommandRaisesIllegalCommand : Prop :=
  ∀ (s : State) (b : Byte) (rest : List HostAction), s.params.legal = true → s.halt = false →
    s.host = .command b :: rest →
    (b = 0x00 ∨ (0x10 ≤ b.toNat ∧ b.toNat ≤ 0x7F) ∨ (0x80 ≤ b.toNat ∧ b ≠ 0x83 ∧ b ≠ 0x88)) →
    step s = .next
      { s with host := rest, cmd := b, fcode := 1, halt := true, lastRaise := some (.illegalCommand b) }

/-- Rules R38, R48: when the host's next action writes a byte that decodes to i, the step is exec of i, with the byte
latched on CMD and that action consumed. -/
def Obligations.StepRunsDecodedCommand : Prop :=
  ∀ (s : State) (b : Byte) (rest : List HostAction) (i : Instr), s.params.legal = true →
    s.host = .command b :: rest → decode b = .ok i → i.wellFormed = true →
    step s = exec i { s with host := rest, cmd := b }

/-! ## The buffer accesses (rule R9) -/

/-- Rule R9: the three access operations check the whole range first, access nothing when it fails, access nothing and
never raise for n = 0, and otherwise read or write exactly the bytes of the range. -/
def Obligations.AccessesCheckTheWholeRange : Prop :=
  (∀ (s : State) (addr n : Nat),
    (n = 0 ∨ addr + n ≤ s.params.bufLen →
      ∃ bs, memRead s addr n = .ok bs ∧ bs.length = n ∧ ∀ k, k < n → bs.getD k 0 = s.buf.read (addr + k)) ∧
    (0 < n ∧ s.params.bufLen < addr + n → memRead s addr n = .error (.bufferBounds addr n))) ∧
  (∀ (s : State) (addr : Nat) (bs : List Byte), s.buf.wf = true →
    (bs.length = 0 ∨ addr + bs.length ≤ s.params.bufLen →
      ∃ m, memWriteBytes s addr bs = .ok { s with buf := m } ∧
        ∀ x, m.read x = if addr ≤ x ∧ x < addr + bs.length then bs.getD (x - addr) 0 else s.buf.read x) ∧
    (0 < bs.length ∧ s.params.bufLen < addr + bs.length →
      memWriteBytes s addr bs = .error (.bufferBounds addr bs.length))) ∧
  (∀ (s : State) (addr n v : Nat), s.buf.wf = true →
    (n = 0 ∨ addr + n ≤ s.params.bufLen →
      ∃ m, memWrite s addr n v = .ok { s with buf := m } ∧
        ∀ x, m.read x = if addr ≤ x ∧ x < addr + n then BitVec.ofNat 8 (v >>> (8 * (x - addr))) else s.buf.read x) ∧
    (0 < n ∧ s.params.bufLen < addr + n → memWrite s addr n v = .error (.bufferBounds addr n)))

/-! ## The length-field codec (40_prevlen.md) -/

/-- Rule R67, DPLS. -/
def Obligations.DplsReportsFieldSize : Prop :=
  decode 0x01 = .ok .dpls ∧ ∀ s : State, s.halt = false →
    (s.base.toNat + 1 ≤ s.params.bufLen →
      exec .dpls s = .next
        { s with
          out0 := some (if (s.buf.read s.base.toNat).toNat < s.params.prevlenBig then 1 else 5), ok := some true }) ∧
    (s.params.bufLen < s.base.toNat + 1 → exec .dpls s = .next (s.takeFault (.bufferBounds s.base.toNat 1)))

/-- Rule R68, DPL. -/
def Obligations.DplDecodesPreviousLength : Prop :=
  decode 0x02 = .ok .dpl ∧ ∀ s : State, s.halt = false →
    (s.base.toNat + 1 ≤ s.params.bufLen → (s.buf.read s.base.toNat).toNat < s.params.prevlenBig →
      exec .dpl s = .next
        { s with out0 := some 1, out1 := some ((s.buf.read s.base.toNat).setWidth 64), ok := some true }) ∧
    (s.base.toNat + 5 ≤ s.params.bufLen → s.params.prevlenBig ≤ (s.buf.read s.base.toNat).toNat →
      exec .dpl s = .next
        { s with
          out0 := some 5
          out1 := some ((s.buf.read (s.base.toNat + 4) ++ s.buf.read (s.base.toNat + 3) ++
            s.buf.read (s.base.toNat + 2) ++ s.buf.read (s.base.toNat + 1) : BitVec 32).setWidth 64)
          ok := some true }) ∧
    (s.params.bufLen < s.base.toNat + 1 → exec .dpl s = .next (s.takeFault (.bufferBounds s.base.toNat 1))) ∧
    (s.base.toNat + 1 ≤ s.params.bufLen → s.params.bufLen < s.base.toNat + 5 →
      s.params.prevlenBig ≤ (s.buf.read s.base.toNat).toNat →
      exec .dpl s = .next (s.takeFault (.bufferBounds s.base.toNat 5)))

/-- Rule R69, SPL.W: the bytes stored are those of rule R55. -/
def Obligations.SplWStoresPreviousLength : Prop :=
  decode 0x03 = .ok .splW ∧ ∀ s : State, s.halt = false →
    (2 ^ 32 ≤ s.a.toNat → exec .splW s = .next (s.takeFault (.operandRange s.a))) ∧
    (s.a.toNat < s.params.prevlenBig → s.a.toNat < 2 ^ 32 →
      (s.base.toNat + 1 ≤ s.params.bufLen →
        exec .splW s = .next
          { s with buf := s.buf.writeBytes s.base.toNat [s.a.setWidth 8], out0 := some 1, ok := some true }) ∧
      (s.params.bufLen < s.base.toNat + 1 → exec .splW s = .next (s.takeFault (.bufferBounds s.base.toNat 1)))) ∧
    (s.params.prevlenBig ≤ s.a.toNat → s.a.toNat < 2 ^ 32 →
      (s.base.toNat + 5 ≤ s.params.bufLen →
        exec .splW s = .next
          { s with
            buf := s.buf.writeBytes s.base.toNat
              [s.params.prevlenMarker, s.a.extractLsb' 0 8, s.a.extractLsb' 8 8, s.a.extractLsb' 16 8,
                s.a.extractLsb' 24 8]
            out0 := some 5, ok := some true }) ∧
      (s.params.bufLen < s.base.toNat + 5 → exec .splW s = .next (s.takeFault (.bufferBounds s.base.toNat 5))))

/-- Rule R70, SPL.D: the size SPL.W would write, from A alone; it never raises BufferBounds, and it is the size and the
number of bytes of SPL.W on the same operands. -/
def Obligations.SplDReportsSizeOnly : Prop :=
  decode 0x83 = .ok .splD ∧ ∀ s : State, s.halt = false →
    (2 ^ 32 ≤ s.a.toNat → exec .splD s = .next (s.takeFault (.operandRange s.a))) ∧
    (s.a.toNat < 2 ^ 32 →
      exec .splD s = .next
        { s with out0 := some (if s.a.toNat < s.params.prevlenBig then 1 else 5), ok := some true } ∧
      ∀ t, exec .splW s = .next t → t.halt = false →
        ∃ bs : List Byte, t.out0 = some (BitVec.ofNat 64 bs.length) ∧
          t.buf = s.buf.writeBytes s.base.toNat bs ∧
          BitVec.ofNat 64 bs.length = if s.a.toNat < s.params.prevlenBig then 1 else 5)

/-- Rule R71, PLD: the operand check comes before the read. -/
def Obligations.PldReportsSizeDifference : Prop :=
  decode 0x04 = .ok .pld ∧ ∀ s : State, s.halt = false →
    (2 ^ 32 ≤ s.a.toNat → exec .pld s = .next (s.takeFault (.operandRange s.a))) ∧
    (s.a.toNat < 2 ^ 32 → s.params.bufLen < s.base.toNat + 1 →
      exec .pld s = .next (s.takeFault (.bufferBounds s.base.toNat 1))) ∧
    (s.a.toNat < 2 ^ 32 → s.base.toNat + 1 ≤ s.params.bufLen →
      exec .pld s = .next
        { s with
          out0 := some
            (if s.a.toNat < s.params.prevlenBig then
              (if (s.buf.read s.base.toNat).toNat < s.params.prevlenBig then 0 else -4)
            else (if (s.buf.read s.base.toNat).toNat < s.params.prevlenBig then 4 else 0))
          ok := some true })

/-- Rules R55, R68, R69 and the source's previous-length round trip: DPL and DPLS read back what SPL.W stored, and SPL.D
said how many bytes it takes. -/
def Obligations.PreviousLengthRoundTrip : Prop :=
  ∀ s : State, s.halt = false → s.params.legal = true → s.buf.wf = true → s.a.toNat < 2 ^ 32 →
    s.base.toNat + prevlenSize s.params s.a.toNat ≤ s.params.bufLen →
    ∃ t u v d, exec .splW s = .next t ∧ exec .dpl t = .next u ∧ exec .dpls u = .next v ∧ exec .splD s = .next d ∧
      t.out0 = d.out0 ∧ u.out0 = d.out0 ∧ v.out0 = d.out0 ∧ u.out1 = some s.a ∧ u.ok = some true ∧ v.buf = t.buf

/-! ## The header codec (41_header.md) -/

/-- Rule R72, EENC. -/
def Obligations.EencReportsTag : Prop :=
  decode 0x05 = .ok .eenc ∧ ∀ s : State, s.halt = false →
    (s.base.toNat + 1 ≤ s.params.bufLen →
      exec .eenc s = .next
        { s with
          renc := some (if (s.buf.read s.base.toNat).extractLsb' 6 2 ≠ 3 then
            s.buf.read s.base.toNat &&& s.params.tagStrMask else s.buf.read s.base.toNat)
          ok := some true }) ∧
    (s.params.bufLen < s.base.toNat + 1 → exec .eenc s = .next (s.takeFault (.bufferBounds s.base.toNat 1)))

/-- Rule R73, DLEN: the class from ENC, a string's length bits from the buffer; the 14-bit length in the layout
`STR14_LAYOUT = BE` of rule R35. -/
def Obligations.DlenDecodesByEncClass : Prop :=
  decode 0x06 = .ok .dlen ∧ ∀ s : State, s.halt = false →
    let b := fun k => s.buf.read (s.base.toNat + k)
    let done := fun (hs cl : Word64) => Host.Outcome.next (φ := Fault) (ρ := Refusal)
      { s with out0 := some hs, out1 := some cl, ok := some (hs != 0) }
    let needs := fun n (o : Host.Outcome State Fault Refusal) =>
      (s.base.toNat + n ≤ s.params.bufLen → exec .dlen s = o) ∧
      (s.params.bufLen < s.base.toNat + n → exec .dlen s = .next (s.takeFault (.bufferBounds s.base.toNat n)))
    (classifyTag s.params s.enc = .str6 → needs 1 (done 1 (((b 0).extractLsb' 0 6).setWidth 64))) ∧
    (classifyTag s.params s.enc = .str14 → s.params.str14Layout = .be →
      needs 2 (done 2 (((b 0).extractLsb' 0 6 ++ b 1 : BitVec 14).setWidth 64))) ∧
    (classifyTag s.params s.enc = .str32 →
      needs 5 (done 5 ((b 4 ++ b 3 ++ b 2 ++ b 1 : BitVec 32).setWidth 64))) ∧
    (classifyTag s.params s.enc = .int8 → exec .dlen s = done 1 1) ∧
    (classifyTag s.params s.enc = .int16 → exec .dlen s = done 1 2) ∧
    (classifyTag s.params s.enc = .int24 → exec .dlen s = done 1 3) ∧
    (classifyTag s.params s.enc = .int32 → exec .dlen s = done 1 4) ∧
    (classifyTag s.params s.enc = .int64 → exec .dlen s = done 1 8) ∧
    (∀ v, classifyTag s.params s.enc = .imm v → exec .dlen s = done 1 0) ∧
    (classifyTag s.params s.enc = .invalid → exec .dlen s = done 0 0)

/-- Rule R74, ELS: a lookup on ENC alone, without a fault; it agrees with DLEN's OUT0 and OK wherever DLEN completes. -/
def Obligations.ElsReportsHeaderSize : Prop :=
  decode 0x07 = .ok .els ∧ ∀ s : State, s.halt = false →
    (classifyTag s.params s.enc = .invalid →
      exec .els s = .next { s with out0 := some 0, ok := some false }) ∧
    (classifyTag s.params s.enc ≠ .invalid →
      exec .els s = .next
        { s with
          out0 := some (if classifyTag s.params s.enc = .str14 then 2
            else if classifyTag s.params s.enc = .str32 then 5 else 1)
          ok := some true }) ∧
    ∀ t u, exec .els s = .next t → exec .dlen s = .next u → u.halt = false → t.out0 = u.out0 ∧ t.ok = u.ok

/-- Rule R75, SEE.W: for a string tag the header rule R63 gives A, for an integer tag ENC verbatim and A unread. -/
def Obligations.SeeWStoresHeader : Prop :=
  decode 0x08 = .ok .seeW ∧ ∀ s : State, s.halt = false →
    let stores := fun bs : List Byte =>
      (s.base.toNat + bs.length ≤ s.params.bufLen →
        exec .seeW s = .next
          { s with
            buf := s.buf.writeBytes s.base.toNat bs, out0 := some (BitVec.ofNat 64 bs.length), ok := some true }) ∧
      (s.params.bufLen < s.base.toNat + bs.length →
        exec .seeW s = .next (s.takeFault (.bufferBounds s.base.toNat bs.length)))
    (s.enc.extractLsb' 6 2 ≠ 3 → 2 ^ 32 ≤ s.a.toNat → exec .seeW s = .next (s.takeFault (.operandRange s.a))) ∧
    (s.enc.extractLsb' 6 2 ≠ 3 → s.a.toNat ≤ 63 → stores [s.params.tagStr06 ||| s.a.setWidth 8]) ∧
    (s.enc.extractLsb' 6 2 ≠ 3 → 63 < s.a.toNat → s.a.toNat ≤ 16383 → s.params.str14Layout = .be →
      stores [s.params.tagStr14 ||| (s.a.extractLsb' 8 6).setWidth 8, s.a.extractLsb' 0 8]) ∧
    (s.enc.extractLsb' 6 2 ≠ 3 → 16383 < s.a.toNat → s.a.toNat < 2 ^ 32 →
      stores [s.params.tagStr32, s.a.extractLsb' 0 8, s.a.extractLsb' 8 8, s.a.extractLsb' 16 8,
        s.a.extractLsb' 24 8]) ∧
    (s.enc.extractLsb' 6 2 = 3 → stores [s.enc])

/-- Rule R76, SEE.D: the size SEE.W would write, with no buffer access. -/
def Obligations.SeeDReportsSizeOnly : Prop :=
  decode 0x88 = .ok .seeD ∧ ∀ s : State, s.halt = false →
    (s.enc.extractLsb' 6 2 ≠ 3 → 2 ^ 32 ≤ s.a.toNat → exec .seeD s = .next (s.takeFault (.operandRange s.a))) ∧
    (s.enc.extractLsb' 6 2 ≠ 3 → s.a.toNat < 2 ^ 32 →
      exec .seeD s = .next
        { s with
          out0 := some (if s.a.toNat ≤ 63 then 1 else if s.a.toNat ≤ 16383 then 2 else 5), ok := some true }) ∧
    (s.enc.extractLsb' 6 2 = 3 → exec .seeD s = .next { s with out0 := some 1, ok := some true })

/-- Rules R75, R76 (the source's dry-run equivalence): wherever SEE.W completes, SEE.D reports the number of bytes it
wrote. -/
def Obligations.SeeDryRunEquivalence : Prop :=
  ∀ s t : State, s.halt = false → exec .seeW s = .next t → t.halt = false →
    ∃ (u : State) (bs : List Byte), exec .seeD s = .next u ∧ u.halt = false ∧ u.out0 = t.out0 ∧
      t.out0 = some (BitVec.ofNat 64 bs.length) ∧ 0 < bs.length ∧ bs.length ≤ 5 ∧
      t.buf = s.buf.writeBytes s.base.toNat bs

/-- Rule R77, ISSTR. -/
def Obligations.IsstrReportsStringClass : Prop :=
  decode 0x09 = .ok .isstr ∧ ∀ s : State, s.halt = false →
    exec .isstr s = .next { s with out0 := some (if s.enc.toNat ≤ 0xBF then 1 else 0), ok := some true }

/-- Rule R59 with the values of rule R56: every tag's class, and the Invalid tags it lists. -/
def Obligations.TagClassesOfTheListedValues : Prop :=
  ∀ (n : Nat) (t : Byte),
    let k := classifyTag (Params.listed n) t
    (k = .str6 ↔ t = 0x00) ∧ (k = .str14 ↔ t = 0x40) ∧ (k = .str32 ↔ t = 0x80) ∧ (k = .int8 ↔ t = 0xFE) ∧
    (k = .int16 ↔ t = 0xC0) ∧ (k = .int24 ↔ t = 0xF0) ∧ (k = .int32 ↔ t = 0xD0) ∧ (k = .int64 ↔ t = 0xE0) ∧
    (∀ v, k = .imm v ↔ v ≤ 12 ∧ t.toNat = 0xF1 + v) ∧
    (k = .invalid ↔ (0x01 ≤ t.toNat ∧ t.toNat ≤ 0x3F) ∨ (0x41 ≤ t.toNat ∧ t.toNat ≤ 0x7F) ∨
      (0x81 ≤ t.toNat ∧ t.toNat ≤ 0xBF) ∨ (0xC1 ≤ t.toNat ∧ t.toNat ≤ 0xCF) ∨
      (0xD1 ≤ t.toNat ∧ t.toNat ≤ 0xDF) ∨ (0xE1 ≤ t.toNat ∧ t.toNat ≤ 0xEF) ∨ t = 0xFF)

/-- Rule R60's law, with the values of rule R56: classifying the tag of a header byte classifies the byte. -/
def Obligations.TagOfAByteKeepsItsClass : Prop :=
  ∀ (n : Nat) (b : Byte),
    classifyTag (Params.listed n) (entryEncodingOf (Params.listed n) b) = classifyByte (Params.listed n) b

/-- Rules R63, R72, R73, R75 (the source's header round trip), with the string tags of rule R56: the header SEE.W writes
for a length is read back by EENC and then DLEN with ENC = RENC as that length, with the size SEE.W reported. -/
def Obligations.StringHeaderRoundTrip : Prop :=
  ∀ s : State, s.halt = false → s.params.legal = true → s.buf.wf = true →
    s.params.tagStr06 = 0x00 → s.params.tagStr14 = 0x40 → s.params.tagStr32 = 0x80 → s.params.tagStrMask = 0xC0 →
    s.enc.extractLsb' 6 2 ≠ 3 → s.a.toNat < 2 ^ 32 →
    s.base.toNat + strHeaderSize s.a.toNat ≤ s.params.bufLen →
    ∃ t u w tag, exec .seeW s = .next t ∧ exec .eenc t = .next u ∧ u.renc = some tag ∧
      exec .dlen { u with enc := tag } = .next w ∧ w.out0 = t.out0 ∧ w.out1 = some s.a ∧ w.ok = some true ∧
      w.buf = t.buf

/-- Rules R15, R16, R66, with the values of rule R56: DPL at an entry's first byte, EENC at its header and DLEN with that
tag give the fields of the entry the buffer holds there. -/
def Obligations.CommandsReadTheEntryRecord : Prop :=
  ∀ (s : State) (e : Entry) (hdr : Addr) (n : Nat), s.halt = false → s.params = Params.listed n →
    entryAt s.params s.buf s.base.toNat = some e →
    hdr.toNat = s.base.toNat + e.prevLenSize → hdr.toNat + e.lenSize ≤ n →
    ∃ t u w, exec .dpl s = .next t ∧ t.out0 = some (BitVec.ofNat 64 e.prevLenSize) ∧
      t.out1 = some (BitVec.ofNat 64 e.prevLen) ∧
      exec .eenc { s with base := hdr } = .next u ∧ u.renc = some e.encoding ∧
      exec .dlen { s with base := hdr, enc := e.encoding } = .next w ∧
      w.out0 = some (BitVec.ofNat 64 e.lenSize) ∧ w.out1 = some (BitVec.ofNat 64 e.contentLen) ∧ w.ok = some true

/-! ## Integer conversion (42_intconv.md) -/

/-- Rule R79, S2N: a parse failure is a completion with OK = 0, not a fault, and ERR is the number rule R92 gives its
kind; BufferBounds only when the string is read. -/
def Obligations.S2nParsesTheString : Prop :=
  decode 0x0A = .ok .s2n ∧ ∀ s : State, s.halt = false →
    let n := s.slen.toNat
    let failed := fun c : BitVec 4 => Host.Outcome.next (φ := Fault) (ρ := Refusal)
      { s with out0 := some 0, err := some c, ok := some false }
    (n = 0 ∨ s.params.strMaxLen ≤ n → exec .s2n s = failed 1) ∧
    (0 < n → n < s.params.strMaxLen → s.params.bufLen < s.base.toNat + n →
      exec .s2n s = .next (s.takeFault (.bufferBounds s.base.toNat n))) ∧
    (0 < n → n < s.params.strMaxLen → s.base.toNat + n ≤ s.params.bufLen →
      (∀ v, parseString (s.buf.readBytes s.base.toNat n) = .ok v →
        exec .s2n s = .next { s with out0 := some (BitVec.ofInt 64 v), err := some 0, ok := some true }) ∧
      ∀ e ∈ [(ErrKind.invalidString, 1#4), (.invalidFirstDigit, 2), (.invalidChar, 3), (.overFlowMul, 4),
          (.overFlowAdd, 5), (.overFlowNegative, 6), (.overFlowPositive, 7)],
        parseString (s.buf.readBytes s.base.toNat n) = .error e.1 → exec .s2n s = failed e.2)

/-- Rules R78, R82, R92: what the parser answers on a string of 1 to 20 bytes other than "0", in terms of its sign, its digits and
their decimal value; the overflow kinds arise only at the 20th digit, where the value of the first 19 decides between
multiplication and addition. -/
def Obligations.ParserErrorKindsOfShortStrings : Prop :=
  ∀ bs : List Byte, 0 < bs.length → bs.length ≤ 20 → bs ≠ [0x30] →
    let neg := bs.head? = some 0x2D
    let body := if bs.head? = some 0x2D then bs.tail else bs
    let goodFirst := ∃ c, body.head? = some c ∧ 0x31 ≤ c.toNat ∧ c.toNat ≤ 0x39
    let goodRest := ∀ c ∈ body, 0x30 ≤ c.toNat ∧ c.toNat ≤ 0x39
    let value : Nat := body.foldl (fun v c => v * 10 + (c.toNat - 0x30)) 0
    (¬ goodFirst → parseString bs = .error .invalidFirstDigit) ∧
    (goodFirst → ¬ goodRest → parseString bs = .error .invalidChar) ∧
    (goodFirst → goodRest → 2 ^ 64 ≤ value → (2 ^ 64 - 1) / 10 < value / 10 →
      parseString bs = .error .overFlowMul) ∧
    (goodFirst → goodRest → 2 ^ 64 ≤ value → value / 10 ≤ (2 ^ 64 - 1) / 10 →
      parseString bs = .error .overFlowAdd) ∧
    (goodFirst → goodRest → value < 2 ^ 64 → neg → 2 ^ 63 < value → parseString bs = .error .overFlowNegative) ∧
    (goodFirst → goodRest → value < 2 ^ 64 → neg → value ≤ 2 ^ 63 → parseString bs = .ok (-(value : Int))) ∧
    (goodFirst → goodRest → value < 2 ^ 64 → ¬ neg → 2 ^ 63 ≤ value → parseString bs = .error .overFlowPositive) ∧
    (goodFirst → goodRest → value < 2 ^ 63 → ¬ neg → parseString bs = .ok (value : Int))

/-- Rule R80: S2N succeeds on the canonical decimal spelling of every v in i64, with that value. -/
def Obligations.S2nAcceptsCanonicalDecimals : Prop :=
  ∀ (s : State) (v : Int), s.halt = false → s.params.legal = true → -(2 ^ 63) ≤ v → v ≤ 2 ^ 63 - 1 →
    s.slen.toNat = (canonicalDecimal v).length → s.base.toNat + s.slen.toNat ≤ s.params.bufLen →
    s.buf.readBytes s.base.toNat s.slen.toNat = canonicalDecimal v →
    exec .s2n s = .next { s with out0 := some (BitVec.ofInt 64 v), err := some 0, ok := some true }

/-- Rule R80: S2N succeeds on nothing but the canonical decimal spelling of the value it answers, whatever the ceiling
STR_MAX_LEN. -/
def Obligations.S2nAcceptsOnlyCanonicalDecimals : Prop :=
  ∀ (s t : State), s.halt = false → exec .s2n s = .next t → t.halt = false → t.ok = some true →
    ∃ v : Int, -(2 ^ 63) ≤ v ∧ v ≤ 2 ^ 63 - 1 ∧ t.out0 = some (BitVec.ofInt 64 v) ∧ t.err = some 0 ∧
      s.buf.readBytes s.base.toNat s.slen.toNat = canonicalDecimal v

/-- Rule R83, TRYE: ERR is not written. -/
def Obligations.TryeChoosesIntegerStorage : Prop :=
  decode 0x0B = .ok .trye ∧ ∀ s : State, s.halt = false →
    let n := s.slen.toNat
    let absent := Host.Outcome.next (φ := Fault) (ρ := Refusal)
      { s with out0 := some 0, renc := some 0, ok := some false }
    (n = 0 ∨ s.params.tryEncMaxLen ≤ n ∨ s.params.strMaxLen ≤ n → exec .trye s = absent) ∧
    (0 < n → n < s.params.tryEncMaxLen → n < s.params.strMaxLen → s.params.bufLen < s.base.toNat + n →
      exec .trye s = .next (s.takeFault (.bufferBounds s.base.toNat n))) ∧
    (0 < n → n < s.params.tryEncMaxLen → n < s.params.strMaxLen → s.base.toNat + n ≤ s.params.bufLen →
      (∀ v, parseString (s.buf.readBytes s.base.toNat n) = .ok v →
        exec .trye s = .next
          { s with
            out0 := some (BitVec.ofInt 64 v), renc := some (selectEncoding s.params v), ok := some true }) ∧
      (∀ k, parseString (s.buf.readBytes s.base.toNat n) = .error k → exec .trye s = absent))

/-- Rule R82: under the constraints the two ceilings never change TRYE's result on a string inside the window. -/
def Obligations.CeilingsDoNotChangeTrye : Prop :=
  ∀ (s : State) (strMax tryMax : Nat), s.halt = false → s.params.legal = true → 21 ≤ strMax → 21 ≤ tryMax →
    s.base.toNat + s.slen.toNat ≤ s.params.bufLen →
    ∃ t u, exec .trye s = .next t ∧
      exec .trye { s with params := { s.params with strMaxLen := strMax, tryEncMaxLen := tryMax } } = .next u ∧
      t.out0 = u.out0 ∧ t.renc = u.renc ∧ t.ok = u.ok ∧ t.halt = u.halt

/-- Rule R81: values 0 to IMM_ENC_MAX are immediate, every other value gets the smallest width that holds it. -/
def Obligations.SelectEncodingTakesTheSmallestWidth : Prop :=
  ∀ (p : Params) (v : Int), p.legal = true → -(2 ^ 63) ≤ v → v ≤ 2 ^ 63 - 1 →
    (0 ≤ v ∧ v ≤ p.immEncMax → classifyTag p (selectEncoding p v) = .imm v.toNat) ∧
    (¬ (0 ≤ v ∧ v ≤ p.immEncMax) →
      ∃ n, payloadWidth (classifyTag p (selectEncoding p v)) = some n ∧ 0 < n ∧
        -(2 ^ (8 * n - 1)) ≤ v ∧ v ≤ 2 ^ (8 * n - 1) - 1 ∧
        ∀ m ∈ [1, 2, 3, 4], m < n → ¬ (-(2 ^ (8 * m - 1)) ≤ v ∧ v ≤ 2 ^ (8 * m - 1) - 1))

/-- Rule R84, ISZ. -/
def Obligations.IszReportsPayloadWidth : Prop :=
  decode 0x0C = .ok .isz ∧ ∀ s : State, s.halt = false →
    let done := fun n : Word64 => Host.Outcome.next (φ := Fault) (ρ := Refusal)
      { s with out0 := some n, ok := some true }
    (classifyTag s.params s.enc = .int8 → exec .isz s = done 1) ∧
    (classifyTag s.params s.enc = .int16 → exec .isz s = done 2) ∧
    (classifyTag s.params s.enc = .int24 → exec .isz s = done 3) ∧
    (classifyTag s.params s.enc = .int32 → exec .isz s = done 4) ∧
    (classifyTag s.params s.enc = .int64 → exec .isz s = done 8) ∧
    (∀ v, classifyTag s.params s.enc = .imm v → exec .isz s = done 0) ∧
    (classifyTag s.params s.enc ∈ [.str6, .str14, .str32, .invalid] →
      exec .isz s = .next (s.takeFault (.invalidIntegerEncoding s.enc)))

/-! ## The payload codec (43_payload.md) -/

/-- Rule R86, SAVI: the tag check, then with SAVI_RANGE = fault the range check, then the write of the low n bytes of A,
little-endian. -/
def Obligations.SaviStoresPayload : Prop :=
  decode 0x0D = .ok .savi ∧ ∀ s : State, s.halt = false →
    (payloadWidth (classifyTag s.params s.enc) = none →
      exec .savi s = .next (s.takeFault (.invalidIntegerEncoding s.enc))) ∧
    ∀ n, payloadWidth (classifyTag s.params s.enc) = some n →
      let outOfRange := s.params.saviRange = .fault ∧ 0 < n ∧
        ¬ (-(2 ^ (8 * n - 1)) ≤ s.a.toInt ∧ s.a.toInt ≤ 2 ^ (8 * n - 1) - 1)
      (outOfRange → exec .savi s = .next (s.takeFault (.operandRange s.a))) ∧
      (¬ outOfRange → 0 < n → s.params.bufLen < s.base.toNat + n →
        exec .savi s = .next (s.takeFault (.bufferBounds s.base.toNat n))) ∧
      (¬ outOfRange → n = 0 ∨ s.base.toNat + n ≤ s.params.bufLen →
        exec .savi s = .next
          { s with
            buf := s.buf.writeBytes s.base.toNat ((List.range n).map fun k => s.a.extractLsb' (8 * k) 8)
            out0 := some (BitVec.ofNat 64 n), ok := some true })

/-- Rule R87, LDI: the sign-extended payload of the tag's width, or the value an immediate tag carries. -/
def Obligations.LdiLoadsPayload : Prop :=
  decode 0x0E = .ok .ldi ∧ ∀ s : State, s.halt = false →
    let b := fun k => s.buf.read (s.base.toNat + k)
    let loads := fun (n : Nat) (v : Word64) =>
      (s.base.toNat + n ≤ s.params.bufLen → exec .ldi s = .next { s with out0 := some v, ok := some true }) ∧
      (s.params.bufLen < s.base.toNat + n → exec .ldi s = .next (s.takeFault (.bufferBounds s.base.toNat n)))
    (classifyTag s.params s.enc = .int8 → loads 1 ((b 0).signExtend 64)) ∧
    (classifyTag s.params s.enc = .int16 → loads 2 ((b 1 ++ b 0 : BitVec 16).signExtend 64)) ∧
    (classifyTag s.params s.enc = .int24 → loads 3 ((b 2 ++ b 1 ++ b 0 : BitVec 24).signExtend 64)) ∧
    (classifyTag s.params s.enc = .int32 → loads 4 ((b 3 ++ b 2 ++ b 1 ++ b 0 : BitVec 32).signExtend 64)) ∧
    (classifyTag s.params s.enc = .int64 →
      loads 8 (b 7 ++ b 6 ++ b 5 ++ b 4 ++ b 3 ++ b 2 ++ b 1 ++ b 0 : BitVec 64)) ∧
    (∀ k, classifyTag s.params s.enc = .imm k →
      exec .ldi s = .next { s with out0 := some (BitVec.ofNat 64 k), ok := some true }) ∧
    (classifyTag s.params s.enc ∈ [.str6, .str14, .str32, .invalid] →
      exec .ldi s = .next (s.takeFault (.invalidIntegerEncoding s.enc)))

/-- Rules R81, R85, R86, R87 (the source's integer round trip): for every v in i64 with t = select_encoding(v), SAVI then
LDI gives v back, for every legal configuration. -/
def Obligations.IntegerPayloadRoundTrip : Prop :=
  ∀ s : State, s.halt = false → s.params.legal = true → s.buf.wf = true →
    s.enc = selectEncoding s.params s.a.toInt →
    s.base.toNat + (payloadWidth (classifyTag s.params s.enc)).getD 0 ≤ s.params.bufLen →
    ∃ t u, exec .savi s = .next t ∧ exec .ldi t = .next u ∧ u.out0 = some s.a ∧ u.ok = some true ∧ u.buf = t.buf

/-! ## The counter field (44_counter.md) -/

/-- Rule R88, INCL: bounds, saturation, underflow, sum, and COUNTER_OVERFLOW. -/
def Obligations.InclAddsToTheCounter : Prop :=
  decode 0x0F = .ok .incl ∧ ∀ s : State, s.halt = false →
    let addr := s.base.toNat + s.params.counterOffset
    let cur := (s.buf.read (addr + 1) ++ s.buf.read addr : BitVec 16).toNat
    let stores := fun new : Nat =>
      exec .incl s = .next
        { s with
          buf := s.buf.writeBytes addr [BitVec.ofNat 8 new, BitVec.ofNat 8 (new / 256)]
          out0 := some (BitVec.ofNat 64 new), ok := some true }
    (s.params.bufLen < addr + 2 → exec .incl s = .next (s.takeFault (.bufferBounds addr 2))) ∧
    (addr + 2 ≤ s.params.bufLen →
      (cur = 65535 → exec .incl s = .next { s with out0 := some 65535, ok := some true }) ∧
      (cur ≠ 65535 → (cur : Int) + s.a.toInt < 0 →
        exec .incl s = .next
          { s with fcode := 5, halt := true, lastRaise := some (.counterUnderflow cur s.a.toInt) }) ∧
      (cur ≠ 65535 → 0 ≤ (cur : Int) + s.a.toInt → (cur : Int) + s.a.toInt ≤ 65535 →
        stores ((cur : Int) + s.a.toInt).toNat) ∧
      (cur ≠ 65535 → 65535 < (cur : Int) + s.a.toInt → s.params.counterOverflow = .clamp → stores 65535) ∧
      (cur ≠ 65535 → 65535 < (cur : Int) + s.a.toInt → s.params.counterOverflow = .wrap →
        stores (((cur : Int) + s.a.toInt).toNat % 2 ^ 16)))

/-- Rule R88 read back from the buffer: with COUNTER_OVERFLOW = clamp and a delta of at least 0, the count in the buffer
becomes the sum, never past the maximum, and a count at the maximum stays there under any delta.  Rules R89, R115: a
count at the maximum states no number of elements, and the true count is held nowhere: two machines that differ in the
count before and in delta alone, and both saturate, are equal afterwards but for the port A itself. -/
def Obligations.CounterSaturates : Prop :=
  (∀ s t : State, s.halt = false → s.buf.wf = true → s.params.counterOverflow = .clamp →
    exec .incl s = .next t → t.halt = false →
    let cur := leNat (s.buf.readBytes s.counterAddr 2)
    let new := leNat (t.buf.readBytes s.counterAddr 2)
    t.out0 = some (BitVec.ofNat 64 new) ∧
    (cur = 65535 → new = 65535) ∧ (0 ≤ s.a.toInt → (new : Int) = min 65535 ((cur : Int) + s.a.toInt)) ∧
    t.statedCount = if new = 65535 then none else some new) ∧
  ∀ (s : State) (m : Memory) (v : Word64), s.halt = false → s.buf.wf = true → m.wf = true →
    s.params.counterOverflow = .clamp → s.counterAddr + 2 ≤ s.params.bufLen →
    (∀ x, inRange (s.counterAddr, 2) x = false → m.read x = s.buf.read x) →
    let s' := { s with buf := m, a := v }
    let saturates := fun u : State => u.statedCount = none ∨ 65535 ≤ (u.storedCount : Int) + u.a.toInt
    saturates s → saturates s' →
    ∃ t, exec .incl s = .next t ∧ t.halt = false ∧ t.statedCount = none ∧ exec .incl s' = .next { t with a := v }

/-! ## Frames: what a command leaves unchanged -/

/-- Rules R32, R97: a command that completes writes exactly the result ports of its row, and one that faults writes
none. -/
def Obligations.ResultPortsWrittenByEachCommand : Prop :=
  ∀ (i : Instr) (s t : State) (p : ResultPort), s.halt = false → exec i s = .next t →
    (writesPort i p = false ∨ t.halt = true → t.resultPort p = s.resultPort p) ∧
    (writesPort i p = true → t.halt = false → t.resultPort p ≠ none)

/-- Rules R18, R39: the commands that store nothing leave every byte of the buffer. -/
def Obligations.NonStoringCommandsKeepTheBuffer : Prop :=
  ∀ i ∈ [Instr.dpls, .dpl, .splD, .pld, .eenc, .dlen, .els, .seeD, .isstr, .s2n, .trye, .isz, .ldi],
    ∀ s t : State, exec i s = .next t → ∀ x, t.buf.read x = s.buf.read x

/-- Rules R18, R39: the bytes a storing command leaves unchanged, each command with the address and the number of bytes
it stores; a faulting command leaves every byte. -/
def Obligations.StoringCommandsKeepOtherBytes : Prop :=
  ∀ s : State, s.halt = false → s.buf.wf = true →
    (∀ t, exec .splW s = .next t → ∀ x, x < s.baseAddr ∨ s.baseAddr + prevlenSize s.params s.uA ≤ x →
      t.buf.read x = s.buf.read x) ∧
    (∀ t, exec .seeW s = .next t →
      ∀ x, x < s.baseAddr ∨ s.baseAddr + (if isStringTag s.enc then strHeaderSize s.uA else 1) ≤ x →
        t.buf.read x = s.buf.read x) ∧
    (∀ t, exec .savi s = .next t →
      ∀ x, x < s.baseAddr ∨ s.baseAddr + (payloadWidth (classifyTag s.params s.enc)).getD 0 ≤ x →
        t.buf.read x = s.buf.read x) ∧
    (∀ t, exec .incl s = .next t → ∀ x, x < s.counterAddr ∨ s.counterAddr + 2 ≤ x → t.buf.read x = s.buf.read x) ∧
    (∀ i t, exec i s = .next t → t.halt = true → t.buf = s.buf)

/-- Rule R22: a command changes no input port; nor does it change the configuration or what is the host's. -/
def Obligations.CommandsKeepInputPorts : Prop :=
  ∀ (i : Instr) (s t : State), exec i s = .next t →
    t.cmd = s.cmd ∧ t.base = s.base ∧ t.a = s.a ∧ t.enc = s.enc ∧ t.slen = s.slen ∧ t.params = s.params ∧
    t.hostRead = s.hostRead ∧ t.freeCount = s.freeCount ∧ t.host = s.host

/-- Rules R22, R31, R106: over a step, an input port changes only when the host writes that port or asserts reset, and
the configuration (rule R20) never changes. -/
def Obligations.InputPortsChangeOnlyByHost : Prop :=
  ∀ s t : State, step s = .next t →
    t.params = s.params ∧
    (t.base = s.base ∨ (∃ v rest, s.host = .setBase v :: rest ∧ t.base = v) ∨ ∃ rest, s.host = .reset :: rest) ∧
    (t.a = s.a ∨ (∃ v rest, s.host = .setA v :: rest ∧ t.a = v) ∨ ∃ rest, s.host = .reset :: rest) ∧
    (t.enc = s.enc ∨ (∃ v rest, s.host = .setEnc v :: rest ∧ t.enc = v) ∨ ∃ rest, s.host = .reset :: rest) ∧
    (t.slen = s.slen ∨ (∃ v rest, s.host = .setSlen v :: rest ∧ t.slen = v) ∨ ∃ rest, s.host = .reset :: rest) ∧
    (t.cmd = s.cmd ∨ (∃ b rest, s.host = .command b :: rest ∧ t.cmd = b) ∨ ∃ rest, s.host = .reset :: rest)

/-- Rules R18, R70, R76: the dry-run and lookup commands read neither the buffer nor BASE: with any other buffer and any
other BASE they do the same. -/
def Obligations.SizeOnlyCommandsIgnoreTheBuffer : Prop :=
  ∀ i ∈ [Instr.splD, .els, .seeD, .isstr, .isz], ∀ (s : State) (m : Memory) (b : Addr),
    ∃ t, exec i s = .next t ∧ exec i { s with buf := m, base := b } = .next { t with buf := m, base := b }

/-- Rules R18, R39: no command reads a byte outside its row of the access table: two buffers that agree there give the
same ports and the same STATUS and, where the command completes, the same bytes at every place it stores to. -/
def Obligations.ReadsStayInTheAccessTable : Prop :=
  ∀ (i : Instr) (s : State) (m : Memory),
    (∀ x, inRange (readRange i s) x = true → m.read x = s.buf.read x) →
    ∃ t u, exec i s = .next t ∧ exec i { s with buf := m } = .next u ∧ t = { u with buf := t.buf } ∧
      (s.buf.wf = true → m.wf = true → t.halt = false →
        ∀ x, inRange (writeRange i s) x = true → t.buf.read x = u.buf.read x)

/-! ## Outcomes, faults and refusal (60_exceptions.md) -/

/-- Rules R90, R97: a command ends in exactly one of three ways; a fault leaves everything but STATUS (and the
diagnostic record of rule R94) as it was. -/
def Obligations.OperationsEndInOneOfThreeWays : Prop :=
  ∀ (i : Instr) (s : State),
    (s.halt = true ∧ exec i s = .next { s with runRefused := true }) ∨
    (s.halt = false ∧ ∃ t, exec i s = .next t ∧ t.halt = false ∧ t.fcode = s.fcode ∧ t.ok ≠ none ∧
      t.runRefused = s.runRefused) ∨
    (s.halt = false ∧ ∃ f : Raise, exec i s = .next { s with fcode := f.code, halt := true, lastRaise := some f })

/-- Rule R93: the fault codes each command can leave in STATUS, each with the fault it stands for (as `lastRaise` records
it, log entry 10). -/
def Obligations.FaultCodesOfEachCommand : Prop :=
  ∀ (i : Instr) (s t : State), s.halt = false → exec i s = .next t → t.halt = true →
    (t.fcode = 2 ∧ t.lastRaise = some (.operandRange s.a) ∧
      (i ∈ [Instr.splW, .splD, .pld] ∨ (i ∈ [Instr.seeW, .seeD] ∧ s.enc.toNat ≤ 0xBF) ∨
        (i = .savi ∧ s.params.saviRange = .fault))) ∨
    (t.fcode = 3 ∧ t.lastRaise = some (.invalidIntegerEncoding s.enc) ∧ i ∈ [Instr.savi, .ldi, .isz]) ∨
    (t.fcode = 4 ∧ (∃ addr n, t.lastRaise = some (.bufferBounds addr n)) ∧
      i ∈ [Instr.dpls, .dpl, .splW, .pld, .eenc, .dlen, .seeW, .s2n, .trye, .savi, .ldi, .incl]) ∨
    (t.fcode = 5 ∧ (∃ cur delta, t.lastRaise = some (.counterUnderflow cur delta)) ∧ i = .incl)

/-- Rule R99: while halted every command byte, reserved or not, is refused: CMD keeps the byte the host wrote (rule R22),
the run is marked refused (log entry 8), and nothing else changes. -/
def Obligations.HaltedUnitRefusesEveryCommand : Prop :=
  ∀ (s : State) (b : Byte) (rest : List HostAction), s.params.legal = true → s.halt = true →
    s.host = .command b :: rest →
    step s = .next { s with host := rest, cmd := b, runRefused := true }

/-- Rules R98, R99: a state counts as a successful end exactly when the unit is not halted and the run is not marked
refused; a refused run stays refused, whatever the host does, and so is never a successful end.  That reset keeps the
mark is the model's reading of "for good" (log entry 8). -/
def Obligations.RefusedRunIsNeverSuccessful : Prop :=
  (∀ s : State, s.successful = true ↔ s.halt = false ∧ s.runRefused = false) ∧
  ∀ (k : Nat) (s t : State), s.runRefused = true → Host.Core.run Sys2Proof.core k s = .next t →
    t.runRefused = true ∧ t.successful = false

/-- Rules R98, R100: from a halted state, until the host asserts reset, the unit stays halted with the same FCODE (the
first fault since reset) and the same result ports, however many steps are taken. -/
def Obligations.HaltLastsUntilReset : Prop :=
  ∀ (k : Nat) (s t : State), s.halt = true → (∀ act ∈ s.host, act ≠ .reset) →
    Host.Core.run Sys2Proof.core k s = .next t →
    t.halt = true ∧ t.status = s.status ∧ t.out0 = s.out0 ∧ t.out1 = s.out1 ∧ t.renc = s.renc ∧ t.ok = s.ok ∧
    t.err = s.err

/-- Rules R27, R97, R100, R107: STATUS changes over a step only by a fault of a command issued while running, or by
reset. -/
def Obligations.StatusChangesOnlyByFaultOrReset : Prop :=
  ∀ s t : State, step s = .next t → t.status ≠ s.status →
    (∃ rest, s.host = .reset :: rest ∧ t.status = 0) ∨
    (∃ b rest, s.host = .command b :: rest ∧ s.halt = false ∧ t.halt = true ∧ t.buf = s.buf)

/-- Rule R27: STATUS as the host reads it, and a host write to it has no effect. -/
def Obligations.StatusRegisterFields : Prop :=
  (∀ s : State, s.status.getLsbD 0 = s.halt ∧ s.status.extractLsb' 1 3 = 0 ∧ s.status.extractLsb' 4 4 = s.fcode) ∧
  (∀ (s : State) (v : Byte) (rest : List HostAction), s.params.legal = true → s.host = .writeStatus v :: rest →
    step s = .next { s with host := rest }) ∧
  (∀ (s : State) (rest : List HostAction), s.params.legal = true → s.host = .readStatus :: rest →
    step s = .next { s with host := rest, hostRead := some (s.status.setWidth 64) })

/-! ## The host's side (rules R17, R22, R24, R43, R53, R105) -/

/-- Rule R24: a host read of a port that holds no value is a fault of the model, never a zero; a read of a written port
returns its value and changes nothing else.  That this is so of a port the last operation did not write is the model's
choice (log entry 26). -/
def Obligations.ReadOfAnUnwrittenPortFaults : Prop :=
  ∀ (s : State) (p : ResultPort) (rest : List HostAction), s.params.legal = true → s.host = .readPort p :: rest →
    (s.resultPort p = none → step s = .fault (.unwrittenPort p)) ∧
    (∀ v, s.resultPort p = some v → step s = .next { s with host := rest, hostRead := some v })

/-- Rules R17, R22: a host write of an input port latches the value and does nothing else. -/
def Obligations.HostWritesLatchInputPorts : Prop :=
  ∀ (s : State) (rest : List HostAction), s.params.legal = true →
    (∀ v, s.host = .setBase v :: rest → step s = .next { s with host := rest, base := v }) ∧
    (∀ v, s.host = .setA v :: rest → step s = .next { s with host := rest, a := v }) ∧
    (∀ v, s.host = .setEnc v :: rest → step s = .next { s with host := rest, enc := v }) ∧
    (∀ v, s.host = .setSlen v :: rest → step s = .next { s with host := rest, slen := v })

/-- Rules R17, R33, R43: the host writes and reads the bytes of the window, and a later read returns what was written
last.  That an address outside the window is a fault of the model is the model's choice (log entry 11). -/
def Obligations.HostReadsWhatWasWritten : Prop :=
  ∀ (s : State) (addr x : Addr) (bs : List Byte) (rest : List HostAction), s.params.legal = true →
    s.buf.wf = true → s.host = .writeBytes addr bs :: .readByte x :: rest → 0 < bs.length →
    (s.params.bufLen < addr.toNat + bs.length → step s = .fault (.outsideWindow addr.toNat bs.length)) ∧
    (addr.toNat + bs.length ≤ s.params.bufLen →
      ∃ t, step s = .next t ∧ t = { s with host := .readByte x :: rest, buf := t.buf } ∧
        (s.params.bufLen ≤ x.toNat → step t = .fault (.outsideWindow x.toNat 1)) ∧
        (x.toNat < s.params.bufLen →
          step t = .next
            { t with
              host := rest
              hostRead := some ((if addr.toNat ≤ x.toNat ∧ x.toNat < addr.toNat + bs.length then
                bs.getD (x.toNat - addr.toNat) 0 else s.buf.read x.toNat).setWidth 64) }))

/-- The step that would perform an access during an operation, or an overlap of two units on a range one of them writes,
is refused.  Rule R105 gives a host program with one no step.  That the program holds it as a marker action, and that the
actions before the marker still step, is the model's choice (log entry 13). -/
def Obligations.ActionOutsideTheContractIsRefused : Prop :=
  ∀ (s : State) (b : Byte) (rest : List HostAction),
    (s.host = .accessDuringOperation b :: rest ∨ s.host = .overlapOtherUnit b :: rest → ∃ r, step s = .refused r) ∧
    (s.params.legal = true → s.host = .accessDuringOperation b :: rest →
      step s = .refused .accessDuringOperation) ∧
    (s.params.legal = true → s.host = .overlapOtherUnit b :: rest → step s = .refused .overlappingUnits)

/-- Rule R53: a listing line performs its port writes, keeps every port it does not name, and then issues its command. -/
def Obligations.ListingLineIsPortWritesThenCommand : Prop :=
  ∀ (s : State) (l : Line) (rest : List HostAction), s.params.legal = true → l.wellFormed = true →
    Host.Core.run Sys2Proof.core (lineActions l).length { s with host := lineActions l ++ rest } =
      exec l.instr
        { s with
          base := l.base.getD s.base, a := (l.a.map (BitVec.ofInt 64)).getD s.a, enc := l.enc.getD s.enc
          slen := l.slen.getD s.slen, cmd := encode l.instr, host := rest }

/-- Rules R25, R106: with no action of the host the unit waits.  That the model's step then answers the same state is the
model's choice (log entry 7). -/
def Obligations.UnitWaitsForTheHost : Prop :=
  ∀ s : State, s.params.legal = true → s.host = [] → step s = .next s

/-- Decision D37 (and rule R6 for BUF_LEN): a configuration that breaks a constraint is refused, and the constraints are
these.  That the refusal is the step's is the model's choice (log entry 5). -/
def Obligations.IllegalConfigurationIsRefused : Prop :=
  (∀ s : State, s.params.legal = false → step s = .refused .illegalConfiguration) ∧
  ∀ p : Params, p.legal = true ↔
    p.bufLen ≤ 2 ^ 32 ∧ p.prevlenBig ≤ p.prevlenMarker.toNat ∧ 21 ≤ p.strMaxLen ∧ 21 ≤ p.tryEncMaxLen ∧
    p.immEncMax ≤ p.immDecMax ∧
    ([p.tagStr06, p.tagStr14, p.tagStr32, p.tagInt8, p.tagInt16, p.tagInt24, p.tagInt32, p.tagInt64].map BitVec.toNat ++
      (List.range (p.immDecMax + 1)).map (p.immBase.toNat + ·)).Nodup ∧
    (∀ t ∈ [p.tagInt8, p.tagInt16, p.tagInt24, p.tagInt32, p.tagInt64, p.immBase], t.extractLsb' 6 2 = 3) ∧
    p.immBase.toNat + p.immDecMax ≤ 255

/-! ## Reset and invariants (70_reset_and_hazards.md) -/

/-- Rules R31, R106: reset asserted between two operations clears STATUS, makes every result port ⊥ and does not touch
the buffer.  Nothing is said of the input ports: they are unspecified (log entry 3).  The refused mark stays (log entry
8). -/
def Obligations.ResetClearsStatusAndResults : Prop :=
  ∀ (s : State) (rest : List HostAction), s.params.legal = true → s.host = .reset :: rest →
    ∃ t, step s = .next t ∧ t.halt = false ∧ t.fcode = 0 ∧ t.status = 0 ∧ (∀ p, t.resultPort p = none) ∧
      t.buf = s.buf ∧ t.params = s.params ∧ t.host = rest ∧ t.runRefused = s.runRefused

/-- Rule R31: the machine at power-on: STATUS 0 and every result port ⊥.  (The input ports, the buffer and BUF_LEN hold
values the model chose, log entries 1, 2 and 6; nothing is said of them.) -/
def Obligations.PowerOnState : Prop :=
  State.reset.status = 0 ∧ State.reset.halt = false ∧ State.reset.fcode = 0 ∧
  ∀ p, State.reset.resultPort p = none

/-- The invariant of Safety holds at reset, for every window size the spec allows. -/
def Obligations.InvariantHoldsAtReset : Prop :=
  Inv State.reset ∧ ∀ n, n ≤ 2 ^ 32 → Inv { State.reset with params := Params.listed n }

/-- Every step keeps the invariant of Safety: the configuration stays legal, the buffer canonical and inside the window,
STATUS shows a fault exactly while halted (R97, R100), ERR holds no reserved code (R92), every completion writes OK
(R26), and a length on OUT1 fits 32 bits (R68, R73). -/
def Obligations.EveryStepKeepsTheInvariant : Prop :=
  ∀ s t : State, Inv s → step s = .next t → Inv t
end

