-- ==== Sys2Proof/Laws/State.lean ====
section
/-! SUPPORT. What each update of the state does to each field, true by definition, and the STATUS register read as its
fields (rule R27), so that no later proof unfolds a record update. -/

namespace Sys2Proof.Machine

/-! ### State.setOut0 -/
@[simp] theorem State.setOut0_params (s : State) (v : Word64) : (s.setOut0 v).params = s.params := rfl
@[simp] theorem State.setOut0_cmd (s : State) (v : Word64) : (s.setOut0 v).cmd = s.cmd := rfl
@[simp] theorem State.setOut0_base (s : State) (v : Word64) : (s.setOut0 v).base = s.base := rfl
@[simp] theorem State.setOut0_a (s : State) (v : Word64) : (s.setOut0 v).a = s.a := rfl
@[simp] theorem State.setOut0_enc (s : State) (v : Word64) : (s.setOut0 v).enc = s.enc := rfl
@[simp] theorem State.setOut0_slen (s : State) (v : Word64) : (s.setOut0 v).slen = s.slen := rfl
@[simp] theorem State.setOut0_out0 (s : State) (v : Word64) : (s.setOut0 v).out0 = some v := rfl
@[simp] theorem State.setOut0_out1 (s : State) (v : Word64) : (s.setOut0 v).out1 = s.out1 := rfl
@[simp] theorem State.setOut0_renc (s : State) (v : Word64) : (s.setOut0 v).renc = s.renc := rfl
@[simp] theorem State.setOut0_ok (s : State) (v : Word64) : (s.setOut0 v).ok = s.ok := rfl
@[simp] theorem State.setOut0_err (s : State) (v : Word64) : (s.setOut0 v).err = s.err := rfl
@[simp] theorem State.setOut0_halt (s : State) (v : Word64) : (s.setOut0 v).halt = s.halt := rfl
@[simp] theorem State.setOut0_fcode (s : State) (v : Word64) : (s.setOut0 v).fcode = s.fcode := rfl
@[simp] theorem State.setOut0_buf (s : State) (v : Word64) : (s.setOut0 v).buf = s.buf := rfl
@[simp] theorem State.setOut0_lastRaise (s : State) (v : Word64) : (s.setOut0 v).lastRaise = s.lastRaise := rfl
@[simp] theorem State.setOut0_runRefused (s : State) (v : Word64) : (s.setOut0 v).runRefused = s.runRefused := rfl
@[simp] theorem State.setOut0_hostRead (s : State) (v : Word64) : (s.setOut0 v).hostRead = s.hostRead := rfl
@[simp] theorem State.setOut0_freeCount (s : State) (v : Word64) : (s.setOut0 v).freeCount = s.freeCount := rfl
@[simp] theorem State.setOut0_host (s : State) (v : Word64) : (s.setOut0 v).host = s.host := rfl

/-! ### State.setOut1 -/
@[simp] theorem State.setOut1_params (s : State) (v : Word64) : (s.setOut1 v).params = s.params := rfl
@[simp] theorem State.setOut1_cmd (s : State) (v : Word64) : (s.setOut1 v).cmd = s.cmd := rfl
@[simp] theorem State.setOut1_base (s : State) (v : Word64) : (s.setOut1 v).base = s.base := rfl
@[simp] theorem State.setOut1_a (s : State) (v : Word64) : (s.setOut1 v).a = s.a := rfl
@[simp] theorem State.setOut1_enc (s : State) (v : Word64) : (s.setOut1 v).enc = s.enc := rfl
@[simp] theorem State.setOut1_slen (s : State) (v : Word64) : (s.setOut1 v).slen = s.slen := rfl
@[simp] theorem State.setOut1_out0 (s : State) (v : Word64) : (s.setOut1 v).out0 = s.out0 := rfl
@[simp] theorem State.setOut1_out1 (s : State) (v : Word64) : (s.setOut1 v).out1 = some v := rfl
@[simp] theorem State.setOut1_renc (s : State) (v : Word64) : (s.setOut1 v).renc = s.renc := rfl
@[simp] theorem State.setOut1_ok (s : State) (v : Word64) : (s.setOut1 v).ok = s.ok := rfl
@[simp] theorem State.setOut1_err (s : State) (v : Word64) : (s.setOut1 v).err = s.err := rfl
@[simp] theorem State.setOut1_halt (s : State) (v : Word64) : (s.setOut1 v).halt = s.halt := rfl
@[simp] theorem State.setOut1_fcode (s : State) (v : Word64) : (s.setOut1 v).fcode = s.fcode := rfl
@[simp] theorem State.setOut1_buf (s : State) (v : Word64) : (s.setOut1 v).buf = s.buf := rfl
@[simp] theorem State.setOut1_lastRaise (s : State) (v : Word64) : (s.setOut1 v).lastRaise = s.lastRaise := rfl
@[simp] theorem State.setOut1_runRefused (s : State) (v : Word64) : (s.setOut1 v).runRefused = s.runRefused := rfl
@[simp] theorem State.setOut1_hostRead (s : State) (v : Word64) : (s.setOut1 v).hostRead = s.hostRead := rfl
@[simp] theorem State.setOut1_freeCount (s : State) (v : Word64) : (s.setOut1 v).freeCount = s.freeCount := rfl
@[simp] theorem State.setOut1_host (s : State) (v : Word64) : (s.setOut1 v).host = s.host := rfl

/-! ### State.setRenc -/
@[simp] theorem State.setRenc_params (s : State) (t : Byte) : (s.setRenc t).params = s.params := rfl
@[simp] theorem State.setRenc_cmd (s : State) (t : Byte) : (s.setRenc t).cmd = s.cmd := rfl
@[simp] theorem State.setRenc_base (s : State) (t : Byte) : (s.setRenc t).base = s.base := rfl
@[simp] theorem State.setRenc_a (s : State) (t : Byte) : (s.setRenc t).a = s.a := rfl
@[simp] theorem State.setRenc_enc (s : State) (t : Byte) : (s.setRenc t).enc = s.enc := rfl
@[simp] theorem State.setRenc_slen (s : State) (t : Byte) : (s.setRenc t).slen = s.slen := rfl
@[simp] theorem State.setRenc_out0 (s : State) (t : Byte) : (s.setRenc t).out0 = s.out0 := rfl
@[simp] theorem State.setRenc_out1 (s : State) (t : Byte) : (s.setRenc t).out1 = s.out1 := rfl
@[simp] theorem State.setRenc_renc (s : State) (t : Byte) : (s.setRenc t).renc = some t := rfl
@[simp] theorem State.setRenc_ok (s : State) (t : Byte) : (s.setRenc t).ok = s.ok := rfl
@[simp] theorem State.setRenc_err (s : State) (t : Byte) : (s.setRenc t).err = s.err := rfl
@[simp] theorem State.setRenc_halt (s : State) (t : Byte) : (s.setRenc t).halt = s.halt := rfl
@[simp] theorem State.setRenc_fcode (s : State) (t : Byte) : (s.setRenc t).fcode = s.fcode := rfl
@[simp] theorem State.setRenc_buf (s : State) (t : Byte) : (s.setRenc t).buf = s.buf := rfl
@[simp] theorem State.setRenc_lastRaise (s : State) (t : Byte) : (s.setRenc t).lastRaise = s.lastRaise := rfl
@[simp] theorem State.setRenc_runRefused (s : State) (t : Byte) : (s.setRenc t).runRefused = s.runRefused := rfl
@[simp] theorem State.setRenc_hostRead (s : State) (t : Byte) : (s.setRenc t).hostRead = s.hostRead := rfl
@[simp] theorem State.setRenc_freeCount (s : State) (t : Byte) : (s.setRenc t).freeCount = s.freeCount := rfl
@[simp] theorem State.setRenc_host (s : State) (t : Byte) : (s.setRenc t).host = s.host := rfl

/-! ### State.setOk -/
@[simp] theorem State.setOk_params (s : State) (b : Bool) : (s.setOk b).params = s.params := rfl
@[simp] theorem State.setOk_cmd (s : State) (b : Bool) : (s.setOk b).cmd = s.cmd := rfl
@[simp] theorem State.setOk_base (s : State) (b : Bool) : (s.setOk b).base = s.base := rfl
@[simp] theorem State.setOk_a (s : State) (b : Bool) : (s.setOk b).a = s.a := rfl
@[simp] theorem State.setOk_enc (s : State) (b : Bool) : (s.setOk b).enc = s.enc := rfl
@[simp] theorem State.setOk_slen (s : State) (b : Bool) : (s.setOk b).slen = s.slen := rfl
@[simp] theorem State.setOk_out0 (s : State) (b : Bool) : (s.setOk b).out0 = s.out0 := rfl
@[simp] theorem State.setOk_out1 (s : State) (b : Bool) : (s.setOk b).out1 = s.out1 := rfl
@[simp] theorem State.setOk_renc (s : State) (b : Bool) : (s.setOk b).renc = s.renc := rfl
@[simp] theorem State.setOk_ok (s : State) (b : Bool) : (s.setOk b).ok = some b := rfl
@[simp] theorem State.setOk_err (s : State) (b : Bool) : (s.setOk b).err = s.err := rfl
@[simp] theorem State.setOk_halt (s : State) (b : Bool) : (s.setOk b).halt = s.halt := rfl
@[simp] theorem State.setOk_fcode (s : State) (b : Bool) : (s.setOk b).fcode = s.fcode := rfl
@[simp] theorem State.setOk_buf (s : State) (b : Bool) : (s.setOk b).buf = s.buf := rfl
@[simp] theorem State.setOk_lastRaise (s : State) (b : Bool) : (s.setOk b).lastRaise = s.lastRaise := rfl
@[simp] theorem State.setOk_runRefused (s : State) (b : Bool) : (s.setOk b).runRefused = s.runRefused := rfl
@[simp] theorem State.setOk_hostRead (s : State) (b : Bool) : (s.setOk b).hostRead = s.hostRead := rfl
@[simp] theorem State.setOk_freeCount (s : State) (b : Bool) : (s.setOk b).freeCount = s.freeCount := rfl
@[simp] theorem State.setOk_host (s : State) (b : Bool) : (s.setOk b).host = s.host := rfl

/-! ### State.setErr -/
@[simp] theorem State.setErr_params (s : State) (c : BitVec 4) : (s.setErr c).params = s.params := rfl
@[simp] theorem State.setErr_cmd (s : State) (c : BitVec 4) : (s.setErr c).cmd = s.cmd := rfl
@[simp] theorem State.setErr_base (s : State) (c : BitVec 4) : (s.setErr c).base = s.base := rfl
@[simp] theorem State.setErr_a (s : State) (c : BitVec 4) : (s.setErr c).a = s.a := rfl
@[simp] theorem State.setErr_enc (s : State) (c : BitVec 4) : (s.setErr c).enc = s.enc := rfl
@[simp] theorem State.setErr_slen (s : State) (c : BitVec 4) : (s.setErr c).slen = s.slen := rfl
@[simp] theorem State.setErr_out0 (s : State) (c : BitVec 4) : (s.setErr c).out0 = s.out0 := rfl
@[simp] theorem State.setErr_out1 (s : State) (c : BitVec 4) : (s.setErr c).out1 = s.out1 := rfl
@[simp] theorem State.setErr_renc (s : State) (c : BitVec 4) : (s.setErr c).renc = s.renc := rfl
@[simp] theorem State.setErr_ok (s : State) (c : BitVec 4) : (s.setErr c).ok = s.ok := rfl
@[simp] theorem State.setErr_err (s : State) (c : BitVec 4) : (s.setErr c).err = some c := rfl
@[simp] theorem State.setErr_halt (s : State) (c : BitVec 4) : (s.setErr c).halt = s.halt := rfl
@[simp] theorem State.setErr_fcode (s : State) (c : BitVec 4) : (s.setErr c).fcode = s.fcode := rfl
@[simp] theorem State.setErr_buf (s : State) (c : BitVec 4) : (s.setErr c).buf = s.buf := rfl
@[simp] theorem State.setErr_lastRaise (s : State) (c : BitVec 4) : (s.setErr c).lastRaise = s.lastRaise := rfl
@[simp] theorem State.setErr_runRefused (s : State) (c : BitVec 4) : (s.setErr c).runRefused = s.runRefused := rfl
@[simp] theorem State.setErr_hostRead (s : State) (c : BitVec 4) : (s.setErr c).hostRead = s.hostRead := rfl
@[simp] theorem State.setErr_freeCount (s : State) (c : BitVec 4) : (s.setErr c).freeCount = s.freeCount := rfl
@[simp] theorem State.setErr_host (s : State) (c : BitVec 4) : (s.setErr c).host = s.host := rfl

/-! ### State.answer -/
@[simp] theorem State.answer_params (s : State) (v : Word64) : (s.answer v).params = s.params := rfl
@[simp] theorem State.answer_cmd (s : State) (v : Word64) : (s.answer v).cmd = s.cmd := rfl
@[simp] theorem State.answer_base (s : State) (v : Word64) : (s.answer v).base = s.base := rfl
@[simp] theorem State.answer_a (s : State) (v : Word64) : (s.answer v).a = s.a := rfl
@[simp] theorem State.answer_enc (s : State) (v : Word64) : (s.answer v).enc = s.enc := rfl
@[simp] theorem State.answer_slen (s : State) (v : Word64) : (s.answer v).slen = s.slen := rfl
@[simp] theorem State.answer_out0 (s : State) (v : Word64) : (s.answer v).out0 = some v := rfl
@[simp] theorem State.answer_out1 (s : State) (v : Word64) : (s.answer v).out1 = s.out1 := rfl
@[simp] theorem State.answer_renc (s : State) (v : Word64) : (s.answer v).renc = s.renc := rfl
@[simp] theorem State.answer_ok (s : State) (v : Word64) : (s.answer v).ok = some true := rfl
@[simp] theorem State.answer_err (s : State) (v : Word64) : (s.answer v).err = s.err := rfl
@[simp] theorem State.answer_halt (s : State) (v : Word64) : (s.answer v).halt = s.halt := rfl
@[simp] theorem State.answer_fcode (s : State) (v : Word64) : (s.answer v).fcode = s.fcode := rfl
@[simp] theorem State.answer_buf (s : State) (v : Word64) : (s.answer v).buf = s.buf := rfl
@[simp] theorem State.answer_lastRaise (s : State) (v : Word64) : (s.answer v).lastRaise = s.lastRaise := rfl
@[simp] theorem State.answer_runRefused (s : State) (v : Word64) : (s.answer v).runRefused = s.runRefused := rfl
@[simp] theorem State.answer_hostRead (s : State) (v : Word64) : (s.answer v).hostRead = s.hostRead := rfl
@[simp] theorem State.answer_freeCount (s : State) (v : Word64) : (s.answer v).freeCount = s.freeCount := rfl
@[simp] theorem State.answer_host (s : State) (v : Word64) : (s.answer v).host = s.host := rfl

/-! ### State.takeFault -/
@[simp] theorem State.takeFault_params (s : State) (f : Raise) : (s.takeFault f).params = s.params := rfl
@[simp] theorem State.takeFault_cmd (s : State) (f : Raise) : (s.takeFault f).cmd = s.cmd := rfl
@[simp] theorem State.takeFault_base (s : State) (f : Raise) : (s.takeFault f).base = s.base := rfl
@[simp] theorem State.takeFault_a (s : State) (f : Raise) : (s.takeFault f).a = s.a := rfl
@[simp] theorem State.takeFault_enc (s : State) (f : Raise) : (s.takeFault f).enc = s.enc := rfl
@[simp] theorem State.takeFault_slen (s : State) (f : Raise) : (s.takeFault f).slen = s.slen := rfl
@[simp] theorem State.takeFault_out0 (s : State) (f : Raise) : (s.takeFault f).out0 = s.out0 := rfl
@[simp] theorem State.takeFault_out1 (s : State) (f : Raise) : (s.takeFault f).out1 = s.out1 := rfl
@[simp] theorem State.takeFault_renc (s : State) (f : Raise) : (s.takeFault f).renc = s.renc := rfl
@[simp] theorem State.takeFault_ok (s : State) (f : Raise) : (s.takeFault f).ok = s.ok := rfl
@[simp] theorem State.takeFault_err (s : State) (f : Raise) : (s.takeFault f).err = s.err := rfl
@[simp] theorem State.takeFault_halt (s : State) (f : Raise) : (s.takeFault f).halt = true := rfl
@[simp] theorem State.takeFault_fcode (s : State) (f : Raise) : (s.takeFault f).fcode = f.code := rfl
@[simp] theorem State.takeFault_buf (s : State) (f : Raise) : (s.takeFault f).buf = s.buf := rfl
@[simp] theorem State.takeFault_lastRaise (s : State) (f : Raise) : (s.takeFault f).lastRaise = some f := rfl
@[simp] theorem State.takeFault_runRefused (s : State) (f : Raise) : (s.takeFault f).runRefused = s.runRefused := rfl
@[simp] theorem State.takeFault_hostRead (s : State) (f : Raise) : (s.takeFault f).hostRead = s.hostRead := rfl
@[simp] theorem State.takeFault_freeCount (s : State) (f : Raise) : (s.takeFault f).freeCount = s.freeCount := rfl
@[simp] theorem State.takeFault_host (s : State) (f : Raise) : (s.takeFault f).host = s.host := rfl

/-! ### State.refuseCommand -/
@[simp] theorem State.refuseCommand_params (s : State) : (s.refuseCommand).params = s.params := rfl
@[simp] theorem State.refuseCommand_cmd (s : State) : (s.refuseCommand).cmd = s.cmd := rfl
@[simp] theorem State.refuseCommand_base (s : State) : (s.refuseCommand).base = s.base := rfl
@[simp] theorem State.refuseCommand_a (s : State) : (s.refuseCommand).a = s.a := rfl
@[simp] theorem State.refuseCommand_enc (s : State) : (s.refuseCommand).enc = s.enc := rfl
@[simp] theorem State.refuseCommand_slen (s : State) : (s.refuseCommand).slen = s.slen := rfl
@[simp] theorem State.refuseCommand_out0 (s : State) : (s.refuseCommand).out0 = s.out0 := rfl
@[simp] theorem State.refuseCommand_out1 (s : State) : (s.refuseCommand).out1 = s.out1 := rfl
@[simp] theorem State.refuseCommand_renc (s : State) : (s.refuseCommand).renc = s.renc := rfl
@[simp] theorem State.refuseCommand_ok (s : State) : (s.refuseCommand).ok = s.ok := rfl
@[simp] theorem State.refuseCommand_err (s : State) : (s.refuseCommand).err = s.err := rfl
@[simp] theorem State.refuseCommand_halt (s : State) : (s.refuseCommand).halt = s.halt := rfl
@[simp] theorem State.refuseCommand_fcode (s : State) : (s.refuseCommand).fcode = s.fcode := rfl
@[simp] theorem State.refuseCommand_buf (s : State) : (s.refuseCommand).buf = s.buf := rfl
@[simp] theorem State.refuseCommand_lastRaise (s : State) : (s.refuseCommand).lastRaise = s.lastRaise := rfl
@[simp] theorem State.refuseCommand_runRefused (s : State) : (s.refuseCommand).runRefused = true := rfl
@[simp] theorem State.refuseCommand_hostRead (s : State) : (s.refuseCommand).hostRead = s.hostRead := rfl
@[simp] theorem State.refuseCommand_freeCount (s : State) : (s.refuseCommand).freeCount = s.freeCount := rfl
@[simp] theorem State.refuseCommand_host (s : State) : (s.refuseCommand).host = s.host := rfl

/-! ### State.assertReset -/
@[simp] theorem State.assertReset_params (s : State) : (s.assertReset).params = s.params := rfl
@[simp] theorem State.assertReset_cmd (s : State) : (s.assertReset).cmd = Config.freeCmd s.freeCount := rfl
@[simp] theorem State.assertReset_base (s : State) : (s.assertReset).base = Config.freeBase s.freeCount := rfl
@[simp] theorem State.assertReset_a (s : State) : (s.assertReset).a = Config.freeA s.freeCount := rfl
@[simp] theorem State.assertReset_enc (s : State) : (s.assertReset).enc = Config.freeEnc s.freeCount := rfl
@[simp] theorem State.assertReset_slen (s : State) : (s.assertReset).slen = Config.freeSlen s.freeCount := rfl
@[simp] theorem State.assertReset_out0 (s : State) : (s.assertReset).out0 = none := rfl
@[simp] theorem State.assertReset_out1 (s : State) : (s.assertReset).out1 = none := rfl
@[simp] theorem State.assertReset_renc (s : State) : (s.assertReset).renc = none := rfl
@[simp] theorem State.assertReset_ok (s : State) : (s.assertReset).ok = none := rfl
@[simp] theorem State.assertReset_err (s : State) : (s.assertReset).err = none := rfl
@[simp] theorem State.assertReset_halt (s : State) : (s.assertReset).halt = false := rfl
@[simp] theorem State.assertReset_fcode (s : State) : (s.assertReset).fcode = 0 := rfl
@[simp] theorem State.assertReset_buf (s : State) : (s.assertReset).buf = s.buf := rfl
@[simp] theorem State.assertReset_lastRaise (s : State) : (s.assertReset).lastRaise = none := rfl
@[simp] theorem State.assertReset_runRefused (s : State) : (s.assertReset).runRefused = s.runRefused := rfl
@[simp] theorem State.assertReset_hostRead (s : State) : (s.assertReset).hostRead = s.hostRead := rfl
@[simp] theorem State.assertReset_freeCount (s : State) : (s.assertReset).freeCount = s.freeCount + 1 := rfl
@[simp] theorem State.assertReset_host (s : State) : (s.assertReset).host = s.host := rfl

/-! ### STATUS (rule R27) -/

theorem status_byte : ∀ (c : BitVec 4) (b : Bool),
    (c ++ (0 : BitVec 3) ++ BitVec.ofBool b : BitVec 8).toNat = c.toNat * 16 + b.toNat := by decide

/-- STATUS is FCODE in bits 7:4 and HALT in bit 0; bits 3:1 are 0. -/
theorem State.status_toNat (s : State) : s.status.toNat = s.fcode.toNat * 16 + s.halt.toNat :=
  status_byte s.fcode s.halt

end Sys2Proof.Machine
end

