-- ==== Sys2Proof/Laws/Memory.lean ====
section
/-! SUPPORT. The laws of the buffer window: a write keeps the canonical form and the bound, a read after a write, and
equal canonical memories are equal data. -/

namespace Sys2Proof.Machine

/-! ### The canonical form as a recursive property -/

/-- The addresses of a canonical memory behind its first entry are above it. -/
theorem Memory.wf_cons {c : Host.Cell} {m : Memory} :
    Memory.wf (c :: m) = true ↔ c.2 ≠ Memory.unlisted ∧ (∀ d ∈ m, c.1 < d.1) ∧ Memory.wf m = true := by
  induction m generalizing c with
  | nil => simp [Memory.wf]
  | cons d m ih =>
    simp only [Memory.wf, Bool.and_eq_true, bne_iff_ne, ne_eq, decide_eq_true_eq, List.mem_cons,
      forall_eq_or_imp]
    constructor
    · rintro ⟨⟨hc, hlt⟩, hm⟩
      exact ⟨hc, ⟨hlt, fun e he => hlt.trans ((ih.1 hm).2.1 e he)⟩, hm⟩
    · rintro ⟨hc, ⟨hlt, -⟩, hm⟩
      exact ⟨⟨hc, hlt⟩, hm⟩

theorem Memory.wf_nil : Memory.wf ([] : Memory) = true := rfl

/-- An address below every listed one reads as an unlisted address does. -/
theorem Memory.read_of_lt {m : Memory} {x : Nat} (h : ∀ d ∈ m, x < d.1) : m.read x = Memory.unlisted := by
  induction m with
  | nil => rfl
  | cons c m ih =>
    have hc := h c (by simp)
    simp only [Memory.read, if_neg (Nat.ne_of_lt hc)]
    exact ih fun d hd => h d (by simp [hd])

/-- An address at or above the bound of a memory reads as an unlisted address does. -/
theorem Memory.read_of_below {m : Memory} {n x : Nat} (h : m.below n = true) (hx : n ≤ x) :
    m.read x = Memory.unlisted := by
  induction m with
  | nil => rfl
  | cons c m ih =>
    simp only [Memory.below, List.all_cons, Bool.and_eq_true, decide_eq_true_eq] at h
    simp only [Memory.read, if_neg (show ¬ x = c.1 by omega)]
    exact ih (by simpa [Memory.below] using h.2)

/-! ### Writing one byte -/

/-- Every entry of a written memory is the written byte or an entry that was there. -/
theorem Memory.mem_write {m : Memory} {x : Nat} {b : Byte} {d : Host.Cell} (h : d ∈ m.write x b) :
    d = (x, b) ∨ d ∈ m := by
  induction m with
  | nil => unfold Memory.write at h; split at h <;> simp_all
  | cons c m ih =>
    unfold Memory.write at h
    split_ifs at h with h1 h2 h3 h4
    · exact .inr h
    · simpa using h
    · exact .inr (List.mem_cons_of_mem _ h)
    · rcases List.mem_cons.1 h with h | h
      · exact .inl h
      · exact .inr (List.mem_cons_of_mem _ h)
    · rcases List.mem_cons.1 h with h | h
      · exact .inr (by simp [h])
      · exact (ih h).imp id fun h => List.mem_cons_of_mem _ h

theorem Memory.write_below {m : Memory} {n x : Nat} {b : Byte} (h : m.below n = true) (hx : x < n) :
    (m.write x b).below n = true := by
  simp only [Memory.below, List.all_eq_true, decide_eq_true_eq] at *
  intro d hd
  rcases Memory.mem_write hd with rfl | hd
  · exact hx
  · exact h d hd

/-- A write keeps the canonical form. -/
theorem Memory.write_wf {m : Memory} {x : Nat} {b : Byte} (h : m.wf = true) : (m.write x b).wf = true := by
  induction m with
  | nil =>
    unfold Memory.write
    split_ifs with hb
    · rfl
    · simpa [Memory.wf] using hb
  | cons c m ih =>
    obtain ⟨hc, hlt, hm⟩ := Memory.wf_cons.1 h
    unfold Memory.write
    split_ifs with h1 h2 h3 h4
    · exact h
    · refine Memory.wf_cons.2 ⟨h2, fun d hd => ?_, h⟩
      rcases List.mem_cons.1 hd with rfl | hd
      · exact h1
      · exact h1.trans (hlt d hd)
    · exact hm
    · exact Memory.wf_cons.2 ⟨h4, fun d hd => by simpa [h3] using hlt d hd, hm⟩
    · refine Memory.wf_cons.2 ⟨hc, fun d hd => ?_, ih hm⟩
      rcases Memory.mem_write hd with rfl | hd
      · exact lt_of_le_of_ne (not_lt.1 h1) (Ne.symm h3)
      · exact hlt d hd

/-- A read after a write: the byte written, or what stood there before. -/
theorem Memory.read_write {m : Memory} {x : Nat} {b : Byte} (h : m.wf = true) (y : Nat) :
    (m.write x b).read y = if y = x then b else m.read y := by
  induction m with
  | nil =>
    unfold Memory.write
    split_ifs with hb hy <;> simp_all [Memory.read]
  | cons c m ih =>
    obtain ⟨hc, hlt, hm⟩ := Memory.wf_cons.1 h
    unfold Memory.write
    by_cases h1 : x < c.1
    · have hx : Memory.read (c :: m) x = Memory.unlisted := Memory.read_of_lt fun d hd => by
        rcases List.mem_cons.1 hd with rfl | hd
        · exact h1
        · exact h1.trans (hlt d hd)
      by_cases hb : b = Memory.unlisted
      · simp only [if_pos h1, if_pos hb]
        by_cases hy : y = x
        · rw [if_pos hy, hy, hx, hb]
        · rw [if_neg hy]
      · simp only [if_pos h1, if_neg hb]
        rfl
    · by_cases h3 : x = c.1
      · simp only [if_neg h1, if_pos h3]
        by_cases hb : b = Memory.unlisted
        · simp only [if_pos hb, Memory.read]
          by_cases hy : y = x
          · rw [if_pos hy, hy, hb]
            exact Memory.read_of_lt fun d hd => h3 ▸ hlt d hd
          · rw [if_neg hy, if_neg (h3 ▸ hy)]
        · simp only [if_neg hb, Memory.read]
          by_cases hy : y = x
          · rw [if_pos hy, if_pos hy]
          · rw [if_neg hy, if_neg hy, if_neg (h3 ▸ hy)]
      · simp only [if_neg h1, if_neg h3, Memory.read, ih hm]
        by_cases hy : y = c.1
        · rw [if_pos hy, if_pos hy, if_neg (by omega)]
        · rw [if_neg hy, if_neg hy]

/-! ### Reading and writing sequences of bytes -/

theorem Memory.writeBytes_wf {m : Memory} {addr : Nat} {bs : List Byte} (h : m.wf = true) :
    (m.writeBytes addr bs).wf = true := by
  induction bs generalizing m addr with
  | nil => exact h
  | cons b bs ih => exact ih (Memory.write_wf h)

theorem Memory.writeBytes_below {m : Memory} {n addr : Nat} {bs : List Byte} (h : m.below n = true)
    (hn : addr + bs.length ≤ n) : (m.writeBytes addr bs).below n = true := by
  induction bs generalizing m addr with
  | nil => exact h
  | cons b bs ih =>
    simp only [List.length_cons] at hn
    exact ih (Memory.write_below h (by omega)) (by omega)

/-- A read after a write of a sequence: the byte of the sequence inside its range, what stood there outside it. -/
theorem Memory.read_writeBytes {m : Memory} {addr : Nat} {bs : List Byte} (h : m.wf = true) (y : Nat) :
    (m.writeBytes addr bs).read y =
      if addr ≤ y ∧ y < addr + bs.length then bs.getD (y - addr) 0 else m.read y := by
  induction bs generalizing m addr with
  | nil => rw [if_neg (by simp)]; rfl
  | cons b bs ih =>
    rw [Memory.writeBytes, ih (Memory.write_wf h), Memory.read_write h]
    simp only [List.length_cons]
    by_cases hy : y = addr
    · subst hy
      rw [if_neg (by omega), if_pos rfl, if_pos (by omega)]
      simp
    · by_cases hr : addr + 1 ≤ y ∧ y < addr + 1 + bs.length
      · rw [if_pos hr, if_pos (by omega), show y - addr = (y - (addr + 1)) + 1 by omega]
        simp
      · rw [if_neg hr, if_neg hy, if_neg (by omega)]

/-- Outside the written range nothing changes. -/
theorem Memory.read_writeBytes_of_outside {m : Memory} {addr : Nat} {bs : List Byte} (h : m.wf = true) {y : Nat}
    (hy : y < addr ∨ addr + bs.length ≤ y) : (m.writeBytes addr bs).read y = m.read y := by
  rw [Memory.read_writeBytes h, if_neg (by omega)]

@[simp] theorem Memory.readBytes_length (m : Memory) (addr n : Nat) : (m.readBytes addr n).length = n := by
  induction n generalizing addr with
  | zero => rfl
  | succ n ih => simp [Memory.readBytes, ih]

/-- Two memories that agree on a range give the same bytes there. -/
theorem Memory.readBytes_congr {m m' : Memory} {addr n : Nat}
    (h : ∀ y, addr ≤ y → y < addr + n → m.read y = m'.read y) : m.readBytes addr n = m'.readBytes addr n := by
  induction n generalizing addr with
  | zero => rfl
  | succ n ih =>
    rw [Memory.readBytes, Memory.readBytes, h addr (by omega) (by omega), ih fun y h1 h2 => h y (by omega) (by omega)]

/-- Reading back what was written. -/
theorem Memory.readBytes_writeBytes {m : Memory} {addr : Nat} {bs : List Byte} (h : m.wf = true) :
    (m.writeBytes addr bs).readBytes addr bs.length = bs := by
  induction bs generalizing m addr with
  | nil => rfl
  | cons b bs ih =>
    rw [List.length_cons, Memory.readBytes, Memory.writeBytes, ih (Memory.write_wf h)]
    congr 1
    rw [Memory.read_writeBytes (Memory.write_wf h), if_neg (by omega), Memory.read_write h, if_pos rfl]

/-- Reading a prefix of what was written. -/
theorem Memory.readBytes_writeBytes_take {m : Memory} {addr n : Nat} {bs : List Byte} (h : m.wf = true)
    (hn : n ≤ bs.length) : (m.writeBytes addr bs).readBytes addr n = bs.take n := by
  induction bs generalizing m addr n with
  | nil => simp only [List.length_nil, Nat.le_zero] at hn; subst hn; rfl
  | cons b bs ih =>
    cases n with
    | zero => rfl
    | succ n =>
      rw [Memory.readBytes, Memory.writeBytes, ih (Memory.write_wf h) (by simpa using hn), List.take_succ_cons]
      congr 1
      rw [Memory.read_writeBytes (Memory.write_wf h), if_neg (by omega), Memory.read_write h, if_pos rfl]

/-- Canonical memories that read the same at every address are the same data. -/
theorem Memory.ext_of_read {m m' : Memory} (h : m.wf = true) (h' : m'.wf = true)
    (hr : ∀ x, m.read x = m'.read x) : m = m' := by
  induction m generalizing m' with
  | nil =>
    cases m' with
    | nil => rfl
    | cons d m' =>
      have := hr d.1
      simp only [Memory.read, if_true] at this
      exact absurd this.symm (Memory.wf_cons.1 h').1
  | cons c m ih =>
    obtain ⟨hc, hlt, hm⟩ := Memory.wf_cons.1 h
    cases m' with
    | nil =>
      have := hr c.1
      simp only [Memory.read, if_true] at this
      exact absurd this hc
    | cons d m' =>
      obtain ⟨hd, hlt', hm'⟩ := Memory.wf_cons.1 h'
      have hcd : c.1 = d.1 := by
        rcases lt_trichotomy c.1 d.1 with hl | he | hl
        · have := hr c.1
          rw [Memory.read_of_lt (m := d :: m') (x := c.1)] at this
          · simp only [Memory.read, if_true] at this
            exact absurd this hc
          · intro e he
            rcases List.mem_cons.1 he with rfl | he
            · exact hl
            · exact hl.trans (hlt' e he)
        · exact he
        · have := hr d.1
          rw [Memory.read_of_lt (m := c :: m) (x := d.1)] at this
          · simp only [Memory.read, if_true] at this
            exact absurd this.symm hd
          · intro e he
            rcases List.mem_cons.1 he with rfl | he
            · exact hl
            · exact hl.trans (hlt e he)
      have hv : c.2 = d.2 := by
        have := hr c.1
        simpa [Memory.read, hcd] using this
      have hrest : ∀ x, Memory.read m x = Memory.read m' x := by
        intro x
        by_cases hx : x = c.1
        · rw [hx, Memory.read_of_lt hlt, Memory.read_of_lt (hcd ▸ hlt')]
        · have := hr x
          simpa only [Memory.read, if_neg hx, if_neg (hcd ▸ hx)] using this
      rw [ih hm hm' hrest, Prod.ext hcd hv]

end Sys2Proof.Machine
end

