-- ==== Sys2Proof/Laws/Counter.lean ====
section
/-! SUPPORT. The element count a buffer holds and what it states (rules R88, R89, R115). -/

namespace Sys2Proof.Machine

/-- Everything the stored count can state: nothing when saturated, else itself. -/
theorem State.statedCount_cases (s : State) :
    (s.storedCount = Config.counterMax ∧ s.statedCount = none) ∨
    (s.storedCount ≠ Config.counterMax ∧ s.statedCount = some s.storedCount) := by
  unfold State.statedCount
  split
  · exact .inl ⟨‹_›, rfl⟩
  · exact .inr ⟨‹_›, rfl⟩

theorem State.statedCount_eq_none {s : State} : s.statedCount = none ↔ s.storedCount = Config.counterMax := by
  rcases s.statedCount_cases with ⟨h, e⟩ | ⟨h, e⟩ <;> simp [h, e]

theorem State.statedCount_eq_some {s : State} {n : Nat} :
    s.statedCount = some n ↔ s.storedCount = n ∧ n ≠ Config.counterMax := by
  rcases s.statedCount_cases with ⟨h, e⟩ | ⟨h, e⟩ <;> rw [e]
  · exact ⟨nofun, fun hn => absurd (hn.1.symm.trans h) hn.2⟩
  · exact ⟨fun hn => Option.some.inj hn ▸ ⟨rfl, h⟩, fun hn => congrArg some hn.1⟩

/-- The count depends on nothing but the two counter bytes. -/
theorem State.storedCount_congr {s t : State} (ha : t.counterAddr = s.counterAddr)
    (h : ∀ x, s.counterAddr ≤ x → x < s.counterAddr + 2 → t.buf.read x = s.buf.read x) :
    t.storedCount = s.storedCount := by
  unfold State.storedCount
  rw [ha, Memory.readBytes_congr h]

end Sys2Proof.Machine
end

