-- ==== Sys2Proof/Laws/Ops.lean ====
section
/-! SUPPORT. One lemma per shared operation that says once everything it can do: the byte-order helpers, the three
buffer accesses of rule R9, and the issue of an operation (rules R90, R97, R99). -/

namespace Sys2Proof.Machine

/-! ### Little-endian numbers (rules R8, R34) -/

@[simp] theorem leBytes_length (n v : Nat) : (leBytes n v).length = n := by
  induction n generalizing v with
  | zero => rfl
  | succ n ih => simp [leBytes, ih]

/-- The bytes of a number read back as its low bytes. -/
theorem leNat_leBytes (n v : Nat) : leNat (leBytes n v) = v % 256 ^ n := by
  induction n generalizing v with
  | zero => simp [leBytes, leNat, Nat.mod_one]
  | succ n ih =>
    have hp : 256 ^ (n + 1) = 256 * 256 ^ n := Nat.pow_succ'
    rw [leBytes, leNat, ih, BitVec.toNat_ofNat, hp, Nat.mod_mul]

theorem leNat_lt (bs : List Byte) : leNat bs < 256 ^ bs.length := by
  induction bs with
  | nil => simp [leNat]
  | cons b bs ih =>
    rw [leNat, List.length_cons, pow_succ]
    have := b.isLt
    omega

/-- The k-th byte of a number, lowest first. -/
theorem leBytes_getD {n v k : Nat} (h : k < n) : (leBytes n v).getD k 0 = BitVec.ofNat 8 (v >>> (8 * k)) := by
  induction n generalizing v k with
  | zero => omega
  | succ n ih =>
    cases k with
    | zero => simp [leBytes]
    | succ k =>
      rw [leBytes, List.getD_cons_succ, ih (by omega), Nat.shiftRight_eq_div_pow, Nat.shiftRight_eq_div_pow,
        Nat.div_div_eq_div_mul, Nat.mul_add, pow_add, Nat.mul_comm (2 ^ (8 * k))]
      norm_num

/-- A byte put below a bit vector, as a number. -/
theorem toNat_append_byte {w : Nat} (v : BitVec w) (b : Byte) : (v ++ b).toNat = v.toNat * 256 + b.toNat := by
  rw [BitVec.toNat_append, ← Nat.shiftLeft_add_eq_or_of_lt b.isLt, Nat.shiftLeft_eq]

/-! ### Sequencing in `Except Raise` -/

@[simp] theorem bind_ok {α β : Type} (x : α) (f : α → Except Raise β) : (Except.ok x >>= f) = f x := rfl
@[simp] theorem bind_error {α β : Type} (e : Raise) (f : α → Except Raise β) :
    ((Except.error e : Except Raise α) >>= f) = .error e := rfl
@[simp] theorem pure_eq_ok {α : Type} (x : α) : (pure x : Except Raise α) = .ok x := rfl
@[simp] theorem throw_eq_error {α : Type} (e : Raise) : (throw e : Except Raise α) = .error e := rfl
@[simp] theorem map_ok {α β : Type} (x : α) (f : α → β) : (Except.ok x : Except Raise α).map f = .ok (f x) := rfl
@[simp] theorem map_error {α β : Type} (e : Raise) (f : α → β) :
    (Except.error e : Except Raise α).map f = .error e := rfl

/-! ### The buffer accesses (rule R9) -/

/-- The k-th byte of a range read. -/
theorem Memory.readBytes_getD {m : Memory} {addr n k : Nat} (h : k < n) :
    (m.readBytes addr n).getD k 0 = m.read (addr + k) := by
  induction n generalizing addr k with
  | zero => omega
  | succ n ih =>
    cases k with
    | zero => simp [Memory.readBytes]
    | succ k =>
      rw [Memory.readBytes, List.getD_cons_succ, ih (by omega)]
      congr 1
      omega

theorem State.inWindow_iff {s : State} {addr n : Nat} :
    s.inWindow addr n = true ↔ n = 0 ∨ addr + n ≤ s.params.bufLen := by
  simp [State.inWindow]

/-- `MemRead` answers the bytes of a range inside the window. -/
theorem memRead_eq_ok {s : State} {addr n : Nat} {bs : List Byte} :
    memRead s addr n = .ok bs ↔ (n = 0 ∨ addr + n ≤ s.params.bufLen) ∧ bs = s.buf.readBytes addr n := by
  rw [← State.inWindow_iff]
  unfold memRead
  split
  · rename_i hw
    rw [Except.ok.injEq]
    exact ⟨fun h => ⟨hw, h.symm⟩, fun h => h.2.symm⟩
  · rename_i hw
    exact ⟨nofun, fun h => absurd h.1 hw⟩

/-- `MemRead` raises BufferBounds, and nothing else, for a range outside the window. -/
theorem memRead_eq_error {s : State} {addr n : Nat} {f : Raise} :
    memRead s addr n = .error f ↔ (n ≠ 0 ∧ s.params.bufLen < addr + n) ∧ f = .bufferBounds addr n := by
  have h := State.inWindow_iff (s := s) (addr := addr) (n := n)
  unfold memRead
  split
  · rename_i hw
    simp only [reduceCtorEq, false_iff, not_and]
    rcases h.1 hw with h | h <;> omega
  · rename_i hw
    have : n ≠ 0 ∧ s.params.bufLen < addr + n := by
      have := mt h.2 hw
      omega
    simp [this, eq_comm]

/-- `MemWriteBytes` writes the bytes of a range inside the window and nothing else. -/
theorem memWriteBytes_eq_ok {s t : State} {addr : Nat} {bs : List Byte} :
    memWriteBytes s addr bs = .ok t ↔
      (bs.length = 0 ∨ addr + bs.length ≤ s.params.bufLen) ∧ t = { s with buf := s.buf.writeBytes addr bs } := by
  rw [← State.inWindow_iff]
  unfold memWriteBytes
  split
  · rename_i hw
    rw [Except.ok.injEq]
    exact ⟨fun h => ⟨hw, h.symm⟩, fun h => h.2.symm⟩
  · rename_i hw
    exact ⟨nofun, fun h => absurd h.1 hw⟩

/-- `MemWriteBytes` raises BufferBounds, and nothing else, for a range outside the window. -/
theorem memWriteBytes_eq_error {s : State} {addr : Nat} {bs : List Byte} {f : Raise} :
    memWriteBytes s addr bs = .error f ↔
      (bs.length ≠ 0 ∧ s.params.bufLen < addr + bs.length) ∧ f = .bufferBounds addr bs.length := by
  have h := State.inWindow_iff (s := s) (addr := addr) (n := bs.length)
  unfold memWriteBytes
  split
  · rename_i hw
    simp only [reduceCtorEq, false_iff, not_and]
    rcases h.1 hw with h | h <;> omega
  · rename_i hw
    have : bs.length ≠ 0 ∧ s.params.bufLen < addr + bs.length := by
      have := mt h.2 hw
      omega
    simp [this, eq_comm]

theorem memRead_inside {s : State} {addr n : Nat} (h : addr + n ≤ s.params.bufLen) :
    memRead s addr n = .ok (s.buf.readBytes addr n) := memRead_eq_ok.2 ⟨.inr h, rfl⟩

theorem memRead_outside {s : State} {addr n : Nat} (h0 : 0 < n) (h : s.params.bufLen < addr + n) :
    memRead s addr n = .error (.bufferBounds addr n) := memRead_eq_error.2 ⟨⟨by omega, h⟩, rfl⟩

theorem memWriteBytes_inside {s : State} {addr : Nat} {bs : List Byte} (h : addr + bs.length ≤ s.params.bufLen) :
    memWriteBytes s addr bs = .ok { s with buf := s.buf.writeBytes addr bs } := memWriteBytes_eq_ok.2 ⟨.inr h, rfl⟩

theorem memWriteBytes_outside {s : State} {addr : Nat} {bs : List Byte} (h0 : 0 < bs.length)
    (h : s.params.bufLen < addr + bs.length) :
    memWriteBytes s addr bs = .error (.bufferBounds addr bs.length) := memWriteBytes_eq_error.2 ⟨⟨by omega, h⟩, rfl⟩

/-- Everything `MemRead` can answer. -/
theorem memRead_cases (s : State) (addr n : Nat) :
    (∃ bs, memRead s addr n = .ok bs ∧ bs.length = n ∧ bs = s.buf.readBytes addr n) ∨
    memRead s addr n = .error (.bufferBounds addr n) := by
  rcases h : memRead s addr n with f | bs
  · exact .inr (by rw [(memRead_eq_error.1 h).2])
  · obtain ⟨-, rfl⟩ := memRead_eq_ok.1 h
    exact .inl ⟨_, rfl, by simp, rfl⟩

/-- Everything `MemWriteBytes` can answer. -/
theorem memWriteBytes_cases (s : State) (addr : Nat) (bs : List Byte) :
    (memWriteBytes s addr bs = .ok { s with buf := s.buf.writeBytes addr bs } ∧
      (bs.length = 0 ∨ addr + bs.length ≤ s.params.bufLen)) ∨
    memWriteBytes s addr bs = .error (.bufferBounds addr bs.length) := by
  rcases h : memWriteBytes s addr bs with f | t
  · exact .inr (by rw [(memWriteBytes_eq_error.1 h).2])
  · obtain ⟨h1, rfl⟩ := memWriteBytes_eq_ok.1 h
    exact .inl ⟨rfl, h1⟩

/-- `MemRead` sees nothing of the buffer outside its range. -/
theorem memRead_congr {s : State} {m : Memory} {addr n : Nat}
    (h : ∀ x, addr ≤ x → x < addr + n → m.read x = s.buf.read x) :
    memRead { s with buf := m } addr n = memRead s addr n := by
  have hb : m.readBytes addr n = s.buf.readBytes addr n := Memory.readBytes_congr h
  unfold memRead State.inWindow
  simp only [hb]

/-- `MemWrite` is `MemWriteBytes` of the number's bytes, lowest first. -/
theorem memWrite_eq (s : State) (addr n v : Nat) : memWrite s addr n v = memWriteBytes s addr (leBytes n v) := rfl

/-! ### The issue of an operation (rules R90, R97, R99) -/

theorem issue_halted {s : State} (h : s.halt = true) (op : Except Raise State) :
    issue s op = .next s.refuseCommand := by
  simp [issue, h]

theorem issue_ok {s : State} (h : s.halt = false) (t : State) : issue s (.ok t) = .next t := by
  simp [issue, h]

theorem issue_error {s : State} (h : s.halt = false) (f : Raise) : issue s (.error f) = .next (s.takeFault f) := by
  simp [issue, h]

/-- The three ways an operation ends (rule R90): refused while halted, completed, or its fault taken. -/
theorem issue_cases (s : State) (op : Except Raise State) :
    (s.halt = true ∧ issue s op = .next s.refuseCommand) ∨
    (s.halt = false ∧ ∃ t, op = .ok t ∧ issue s op = .next t) ∨
    (s.halt = false ∧ ∃ f, op = .error f ∧ issue s op = .next (s.takeFault f)) := by
  cases h : s.halt with
  | true => exact .inl ⟨rfl, issue_halted h op⟩
  | false =>
    cases op with
    | ok t => exact .inr (.inl ⟨rfl, t, rfl, issue_ok h t⟩)
    | error f => exact .inr (.inr ⟨rfl, f, rfl, issue_error h f⟩)

/-- What an issue that answers a next state did. -/
theorem issue_next {s t : State} {op : Except Raise State} (h : issue s op = .next t) :
    (s.halt = true ∧ t = s.refuseCommand) ∨ (s.halt = false ∧ op = .ok t) ∨
    (s.halt = false ∧ ∃ f, op = .error f ∧ t = s.takeFault f) := by
  rcases issue_cases s op with ⟨hh, hi⟩ | ⟨hh, u, ho, hi⟩ | ⟨hh, f, ho, hi⟩ <;>
    rw [hi, Host.Outcome.next.injEq] at h <;> subst h
  · exact .inl ⟨hh, rfl⟩
  · exact .inr (.inl ⟨hh, ho⟩)
  · exact .inr (.inr ⟨hh, f, ho, rfl⟩)

end Sys2Proof.Machine
end

