-- ==== Sys2Proof/Laws/HostPort.lean ====
section
/-! SUPPORT. The host's side (rules R17, R24, R48, R51, R106): what each action of the host can do, said once. -/

namespace Sys2Proof.Machine

/-- A byte is a command or is rejected as itself. -/
theorem decode_cases (b : Byte) : (∃ i, decode b = .ok i) ∨ decode b = .error (.reserved b) := by
  unfold decode
  split
  · exact .inl ⟨_, rfl⟩
  · exact .inr rfl

/-- The reserved bytes of rule R51 are the ones the decoder rejects. -/
theorem reservedCommand_iff : ∀ b : Byte, reservedCommand b = true ↔ decode b = .error (.reserved b) := by decide

/-- A write to CMD runs the command on the state that holds the byte, or raises IllegalCommand there. -/
theorem issueCommand_cases (b : Byte) (s : State) :
    (∃ i, decode b = .ok i ∧ issueCommand b s = exec i { s with cmd := b }) ∨
    (decode b = .error (.reserved b) ∧
      issueCommand b s = issue { s with cmd := b } (.error (.illegalCommand b))) := by
  unfold issueCommand
  rcases decode_cases b with ⟨i, h⟩ | h <;> rw [h]
  · exact .inl ⟨i, rfl, rfl⟩
  · exact .inr ⟨rfl, rfl⟩

theorem hostWriteBytes_cases (addr : Nat) (bs : List Byte) (s : State) :
    ((bs.length = 0 ∨ addr + bs.length ≤ s.params.bufLen) ∧
      hostWriteBytes addr bs s = .next { s with buf := s.buf.writeBytes addr bs }) ∨
    ((bs.length ≠ 0 ∧ s.params.bufLen < addr + bs.length) ∧
      hostWriteBytes addr bs s = .fault (.outsideWindow addr bs.length)) := by
  unfold hostWriteBytes
  split
  · rename_i h
    exact .inl ⟨State.inWindow_iff.1 h, rfl⟩
  · rename_i h
    have := mt State.inWindow_iff.2 h
    exact .inr ⟨by omega, rfl⟩

theorem hostReadByte_cases (addr : Nat) (s : State) :
    (addr < s.params.bufLen ∧ hostReadByte addr s = .next { s with hostRead := some ((s.buf.read addr).setWidth 64) }) ∨
    (s.params.bufLen ≤ addr ∧ hostReadByte addr s = .fault (.outsideWindow addr 1)) := by
  unfold hostReadByte
  split
  · rename_i h
    have := State.inWindow_iff.1 h
    exact .inl ⟨by omega, rfl⟩
  · rename_i h
    have := mt State.inWindow_iff.2 h
    exact .inr ⟨by omega, rfl⟩

theorem hostReadPort_cases (p : ResultPort) (s : State) :
    (∃ v, s.resultPort p = some v ∧ hostReadPort p s = .next { s with hostRead := some v }) ∨
    (s.resultPort p = none ∧ hostReadPort p s = .fault (.unwrittenPort p)) := by
  unfold hostReadPort
  cases s.resultPort p with
  | some v => exact .inl ⟨v, rfl, rfl⟩
  | none => exact .inr ⟨rfl, rfl⟩

/-- A step that goes on is the host's next action on a legal configuration. -/
theorem hostStep_of_step {s t : State} (h : step s = .next t) : s.params.legal = true ∧ hostStep s = .next t := by
  unfold step at h
  split at h
  · exact ⟨‹_›, h⟩
  · cases h

theorem step_legal {s : State} (h : s.params.legal = true) : step s = hostStep s := by
  simp [step, h]

end Sys2Proof.Machine
end

