-- ==== Sys2Proof/Laws/Operands.lean ====
section
/-! SUPPORT. One lemma per operand function that says once what it answers (rules R52 to R66, R81, R85). -/

namespace Sys2Proof.Machine

/-! ### Length operands (rule R52) -/

theorem lengthOperand_fits {s : State} (h : s.a.toNat < 2 ^ 32) : lengthOperand s = .ok s.a.toNat := by
  unfold lengthOperand State.uA Config.str32Max
  rw [if_pos (by omega)]

theorem lengthOperand_tooLong {s : State} (h : 2 ^ 32 ≤ s.a.toNat) : lengthOperand s = .error (.operandRange s.a) := by
  unfold lengthOperand State.uA Config.str32Max
  rw [if_neg (by omega)]

/-- Everything the check of a length operand can answer. -/
theorem lengthOperand_cases (s : State) :
    (lengthOperand s = .ok s.a.toNat ∧ s.a.toNat < 2 ^ 32) ∨ lengthOperand s = .error (.operandRange s.a) := by
  rcases Nat.lt_or_ge s.a.toNat (2 ^ 32) with h | h
  · exact .inl ⟨lengthOperand_fits h, h⟩
  · exact .inr (lengthOperand_tooLong h)

/-! ### The previous-length field (rules R55, R62) -/

theorem prevlenSize_cases (p : Params) (len : Nat) : prevlenSize p len = 1 ∨ prevlenSize p len = 5 := by
  unfold prevlenSize
  split <;> simp

theorem prevlenFieldSize_cases (p : Params) (b : Byte) : prevlenFieldSize p b = 1 ∨ prevlenFieldSize p b = 5 := by
  unfold prevlenFieldSize
  split <;> simp

/-- The field written for a length has the size rule R62 gives. -/
@[simp] theorem prevlenBytes_length (p : Params) (len : Nat) : (prevlenBytes p len).length = prevlenSize p len := by
  unfold prevlenBytes prevlenSize
  split <;> simp

/-! ### Tags (rules R56 to R61, R84) -/

/-- What an integer tag check answers: the payload width of the class, or InvalidIntegerEncoding. -/
theorem integerWidth_eq (p : Params) (t : Byte) :
    (∃ n, payloadWidth (classifyTag p t) = some n ∧ integerWidth p t = .ok n) ∨
    (payloadWidth (classifyTag p t) = none ∧ integerWidth p t = .error (.invalidIntegerEncoding t)) := by
  unfold integerWidth
  cases payloadWidth (classifyTag p t) with
  | some n => exact .inl ⟨n, rfl, rfl⟩
  | none => exact .inr ⟨rfl, rfl⟩

/-- A string tag is a byte up to 0xBF (rule R61). -/
theorem isStringTag_iff : ∀ t : Byte, isStringTag t = true ↔ t.toNat ≤ 0xBF := by decide

theorem classBits_eq : ∀ t : Byte, classBits t = (t.extractLsb' 6 2).toNat := by decide

/-! ### String headers (rules R57, R63) -/

theorem strHeaderSize_cases (n : Nat) : strHeaderSize n = 1 ∨ strHeaderSize n = 2 ∨ strHeaderSize n = 5 := by
  unfold strHeaderSize
  split
  · simp
  · split <;> simp

/-- The header written for a length has the size rule R57 gives. -/
@[simp] theorem strHeaderBytes_length (p : Params) (n : Nat) : (strHeaderBytes p n).length = strHeaderSize n := by
  unfold strHeaderBytes strHeaderSize str14Bytes
  split
  · rfl
  · split
    · cases p.str14Layout <;> rfl
    · simp

end Sys2Proof.Machine
end

