-- ==== Sys2Proof/Laws/Integers.lean ====
section
/-! SUPPORT. Integer payloads and the counter (rules R8, R81, R85, R87, R88): bytes, sign extension, and what their
operations answer. -/

namespace Sys2Proof.Machine

theorem fitsBytes_iff (n : Nat) (v : Int) :
    fitsBytes n v = true ↔ -(2 ^ (8 * n - 1)) ≤ v ∧ v ≤ 2 ^ (8 * n - 1) - 1 := by
  simp [fitsBytes]

theorem trunc64_sA (s : State) : trunc64 s.a.toInt = s.a := by
  simp [trunc64]

/-- The bytes of A that a write stores, as slices of the port. -/
theorem leBytes_eq_slices (a : Word64) (n : Nat) :
    leBytes n a.toNat = (List.range n).map fun k => a.extractLsb' (8 * k) 8 := by
  apply List.ext_getElem
  · simp
  · intro i h1 h2
    simp only [leBytes_length] at h1
    have h := leBytes_getD (v := a.toNat) h1
    rw [List.getD_eq_getElem?_getD, List.getElem?_eq_getElem (by simpa), Option.getD_some] at h
    rw [h, List.getElem_map, List.getElem_range]
    apply BitVec.eq_of_toNat_eq
    simp [BitVec.extractLsb'_toNat]

/-- Four little-endian bytes as a word (rules R55, R73). -/
theorem leNat_four (b1 b2 b3 b4 : Byte) : leNat [b1, b2, b3, b4] = (b4 ++ b3 ++ b2 ++ b1 : BitVec 32).toNat := by
  repeat rw [toNat_append_byte]
  simp only [leNat]
  ring

/-- Two little-endian bytes as a word (rule R88). -/
theorem leNat_two (b0 b1 : Byte) : leNat [b0, b1] = (b1 ++ b0 : BitVec 16).toNat := by
  rw [toNat_append_byte]
  simp only [leNat]
  ring

/-- Sign extension of rule R8 is the bit vector's signed reading. -/
theorem sextInt_toNat {w : Nat} (hw : 0 < w) (x : BitVec w) : sextInt w x.toNat = x.toInt := by
  rw [sextInt, BitVec.toInt_eq_toNat_cond]
  have hlt := x.isLt
  obtain ⟨m, rfl⟩ : ∃ m, w = m + 1 := ⟨w - 1, by omega⟩
  simp only [Nat.add_sub_cancel]
  have hp : 2 ^ (m + 1) = 2 * 2 ^ m := by rw [pow_succ]; ring
  have hpos : 0 < 2 ^ m := by positivity
  by_cases h : 2 ^ m ≤ x.toNat
  · have h1 : x.toNat / 2 ^ m = 1 := by
      apply Nat.div_eq_of_lt_le <;> omega
    rw [h1, if_pos rfl, if_neg (by omega)]
    push_cast
    ring
  · rw [Nat.div_eq_of_lt (by omega), if_neg (by omega), if_pos (by omega)]

theorem trunc64_sextInt {w : Nat} (hw : 0 < w) (x : BitVec w) :
    trunc64 (sextInt w x.toNat) = x.signExtend 64 := by
  rw [sextInt_toNat hw, trunc64]
  rfl

/-- A value that fits n bytes is what sign extension of its low n bytes gives. -/
theorem sextInt_low {n : Nat} (hn : 0 < n) (hn8 : n ≤ 8) {a : Int} (hf : fitsBytes n a = true) {m : Nat}
    (hm : (m : Int) = a % 2 ^ 64) : sextInt (8 * n) (m % 256 ^ n) = a := by
  have hf := (fitsBytes_iff n a).1 hf
  have h256 : 256 ^ n = 2 ^ (8 * n) := by rw [pow_mul]; norm_num
  obtain ⟨k, hk⟩ : ∃ k, 8 * n = k + 1 := ⟨8 * n - 1, by omega⟩
  have hk7 : k + 1 ≤ 64 := by omega
  rw [hk, Nat.add_sub_cancel] at hf
  rw [h256, hk]
  have hdvd : ((2 ^ (k + 1) : Nat) : Int) ∣ (2 : Int) ^ 64 := by
    push_cast
    exact pow_dvd_pow 2 hk7
  have hmod : ((m % 2 ^ (k + 1) : Nat) : Int) = a % ((2 ^ (k + 1) : Nat) : Int) := by
    push_cast
    rw [hm, Int.emod_emod_of_dvd _ (by simpa using hdvd)]
  rw [sextInt]
  simp only [Nat.add_sub_cancel]
  have hp : (2 : Nat) ^ (k + 1) = 2 * 2 ^ k := by rw [pow_succ]; ring
  have hpos : 0 < 2 ^ k := by positivity
  generalize hX : m % 2 ^ (k + 1) = X at *
  have hXlt : X < 2 ^ (k + 1) := by rw [← hX]; exact Nat.mod_lt _ (by positivity)
  have hcast : ((2 ^ k : Nat) : Int) = 2 ^ k := by push_cast; rfl
  rw [← hcast] at hf
  rw [hp] at hmod
  push_cast at hmod
  by_cases h : 0 ≤ a
  · rw [Int.emod_eq_of_lt h (by push_cast at hf; omega)] at hmod
    rw [Nat.div_eq_of_lt (by push_cast at hf; zify; omega), if_neg (by omega)]
    exact hmod
  · have hneg : a % (2 * 2 ^ k) = a + 2 * 2 ^ k := by
      rw [← Int.add_emod_right, Int.emod_eq_of_lt] <;> push_cast at hf <;> omega
    rw [hneg] at hmod
    have h1 : X / 2 ^ k = 1 := by
      apply Nat.div_eq_of_lt_le <;> (zify; push_cast at hf; omega)
    rw [h1, if_pos rfl, hmod, pow_succ]
    ring

/-- LDI's read: a value, BufferBounds, or InvalidIntegerEncoding of the tag on ENC. -/
theorem loadedValue_cases (s : State) :
    (∃ v, loadedValue s = .ok v) ∨ (∃ a n, loadedValue s = .error (.bufferBounds a n)) ∨
    loadedValue s = .error (.invalidIntegerEncoding s.enc) := by
  unfold loadedValue
  cases classifyTag s.params s.enc
  case imm => exact .inl ⟨_, rfl⟩
  case str6 => exact .inr (.inr rfl)
  case str14 => exact .inr (.inr rfl)
  case str32 => exact .inr (.inr rfl)
  case invalid => exact .inr (.inr rfl)
  all_goals
    simp only
    rcases memRead_cases s s.baseAddr _ with ⟨bs, h, -⟩ | h
    · rw [h]
      exact .inl ⟨_, rfl⟩
    · rw [h]
      exact .inr (.inl ⟨_, _, rfl⟩)

/-- INCL's stored count fits its two bytes. -/
theorem counterSum_le (p : Params) (t : Nat) : counterSum p t ≤ Config.counterMax := by
  unfold counterSum
  split
  · assumption
  · cases p.counterOverflow
    · exact le_rfl
    · show t % 2 ^ 16 ≤ 65535
      omega

end Sys2Proof.Machine
end

