-- ==== Sys2Proof/Laws/Parser.lean ====
section
/-! SUPPORT. The decimal parser and the canonical spelling (rules R78, R80, R82): the digit loop, the first-digit rule,
the digits of a number, and what the operations over a string in the buffer answer. -/

namespace Sys2Proof.Machine

/-- The decimal value of a string of digits put after the digits of v. -/
abbrev decimalValue (v : Nat) (cs : List Byte) : Nat := cs.foldl (fun v c => v * 10 + (c.toNat - 0x30)) v

theorem isDigit_iff (c : Byte) : isDigit c = true ↔ 0x30 ≤ c.toNat ∧ c.toNat ≤ 0x39 := by simp [isDigit]

theorem le_decimalValue (cs : List Byte) (v : Nat) : v ≤ decimalValue v cs := by
  induction cs generalizing v with
  | nil => exact le_rfl
  | cons c cs ih => exact le_trans (by omega) (ih (v * 10 + (c.toNat - 0x30)))

/-! ### The digit loop (rule R78) -/

/-- What the digit loop accepts: digits alone, with their value, below 2^64. -/
theorem parseDigits_ok {cs : List Byte} {v w : Nat} (hv : v < 2 ^ 64) (h : parseDigits cs v = .ok w) :
    (∀ c ∈ cs, 0x30 ≤ c.toNat ∧ c.toNat ≤ 0x39) ∧ w = decimalValue v cs ∧ w < 2 ^ 64 := by
  induction cs generalizing v with
  | nil =>
    simp only [parseDigits, Except.ok.injEq] at h
    subst h
    exact ⟨by simp, rfl, hv⟩
  | cons c cs ih =>
    unfold parseDigits at h
    split_ifs at h with h1 h2 h3
    have hd : 0x30 ≤ c.toNat ∧ c.toNat ≤ 0x39 := (isDigit_iff c).1 (by simpa using h1)
    obtain ⟨ha, hw, hl⟩ := ih (by unfold digitValue at *; omega) h
    exact ⟨by simpa [hd] using ha, hw, hl⟩

/-- Digits with a value below 2^64 are accepted. -/
theorem parseDigits_of_lt {cs : List Byte} {v : Nat} (hd : ∀ c ∈ cs, 0x30 ≤ c.toNat ∧ c.toNat ≤ 0x39)
    (h : decimalValue v cs < 2 ^ 64) : parseDigits cs v = .ok (decimalValue v cs) := by
  induction cs generalizing v with
  | nil => rfl
  | cons c cs ih =>
    have hc := hd c (by simp)
    have hge : v * 10 + (c.toNat - 0x30) ≤ decimalValue v (c :: cs) := le_decimalValue cs _
    unfold parseDigits
    rw [if_neg (by simp [(isDigit_iff c).2 hc]), if_neg (by omega), if_neg (by unfold digitValue; omega)]
    exact ih (fun d h => hd d (by simp [h])) h

/-- Nothing overflows within the first 19 digits: the loop goes on, or meets a character that is no digit. -/
theorem parseDigits_append {xs ys : List Byte} {v k : Nat} (hv : v < 10 ^ k) (hk : xs.length + k ≤ 19) :
    parseDigits (xs ++ ys) v =
      if ∀ c ∈ xs, 0x30 ≤ c.toNat ∧ c.toNat ≤ 0x39 then parseDigits ys (decimalValue v xs)
      else .error .invalidChar := by
  induction xs generalizing v k with
  | nil => simp
  | cons c cs ih =>
    have h19 : 10 ^ k ≤ 10 ^ 18 := Nat.pow_le_pow_right (by omega) (by simp at hk; omega)
    rw [List.cons_append, parseDigits]
    by_cases hc : isDigit c = true
    · have hc' := (isDigit_iff c).1 hc
      rw [if_neg (by simp [hc]), if_neg (by omega), if_neg (by unfold digitValue; omega),
        ih (k := k + 1) (by unfold digitValue; rw [pow_succ]; omega) (by simp at hk; omega)]
      simp [hc', digitValue]
    · rw [if_pos (by simpa using hc), if_neg]
      intro h
      exact hc ((isDigit_iff c).2 (h c (by simp)))

/-! ### The first digit (rule R78) -/

theorem parseMagnitude_bad {body : List Byte}
    (h : ¬ ∃ c, body.head? = some c ∧ 0x31 ≤ c.toNat ∧ c.toNat ≤ 0x39) :
    parseMagnitude body = .error .invalidFirstDigit := by
  cases body with
  | nil => rfl
  | cons c cs =>
    have hc : ¬ (0x31 ≤ c.toNat ∧ c.toNat ≤ 0x39) := fun hc => h ⟨c, rfl, hc⟩
    simp only [parseMagnitude]
    rw [if_neg (by simpa using hc)]

theorem parseMagnitude_good {body : List Byte}
    (h : ∃ c, body.head? = some c ∧ 0x31 ≤ c.toNat ∧ c.toNat ≤ 0x39) :
    parseMagnitude body = parseDigits body 0 := by
  cases body with
  | nil => obtain ⟨c, hc, -⟩ := h; simp at hc
  | cons c cs =>
    obtain ⟨d, hd, hc⟩ := h
    simp only [List.head?_cons, Option.some.injEq] at hd
    subst hd
    simp only [parseMagnitude]
    rw [if_pos (by simpa using hc)]

/-! ### The digits of a number (rule R80) -/

theorem decimalDigits_acc (fuel n : Nat) (acc : List Byte) :
    decimalDigits fuel n acc = decimalDigits fuel n [] ++ acc := by
  induction fuel generalizing n acc with
  | zero => simp [decimalDigits]
  | succ f ih =>
    unfold decimalDigits
    split
    · rfl
    · rw [ih (n / 10) (_ :: acc), ih (n / 10) [_]]
      simp

theorem digitByte_toNat {d : Nat} (h : d < 10) : (BitVec.ofNat 8 (0x30 + d)).toNat = 0x30 + d := by
  simp
  omega

theorem decimalDigits_isDigit (fuel n : Nat) :
    ∀ c ∈ decimalDigits fuel n [], 0x30 ≤ c.toNat ∧ c.toNat ≤ 0x39 := by
  induction fuel generalizing n with
  | zero => simp [decimalDigits]
  | succ f ih =>
    unfold decimalDigits
    split
    · intro c hc
      simp only [List.mem_singleton] at hc
      subst hc
      rw [digitByte_toNat (by omega)]
      omega
    · rw [decimalDigits_acc]
      intro c hc
      rcases List.mem_append.1 hc with hc | hc
      · exact ih _ c hc
      · simp only [List.mem_singleton] at hc
        subst hc
        rw [digitByte_toNat (by omega)]
        omega

theorem decimalDigits_value {fuel n : Nat} (h : n < 10 ^ fuel) : decimalValue 0 (decimalDigits fuel n []) = n := by
  induction fuel generalizing n with
  | zero => simp at h; subst h; rfl
  | succ f ih =>
    unfold decimalDigits
    split
    · simp only [decimalValue, List.foldl]
      rw [digitByte_toNat (by omega)]
      omega
    · rw [decimalDigits_acc]
      simp only [decimalValue, List.foldl_append, List.foldl]
      have h1 := ih (n := n / 10) (by rw [pow_succ] at h; omega)
      simp only [decimalValue] at h1
      rw [h1, digitByte_toNat (by omega)]
      omega

/-- No leading zero. -/
theorem decimalDigits_first {fuel n : Nat} (h : n < 10 ^ fuel) (h0 : 0 < n) :
    ∃ c, (decimalDigits fuel n []).head? = some c ∧ 0x31 ≤ c.toNat ∧ c.toNat ≤ 0x39 := by
  induction fuel generalizing n with
  | zero => simp at h; omega
  | succ f ih =>
    unfold decimalDigits
    split
    · exact ⟨_, rfl, by rw [digitByte_toNat (by omega)]; omega⟩
    · rw [decimalDigits_acc]
      obtain ⟨c, hc, h1⟩ := ih (n := n / 10) (by rw [pow_succ] at h; omega) (by omega)
      exact ⟨c, by simp [List.head?_append, hc], h1⟩

theorem decimalDigits_length_le {fuel n k : Nat} (h : n < 10 ^ k) (hk : 0 < k) :
    (decimalDigits fuel n []).length ≤ k := by
  induction fuel generalizing n k with
  | zero => simp [decimalDigits]
  | succ f ih =>
    unfold decimalDigits
    split
    · simp
      omega
    · rw [decimalDigits_acc]
      simp only [List.length_append, List.length_singleton]
      obtain ⟨k, rfl⟩ : ∃ j, k = j + 1 := ⟨k - 1, by omega⟩
      rcases Nat.eq_zero_or_pos k with rfl | hk0
      · simp at h
        omega
      · have := ih (n := n / 10) (by rw [pow_succ] at h; omega) hk0
        omega

theorem decimalDigits_length_pos (fuel n : Nat) : 0 < (decimalDigits (fuel + 1) n []).length := by
  unfold decimalDigits
  split
  · simp
  · rw [decimalDigits_acc]
    simp

/-! ### Operations over a string in the buffer (rules R78, R83) -/

/-- Everything `parse_dec` can answer: a parser's answer, or BufferBounds. -/
theorem parseDec_cases (s : State) (addr n : Nat) :
    (∃ r, parseDec s addr n = .ok r) ∨ parseDec s addr n = .error (.bufferBounds addr n) := by
  unfold parseDec
  split
  · exact .inl ⟨_, rfl⟩
  · rcases memRead_cases s addr n with ⟨bs, h, -⟩ | h <;> rw [h]
    · exact .inl ⟨_, rfl⟩
    · exact .inr rfl

/-- Everything the choice of TRYE can answer. -/
theorem tryEncoding_cases (s : State) :
    (∃ r, tryEncoding s = .ok r) ∨ tryEncoding s = .error (.bufferBounds s.baseAddr s.strLen) := by
  unfold tryEncoding
  split
  · exact .inl ⟨_, rfl⟩
  · rcases parseDec_cases s s.baseAddr s.strLen with ⟨r, h⟩ | h <;> rw [h]
    · exact .inl ⟨_, rfl⟩
    · exact .inr rfl

end Sys2Proof.Machine
end

