-- ==== Sys2Proof/Laws/PerInstr.lean ====
section
/-! SUPPORT. Statements made per command, one lemma per constructor of Instr. -/

namespace Sys2Proof.Laws

/-- A command is well-formed, its byte is not reserved (rule R51), and the byte's fields are the ones of its row (rules
R48, R50). -/
def Encodable.Statement (i : Instr) : Prop :=
  i.wellFormed = true ∧ reservedCommand (encode i) = false ∧ cmdDryRun (encode i) = i.dryRun ∧
    cmdFunc (encode i) = i.func.toNat

theorem Encodable.dpls : Encodable.Statement .dpls := by unfold Encodable.Statement; decide
theorem Encodable.dpl : Encodable.Statement .dpl := by unfold Encodable.Statement; decide
theorem Encodable.splW : Encodable.Statement .splW := by unfold Encodable.Statement; decide
theorem Encodable.splD : Encodable.Statement .splD := by unfold Encodable.Statement; decide
theorem Encodable.pld : Encodable.Statement .pld := by unfold Encodable.Statement; decide
theorem Encodable.eenc : Encodable.Statement .eenc := by unfold Encodable.Statement; decide
theorem Encodable.dlen : Encodable.Statement .dlen := by unfold Encodable.Statement; decide
theorem Encodable.els : Encodable.Statement .els := by unfold Encodable.Statement; decide
theorem Encodable.seeW : Encodable.Statement .seeW := by unfold Encodable.Statement; decide
theorem Encodable.seeD : Encodable.Statement .seeD := by unfold Encodable.Statement; decide
theorem Encodable.isstr : Encodable.Statement .isstr := by unfold Encodable.Statement; decide
theorem Encodable.s2n : Encodable.Statement .s2n := by unfold Encodable.Statement; decide
theorem Encodable.trye : Encodable.Statement .trye := by unfold Encodable.Statement; decide
theorem Encodable.isz : Encodable.Statement .isz := by unfold Encodable.Statement; decide
theorem Encodable.savi : Encodable.Statement .savi := by unfold Encodable.Statement; decide
theorem Encodable.ldi : Encodable.Statement .ldi := by unfold Encodable.Statement; decide
theorem Encodable.incl : Encodable.Statement .incl := by unfold Encodable.Statement; decide

end Sys2Proof.Laws
end

