-- ==== Sys2Proof/Laws/Tags.lean ====
section
/-! SUPPORT. What a legal configuration gives (decision D37), and what the tag functions answer in one (rules R58 to R61,
R81, R84). -/

namespace Sys2Proof.Machine

/-! ### A legal configuration (decision D37) -/

theorem Params.legal_marker {p : Params} (h : p.legal = true) : p.prevlenBig ≤ p.prevlenMarker.toNat := by
  simp only [Params.legal, Bool.and_eq_true, Params.markerReadsAsLarge, decide_eq_true_eq] at h
  tauto

theorem Params.legal_window {p : Params} (h : p.legal = true) : p.bufLen ≤ 2 ^ 32 := by
  simp only [Params.legal, Bool.and_eq_true, Params.windowFits, decide_eq_true_eq] at h
  exact h.1.1.1.1.1.1

theorem Params.legal_ceilings {p : Params} (h : p.legal = true) : 21 ≤ p.strMaxLen ∧ 21 ≤ p.tryEncMaxLen := by
  simp only [Params.legal, Bool.and_eq_true, Params.s2nCeilingHigh, Params.tryeCeilingHigh, decide_eq_true_eq] at h
  tauto

theorem Params.legal_tags {p : Params} (h : p.legal = true) :
    p.tagNumbers.Nodup ∧ (∀ t ∈ p.fixedIntTags, 192 ≤ t.toNat) ∧ 192 ≤ p.immBase.toNat ∧
      p.immBase.toNat + p.immDecMax ≤ 255 ∧ p.immEncMax ≤ p.immDecMax := by
  simp only [Params.legal, Bool.and_eq_true, Params.tagsDistinct, Params.integerTagsMarked,
    Params.immediatesOrdered, decide_eq_true_eq, List.all_eq_true] at h
  tauto

/-- The listed values are legal for every window the address port reaches. -/
theorem Params.legal_listed {n : Nat} (h : n ≤ 2 ^ 32) : (Params.listed n).legal = true := by
  have h0 : Params.legal (Params.listed 0) = true := by decide
  simp only [Params.legal, Bool.and_eq_true] at h0 ⊢
  obtain ⟨⟨⟨⟨⟨⟨-, h2⟩, h3⟩, h4⟩, h5⟩, h6⟩, h7⟩ := h0
  exact ⟨⟨⟨⟨⟨⟨decide_eq_true h, h2⟩, h3⟩, h4⟩, h5⟩, h6⟩, h7⟩

/-! ### Classes (rules R59, R61) -/

/-- In a legal configuration each fixed-width tag has its own class. -/
theorem classifyTag_fixed {p : Params} (h : p.legal = true) :
    classifyTag p p.tagInt8 = .int8 ∧ classifyTag p p.tagInt16 = .int16 ∧ classifyTag p p.tagInt24 = .int24 ∧
      classifyTag p p.tagInt32 = .int32 ∧ classifyTag p p.tagInt64 = .int64 := by
  obtain ⟨hd, -⟩ := Params.legal_tags h
  simp only [Params.tagNumbers, Params.fixedIntTags, List.map_cons, List.map_nil, List.cons_append,
    List.nil_append, List.nodup_cons, List.mem_cons, not_or, BitVec.toNat_inj] at hd
  obtain ⟨⟨-, -, a3, a4, a5, a6, a7, -⟩, ⟨-, b2, b3, b4, b5, b6, -⟩, ⟨c1, c2, c3, c4, c5, -⟩, ⟨d1, d2, d3, d4, -⟩,
    ⟨e1, e2, e3, -⟩, ⟨f1, f2, -⟩, ⟨g1, -⟩, -⟩ := hd
  simp only [classifyTag]
  refine ⟨?_, ?_, ?_, ?_, ?_⟩ <;>
    simp [Ne.symm a3, Ne.symm a4, Ne.symm a5, Ne.symm a6, Ne.symm a7, Ne.symm b2, Ne.symm b3, Ne.symm b4, Ne.symm b5,
      Ne.symm b6, Ne.symm c1, Ne.symm c2, Ne.symm c3, Ne.symm c4, Ne.symm c5, Ne.symm d1, Ne.symm d2, Ne.symm d3,
      Ne.symm d4, Ne.symm e1, Ne.symm e2, Ne.symm e3, Ne.symm f1, Ne.symm f2, Ne.symm g1]

/-- In a legal configuration the tag `IMM_BASE + k` carries k. -/
theorem classifyTag_imm {p : Params} (h : p.legal = true) {k : Nat} (hk : k ≤ p.immDecMax) :
    classifyTag p (BitVec.ofNat 8 (p.immBase.toNat + k)) = .imm k := by
  obtain ⟨hd, -, -, hb, -⟩ := Params.legal_tags h
  have htn : (BitVec.ofNat 8 (p.immBase.toNat + k)).toNat = p.immBase.toNat + k := by simp; omega
  have hne : ∀ t ∈ [p.tagStr06, p.tagStr14, p.tagStr32] ++ p.fixedIntTags,
      BitVec.ofNat 8 (p.immBase.toNat + k) ≠ t := by
    rw [Params.tagNumbers, List.nodup_append] at hd
    intro t ht heq
    refine hd.2.2 t.toNat (List.mem_map_of_mem ht) (p.immBase.toNat + k) ?_ (by rw [← heq, htn])
    exact List.mem_map.2 ⟨k, by simp; omega, rfl⟩
  simp only [Params.fixedIntTags, List.cons_append, List.nil_append, List.mem_cons, List.not_mem_nil, or_false,
    forall_eq_or_imp, forall_eq] at hne
  obtain ⟨h1, h2, h3, h4, h5, h6, h7, h8⟩ := hne
  simp only [classifyTag, if_neg h1, if_neg h2, if_neg h3, if_neg h4, if_neg h5, if_neg h6, if_neg h7, if_neg h8, htn]
  rw [if_pos (by omega)]
  congr 1
  omega

/-- A tag's top bits say whether it is a string tag (rule R61). -/
theorem topBits_ne_three_iff {t : Byte} : t.extractLsb' 6 2 ≠ 3 ↔ isStringTag t = true := by
  revert t
  decide

theorem topBits_eq_three_iff {t : Byte} : t.extractLsb' 6 2 = 3 ↔ isStringTag t = false := by
  revert t
  decide

/-! ### Payload widths (rules R84, R85) -/

theorem integerWidth_some {p : Params} {t : Byte} {n : Nat} (h : payloadWidth (classifyTag p t) = some n) :
    integerWidth p t = .ok n := by
  rw [integerWidth, h]

theorem integerWidth_none {p : Params} {t : Byte} (h : payloadWidth (classifyTag p t) = none) :
    integerWidth p t = .error (.invalidIntegerEncoding t) := by
  rw [integerWidth, h]

theorem payloadWidth_values {k : EntryKind} {n : Nat} (h : payloadWidth k = some n) :
    n = 0 ∨ n = 1 ∨ n = 2 ∨ n = 3 ∨ n = 4 ∨ n = 8 := by
  cases k <;> simp_all [payloadWidth]

/-! ### What a header store writes and reports (rules R63, R64, R75, R76) -/

/-- Both modes of SEE answer together: a header of 1 to 5 bytes and its size, or the same fault. -/
theorem headerToStore_cases (s : State) :
    (∃ bs, headerToStore s = .ok bs ∧ headerSizeToStore s = .ok bs.length ∧ 0 < bs.length ∧ bs.length ≤ 5) ∨
    (headerToStore s = .error (.operandRange s.a) ∧ headerSizeToStore s = .error (.operandRange s.a)) := by
  unfold headerToStore headerSizeToStore
  cases hs : isStringTag s.enc
  · exact .inl ⟨_, rfl, rfl, by simp, by simp⟩
  · rcases Nat.lt_or_ge s.a.toNat (2 ^ 32) with hl | hl
    · refine .inl ⟨_, by rw [if_pos rfl, lengthOperand_fits hl, map_ok],
        by rw [if_pos rfl, lengthOperand_fits hl, map_ok]; simp, ?_, ?_⟩
      · rcases strHeaderSize_cases s.a.toNat with h | h | h <;> simp [h]
      · rcases strHeaderSize_cases s.a.toNat with h | h | h <;> simp [h]
    · exact .inr ⟨by rw [if_pos rfl, lengthOperand_tooLong hl, map_error],
        by rw [if_pos rfl, lengthOperand_tooLong hl, map_error]⟩

/-- DLEN's read: a header size and a length that fits 32 bits, or BufferBounds. -/
theorem decodedLength_cases (s : State) :
    (∃ r, decodedLength s = .ok r ∧ r.1 = headerSize (classifyTag s.params s.enc) ∧ r.2 < 2 ^ 32) ∨
    ∃ a n, decodedLength s = .error (.bufferBounds a n) := by
  unfold decodedLength
  cases classifyTag s.params s.enc
  · rcases memRead_cases s s.baseAddr 1 with ⟨bs, h, -⟩ | h
    · left
      simp only [h, bind_ok, pure_eq_ok]
      refine ⟨_, rfl, rfl, ?_⟩
      simp [bitField]
      omega
    · right
      simp only [h, bind_error]
      exact ⟨_, _, rfl⟩
  · rcases memRead_cases s s.baseAddr 2 with ⟨bs, h, -⟩ | h
    · left
      simp only [h, bind_ok, pure_eq_ok]
      refine ⟨_, rfl, rfl, ?_⟩
      simp only [str14Length, bitField]
      have := (bs.getD 1 0).isLt
      cases s.params.str14Layout <;> simp only <;> omega
    · right
      simp only [h, bind_error]
      exact ⟨_, _, rfl⟩
  · rcases memRead_cases s s.baseAddr 5 with ⟨bs, h, hl, -⟩ | h
    · left
      simp only [h, bind_ok, pure_eq_ok]
      refine ⟨_, rfl, rfl, ?_⟩
      have := leNat_lt bs.tail
      simp [hl] at this ⊢
      omega
    · right
      simp only [h, bind_error]
      exact ⟨_, _, rfl⟩
  all_goals exact .inl ⟨_, rfl, rfl, by norm_num⟩

end Sys2Proof.Machine
end

