-- ==== Sys2Proof/Tests/Slice0.lean ====
section
/-! SUPPORT. Tests.  Expected values come from the spec: the encodings of rule R50 and the vectors of
95_test_vectors.md, named at each test.  The witness theorems show, for every statement with hypotheses, concrete states
and operands that meet them together, each clause at a boundary of its range. -/

namespace Sys2Proof.Tests

open Sys2Proof.Machine

/-- A running unit over a window of n bytes that starts with bs. -/
def unit (n : Nat) (bs : List Byte) : State :=
  { State.reset with params := Params.listed n, buf := Memory.writeBytes [] 0 bs }

/-- The unit with one host action to come. -/
def unitDoing (act : HostAction) : State := { unit 16 [] with host := [act] }

/-- A halted unit: ISZ of a string tag faulted. -/
def halted : State := (unit 16 []).takeFault (.invalidIntegerEncoding 0x00)

/-- The next state of an outcome satisfies p. -/
def goesTo (o : Host.Outcome State Fault Refusal) (p : State → Bool) : Bool :=
  match o with
  | .next t => p t
  | .fault _ => false
  | .refused _ => false

/-- The ASCII bytes of a text. -/
def ascii (text : List Char) : List Byte := text.map (fun c => BitVec.ofNat 8 c.toNat)

/-- The ASCII bytes of decimal digits. -/
def digits (ds : List Nat) : List Byte := ds.map (fun d => BitVec.ofNat 8 (0x30 + d))

/-- A configuration that breaks the named constraint and no other. -/
def broken (f : Params → Params) : Params := f (Params.listed 16)

/-! ## WellFormed: an ill-formed term for each check, which the check refuses -/

theorem test_reserved_zero : reservedCommand 0x00 = true := by decide
theorem test_reserved_middle : reservedCommand 0x10 = true ∧ reservedCommand 0x7F = true := by decide
theorem test_reserved_dry_run : reservedCommand 0x81 = true ∧ reservedCommand 0xFF = true := by decide
theorem test_line_scalar_too_big : Line.wellFormed { instr := .splW, a := some (2 ^ 64) } = false := by decide
theorem test_line_scalar_too_small : Line.wellFormed { instr := .incl, a := some (-(2 ^ 63) - 1) } = false := by decide
theorem test_window_too_big : Params.windowFits (Params.listed (2 ^ 32 + 1)) = false := by decide
theorem test_marker_too_small :
    Params.markerReadsAsLarge (broken fun p => { p with prevlenMarker := 0xFD }) = false := by decide
theorem test_s2n_ceiling_low : Params.s2nCeilingHigh (broken fun p => { p with strMaxLen := 20 }) = false := by decide
theorem test_trye_ceiling_low :
    Params.tryeCeilingHigh (broken fun p => { p with tryEncMaxLen := 20 }) = false := by decide
theorem test_immediates_out_of_order :
    Params.immediatesOrdered (broken fun p => { p with immEncMax := 13 }) = false := by decide
theorem test_tags_equal : Params.tagsDistinct (broken fun p => { p with tagInt8 := 0xF1 }) = false := by decide
theorem test_integer_tag_unmarked :
    Params.integerTagsMarked (broken fun p => { p with tagInt8 := 0x3E }) = false := by decide
theorem test_immediate_tags_past_byte :
    Params.integerTagsMarked (broken fun p => { p with immBase := 0xF4 }) = false := by decide
theorem test_listed_legal : Params.legal (Params.listed 256) = true := by decide

/-! ## Decode: every row of rule R50, its byte written out as D, then FUNC -/

theorem test_decode_dpls : decode 0b0_0000001 = .ok .dpls := by decide
theorem test_decode_dpl : decode 0b0_0000010 = .ok .dpl := by decide
theorem test_decode_splW : decode 0b0_0000011 = .ok .splW := by decide
theorem test_decode_splD : decode 0b1_0000011 = .ok .splD := by decide
theorem test_decode_pld : decode 0b0_0000100 = .ok .pld := by decide
theorem test_decode_eenc : decode 0b0_0000101 = .ok .eenc := by decide
theorem test_decode_dlen : decode 0b0_0000110 = .ok .dlen := by decide
theorem test_decode_els : decode 0b0_0000111 = .ok .els := by decide
theorem test_decode_seeW : decode 0b0_0001000 = .ok .seeW := by decide
theorem test_decode_seeD : decode 0b1_0001000 = .ok .seeD := by decide
theorem test_decode_isstr : decode 0b0_0001001 = .ok .isstr := by decide
theorem test_decode_s2n : decode 0b0_0001010 = .ok .s2n := by decide
theorem test_decode_trye : decode 0b0_0001011 = .ok .trye := by decide
theorem test_decode_isz : decode 0b0_0001100 = .ok .isz := by decide
theorem test_decode_savi : decode 0b0_0001101 = .ok .savi := by decide
theorem test_decode_ldi : decode 0b0_0001110 = .ok .ldi := by decide
theorem test_decode_incl : decode 0b0_0001111 = .ok .incl := by decide
theorem test_decode_reserved : decode 0x84 = .error (.reserved 0x84) := by decide
theorem test_decode_table_word : decodeTableWord 8 0x88 = some .seeD := by decide
/-- The placed word is the command the next step runs. -/
theorem test_fetch : goesTo (step (State.reset.withFetchWord 8 0x09)) (fun t => t.out0 = some 1) = true := by decide

/-! ## One or two vectors per command (95_test_vectors.md, parts 1 and 2) -/

/-- 2.1: DPLS of `FE`, the only byte in the window. -/
theorem test_dpls_marker : goesTo (exec .dpls (unit 1 [0xFE])) (fun t => t.out0 = some 5) = true := by decide
/-- 2.1: DPL of `FF 2C 01 00 00`; the marker byte is not inspected. -/
theorem test_dpl_large : goesTo (exec .dpl (unit 16 [0xFF, 0x2C, 0x01, 0x00, 0x00]))
    (fun t => t.out0 = some 5 && t.out1 = some 300) = true := by decide
/-- 2.6: DPL with `FE 01` and BUF_LEN = 2 writes no port. -/
theorem test_dpl_truncated : goesTo (exec .dpl (unit 2 [0xFE, 0x01]))
    (fun t => t.status = 0x41 && t.out0 = none && t.out1 = none) = true := by decide
/-- 1.1: SPL.W of 254. -/
theorem test_splW_threshold : goesTo (exec .splW { unit 16 [] with a := 254 })
    (fun t => t.buf.readBytes 0 5 = [0xFE, 0xFE, 0x00, 0x00, 0x00] && t.out0 = some 5) = true := by decide
/-- 2.1: SPL.W of 2^32. -/
theorem test_splW_operand_range : goesTo (exec .splW { unit 16 [] with a := 0x100000000 })
    (fun t => t.status = 0x21 && t.buf = [] && t.out0 = none) = true := by decide
/-- 2.1: SPL.D reads no BASE. -/
theorem test_splD_base_unread : goesTo (exec .splD { unit 16 [] with base := 0xFFFFFFFF, a := 7 })
    (fun t => t.out0 = some 1 && t.status = 0x00) = true := by decide
/-- 2.1: PLD of `FE` against 10 is −4. -/
theorem test_pld_narrowing : goesTo (exec .pld { unit 16 [0xFE] with a := 10 })
    (fun t => t.out0 = some 0xFFFFFFFFFFFFFFFC) = true := by decide
/-- 2.1: OperandRange comes before the read. -/
theorem test_pld_order : goesTo (exec .pld { unit 16 [] with base := 16, a := 0x100000000 })
    (fun t => t.status = 0x21) = true := by decide
/-- 2.2: EENC of 0x7F and of 0xC1. -/
theorem test_eenc_string : goesTo (exec .eenc (unit 16 [0x7F])) (fun t => t.renc = some 0x40) = true := by decide
theorem test_eenc_other : goesTo (exec .eenc (unit 16 [0xC1])) (fun t => t.renc = some 0xC1) = true := by decide
/-- 2.2: DLEN of `41 2C` under 0x40, and of the low bits of `BF` under 0x80. -/
theorem test_dlen_str14 : goesTo (exec .dlen { unit 16 [0x41, 0x2C] with enc := 0x40 })
    (fun t => t.out0 = some 2 && t.out1 = some 300 && t.ok = some true) = true := by decide
theorem test_dlen_str32 : goesTo (exec .dlen { unit 16 [0xBF, 0x05, 0x00, 0x00, 0x00] with enc := 0x80 })
    (fun t => t.out0 = some 5 && t.out1 = some 5) = true := by decide
/-- 2.2: ELS of 0x80 and of 0xCF. -/
theorem test_els_str32 : goesTo (exec .els { unit 0 [] with enc := 0x80 })
    (fun t => t.out0 = some 5 && t.ok = some true) = true := by decide
theorem test_els_invalid : goesTo (exec .els { unit 0 [] with enc := 0xCF })
    (fun t => t.out0 = some 0 && t.ok = some false && t.status = 0x00) = true := by decide
/-- 1.2: SEE.W of 16383; 2.2: an integer tag is not validated and A is not read. -/
theorem test_seeW_two_bytes : goesTo (exec .seeW { unit 16 [] with a := 16383 })
    (fun t => t.buf.readBytes 0 2 = [0x7F, 0xFF] && t.out0 = some 2) = true := by decide
theorem test_seeW_integer_tag : goesTo (exec .seeW { unit 16 [] with enc := 0xC1, a := 0x100000000 })
    (fun t => t.buf.readBytes 0 1 = [0xC1] && t.out0 = some 1) = true := by decide
/-- 1.2: SEE.D of 16384. -/
theorem test_seeD_five_bytes : goesTo (exec .seeD { unit 0 [] with a := 16384 }) (fun t => t.out0 = some 5) = true := by
  decide
/-- 2.2: ISSTR of 0xBF and of 0xC0. -/
theorem test_isstr_last_string : goesTo (exec .isstr { unit 0 [] with enc := 0xBF }) (fun t => t.out0 = some 1) = true := by
  decide
theorem test_isstr_first_integer : goesTo (exec .isstr { unit 0 [] with enc := 0xC0 }) (fun t => t.out0 = some 0) = true := by
  decide
/-- 2.3: S2N of "-129"; of "18446744073709551616", whose kind is OverFlowAdd. -/
theorem test_s2n_negative : goesTo (exec .s2n { unit 16 (ascii ['-', '1', '2', '9']) with slen := 4 })
    (fun t => t.out0 = some 0xFFFFFFFFFFFFFF7F && t.err = some 0 && t.ok = some true) = true := by decide
theorem test_s2n_overflow_add :
    goesTo (exec .s2n { unit 32 (digits [1, 8, 4, 4, 6, 7, 4, 4, 0, 7, 3, 7, 0, 9, 5, 5, 1, 6, 1, 6]) with slen := 20 })
      (fun t => t.out0 = some 0 && t.err = some 5 && t.ok = some false) = true := by decide
/-- 2.3: TRYE of "-129" chooses TAG_INT16 and leaves ERR; of "007" is absent. -/
theorem test_trye_int16 : goesTo (exec .trye { unit 16 (ascii ['-', '1', '2', '9']) with slen := 4 })
    (fun t => t.out0 = some 0xFFFFFFFFFFFFFF7F && t.renc = some 0xC0 && t.err = none) = true := by decide
theorem test_trye_absent : goesTo (exec .trye { unit 16 (ascii ['0', '0', '7']) with slen := 3 })
    (fun t => t.out0 = some 0 && t.renc = some 0 && t.ok = some false) = true := by decide
/-- 2.3: ISZ of 0xFD and of 0x80. -/
theorem test_isz_immediate : goesTo (exec .isz { unit 0 [] with enc := 0xFD }) (fun t => t.out0 = some 0) = true := by decide
theorem test_isz_string : goesTo (exec .isz { unit 0 [] with enc := 0x80 })
    (fun t => t.status = 0x31 && t.out0 = none) = true := by decide
/-- 2.4: SAVI of −129 as INT16; of 300 as INT8, truncated. -/
theorem test_savi_int16 : goesTo (exec .savi { unit 16 [] with a := 0xFFFFFFFFFFFFFF7F, enc := 0xC0 })
    (fun t => t.buf.readBytes 0 3 = [0x7F, 0xFF, 0x00] && t.out0 = some 2) = true := by decide
theorem test_savi_truncates : goesTo (exec .savi { unit 16 [] with a := 300, enc := 0xFE })
    (fun t => t.buf.readBytes 0 2 = [0x2C, 0x00] && t.out0 = some 1) = true := by decide
/-- 2.4: LDI of `00 00 80` as INT24; of the immediate 0xFD. -/
theorem test_ldi_int24 : goesTo (exec .ldi { unit 16 [0x00, 0x00, 0x80] with enc := 0xF0 })
    (fun t => t.out0 = some 0xFFFFFFFFFF800000) = true := by decide
theorem test_ldi_immediate : goesTo (exec .ldi { unit 0 [] with enc := 0xFD }) (fun t => t.out0 = some 12) = true := by
  decide
/-- 2.5: INCL of `00 FF` by 1000 clamps; of `00 00` by −1 underflows. -/
theorem test_incl_clamps : goesTo (exec .incl { unit 16 [0, 0, 0, 0, 0, 0, 0, 0, 0x00, 0xFF] with a := 1000 })
    (fun t => t.buf.readBytes 8 2 = [0xFF, 0xFF] && t.out0 = some 65535) = true := by decide
/-- 95_test_vectors.md program P3: "After line 10 the count no longer states the number of elements"; the two counter
bytes 0xFE 0xFF before it still do. -/
theorem test_saturated_count_states_nothing :
    goesTo (exec .incl { unit 16 [0, 0, 0, 0, 0, 0, 0, 0, 0xFE, 0xFF] with a := 1 }) (fun t => t.statedCount == none) = true ∧
    (unit 16 [0, 0, 0, 0, 0, 0, 0, 0, 0xFE, 0xFF]).statedCount = some 65534 := by decide

theorem test_incl_underflow : goesTo (exec .incl { unit 16 [] with a := 0xFFFFFFFFFFFFFFFF })
    (fun t => t.status = 0x51 && t.buf = [] && t.out0 = none) = true := by decide
/-- 2.6: a second command while halted is refused. -/
theorem test_refused : goesTo (exec .isz { halted with enc := 0xFE })
    (fun t => t.status = 0x31 && t.out0 = none && t.runRefused && !t.successful) = true := by decide
/-- Rule R53: a named `a=-1` is its 64-bit two's complement. -/
theorem test_line_actions : lineActions { instr := .incl, base := some 0, a := some (-1) } =
    [.setBase 0, .setA 0xFFFFFFFFFFFFFFFF, .command 0x0F] := by decide
/-- P1 line 5: `host.string`. -/
theorem test_host_string : hostString 6 ['h', 'i'] = .writeBytes 6 [0x68, 0x69] := by decide

/-! ## Witnesses: states and operands that meet the hypotheses of a statement, one per clause, at a boundary -/

theorem witness_CommandCodesOfTheTable :
    ∀ b ∈ [0x00#8, 0x10, 0x7F, 0x82, 0x84, 0x87, 0x89, 0xFF], b ∉ [0x01#8, 0x02#8, 0x03#8, 0x83#8, 0x04#8, 0x05#8,
      0x06#8, 0x07#8, 0x08#8, 0x88#8, 0x09#8, 0x0A#8, 0x0B#8, 0x0C#8, 0x0D#8, 0x0E#8, 0x0F#8] := by decide

theorem witness_DecodeAndEncodeAgree : decode 0x83 = .ok .splD := by decide

theorem witness_ReservedCommandRaisesIllegalCommand :
    ∀ b ∈ [0x00#8, 0x10, 0x7F, 0x80, 0x82, 0x84, 0x87, 0x89, 0xFF],
      (unitDoing (.command b)).params.legal = true ∧ (unitDoing (.command b)).halt = false ∧
      (unitDoing (.command b)).host = .command b :: [] ∧
      (b = 0x00 ∨ (0x10 ≤ b.toNat ∧ b.toNat ≤ 0x7F) ∨ (0x80 ≤ b.toNat ∧ b ≠ 0x83 ∧ b ≠ 0x88)) := by decide

theorem witness_StepRunsDecodedCommand :
    (unitDoing (.command 0x88)).params.legal = true ∧ (unitDoing (.command 0x88)).host = .command 0x88 :: [] ∧
    decode 0x88 = .ok .seeD ∧ Instr.wellFormed .seeD = true := by decide

/-- An access of no byte past the window, one that ends at its last byte, one that ends a byte later. -/
theorem witness_AccessesCheckTheWholeRange :
    (unit 16 [0xFE]).buf.wf = true ∧ ((0 : Nat) = 0 ∨ 17 + 0 ≤ (unit 16 []).params.bufLen) ∧
    13 + 3 ≤ (unit 16 []).params.bufLen ∧ (unit 16 []).params.bufLen < 14 + 3 ∧
    14 + [0x01#8, 0x02].length ≤ (unit 16 []).params.bufLen ∧
    (0 < [0x01#8, 0x02].length ∧ (unit 16 []).params.bufLen < 15 + [0x01#8, 0x02].length) := by decide

theorem witness_DplsReportsFieldSize :
    (unit 1 [0xFE]).halt = false ∧ (unit 1 [0xFE]).base.toNat + 1 ≤ (unit 1 [0xFE]).params.bufLen ∧
    (unit 0 []).halt = false ∧ (unit 0 []).params.bufLen < (unit 0 []).base.toNat + 1 := by decide

theorem witness_DplDecodesPreviousLength :
    (let s := unit 1 [0xFD]
     s.halt = false ∧ s.base.toNat + 1 ≤ s.params.bufLen ∧ (s.buf.read s.base.toNat).toNat < s.params.prevlenBig) ∧
    (let s := unit 5 [0xFE]
     s.halt = false ∧ s.base.toNat + 5 ≤ s.params.bufLen ∧ s.params.prevlenBig ≤ (s.buf.read s.base.toNat).toNat) ∧
    (let s := unit 0 []
     s.halt = false ∧ s.params.bufLen < s.base.toNat + 1) ∧
    (let s := unit 4 [0xFE]
     s.halt = false ∧ s.base.toNat + 1 ≤ s.params.bufLen ∧ s.params.bufLen < s.base.toNat + 5 ∧
       s.params.prevlenBig ≤ (s.buf.read s.base.toNat).toNat) := by decide

theorem witness_SplWStoresPreviousLength :
    (let s := { unit 16 [] with a := 0x100000000 }
     s.halt = false ∧ 2 ^ 32 ≤ s.a.toNat) ∧
    (let s := { unit 16 [] with a := 253, base := 15 }
     s.halt = false ∧ s.a.toNat < s.params.prevlenBig ∧ s.a.toNat < 2 ^ 32 ∧ s.base.toNat + 1 ≤ s.params.bufLen) ∧
    (let s := { unit 16 [] with a := 253, base := 16 }
     s.halt = false ∧ s.a.toNat < s.params.prevlenBig ∧ s.a.toNat < 2 ^ 32 ∧ s.params.bufLen < s.base.toNat + 1) ∧
    (let s := { unit 16 [] with a := 254, base := 11 }
     s.halt = false ∧ s.params.prevlenBig ≤ s.a.toNat ∧ s.a.toNat < 2 ^ 32 ∧ s.base.toNat + 5 ≤ s.params.bufLen) ∧
    (let s := { unit 16 [] with a := 0xFFFFFFFF, base := 12 }
     s.halt = false ∧ s.params.prevlenBig ≤ s.a.toNat ∧ s.a.toNat < 2 ^ 32 ∧
       s.params.bufLen < s.base.toNat + 5) := by decide

theorem witness_SplDReportsSizeOnly :
    (let s := { unit 16 [] with a := 0x100000000 }
     s.halt = false ∧ 2 ^ 32 ≤ s.a.toNat) ∧
    (let s := { unit 16 [] with a := 0xFFFFFFFF }
     s.halt = false ∧ s.a.toNat < 2 ^ 32 ∧ goesTo (exec .splW s) (fun t => !t.halt) = true) := by decide

theorem witness_PldReportsSizeDifference :
    (let s := { unit 16 [] with a := 0x100000000 }
     s.halt = false ∧ 2 ^ 32 ≤ s.a.toNat) ∧
    (let s := { unit 16 [] with a := 0xFFFFFFFF, base := 16 }
     s.halt = false ∧ s.a.toNat < 2 ^ 32 ∧ s.params.bufLen < s.base.toNat + 1) ∧
    (let s := { unit 16 [] with a := 0xFFFFFFFF, base := 15 }
     s.halt = false ∧ s.a.toNat < 2 ^ 32 ∧ s.base.toNat + 1 ≤ s.params.bufLen) := by decide

theorem witness_PreviousLengthRoundTrip :
    ∀ s ∈ [{ unit 16 [0xAA] with a := 253, base := 15 }, { unit 16 [0xAA] with a := 254, base := 11 },
        { unit 16 [0xAA] with a := 0xFFFFFFFF }],
      s.halt = false ∧ s.params.legal = true ∧ s.buf.wf = true ∧ s.a.toNat < 2 ^ 32 ∧
      s.base.toNat + prevlenSize s.params s.a.toNat ≤ s.params.bufLen := by decide

theorem witness_EencReportsTag :
    (unit 1 [0xBF]).halt = false ∧ (unit 1 [0xBF]).base.toNat + 1 ≤ (unit 1 [0xBF]).params.bufLen ∧
    (unit 0 []).halt = false ∧ (unit 0 []).params.bufLen < (unit 0 []).base.toNat + 1 := by decide

/-- Each class of rule R59, each string class at the last base where its bytes fit and at the next one. -/
theorem witness_DlenDecodesByEncClass :
    let s := fun (t : Byte) (b : Addr) => { unit 16 [] with enc := t, base := b }
    (∀ t b, (s t b).halt = false ∧ (s t b).params.str14Layout = .be ∧ (s t b).params.bufLen = 16) ∧
    (classifyTag (s 0x00 15).params 0x00 = .str6 ∧ (s 0x00 15).base.toNat + 1 ≤ 16 ∧ 16 < (s 0x00 16).base.toNat + 1) ∧
    (classifyTag (s 0x40 14).params 0x40 = .str14 ∧ (s 0x40 14).base.toNat + 2 ≤ 16 ∧
      16 < (s 0x40 15).base.toNat + 2) ∧
    (classifyTag (s 0x80 11).params 0x80 = .str32 ∧ (s 0x80 11).base.toNat + 5 ≤ 16 ∧
      16 < (s 0x80 12).base.toNat + 5) ∧
    classifyTag (s 0xFE 16).params 0xFE = .int8 ∧ classifyTag (s 0xC0 16).params 0xC0 = .int16 ∧
    classifyTag (s 0xF0 16).params 0xF0 = .int24 ∧ classifyTag (s 0xD0 16).params 0xD0 = .int32 ∧
    classifyTag (s 0xE0 16).params 0xE0 = .int64 ∧ classifyTag (s 0xF1 16).params 0xF1 = .imm 0 ∧
    classifyTag (s 0xFD 16).params 0xFD = .imm 12 ∧ classifyTag (s 0xFF 16).params 0xFF = .invalid := by
  refine ⟨fun t b => ⟨rfl, rfl, rfl⟩, ?_⟩
  decide

theorem witness_ElsReportsHeaderSize :
    (let s := { unit 0 [] with enc := 0xFF }
     s.halt = false ∧ classifyTag s.params s.enc = .invalid) ∧
    (let s := { unit 0 [] with enc := 0xFD }
     s.halt = false ∧ classifyTag s.params s.enc ≠ .invalid ∧ goesTo (exec .els s) (fun _ => true) = true ∧
       goesTo (exec .dlen s) (fun u => !u.halt) = true) := by decide

theorem witness_SeeWStoresHeader :
    (let s := { unit 16 [] with enc := 0xBF, a := 0x100000000 }
     s.halt = false ∧ s.enc.extractLsb' 6 2 ≠ 3 ∧ 2 ^ 32 ≤ s.a.toNat) ∧
    (let s := { unit 16 [] with enc := 0xBF, a := 63, base := 15 }
     s.halt = false ∧ s.enc.extractLsb' 6 2 ≠ 3 ∧ s.a.toNat ≤ 63 ∧ s.base.toNat + 1 ≤ s.params.bufLen ∧
       s.params.bufLen < (s.base + 1).toNat + 1) ∧
    (let s := { unit 16 [] with enc := 0x00, a := 64, base := 14 }
     s.halt = false ∧ s.enc.extractLsb' 6 2 ≠ 3 ∧ 63 < s.a.toNat ∧ s.a.toNat ≤ 16383 ∧
       s.params.str14Layout = .be ∧ s.base.toNat + 2 ≤ s.params.bufLen ∧ s.params.bufLen < (s.base + 1).toNat + 2) ∧
    (let s := { unit 16 [] with enc := 0x00, a := 16384, base := 11 }
     s.halt = false ∧ s.enc.extractLsb' 6 2 ≠ 3 ∧ 16383 < s.a.toNat ∧ s.a.toNat < 2 ^ 32 ∧
       s.base.toNat + 5 ≤ s.params.bufLen ∧ s.params.bufLen < (s.base + 1).toNat + 5) ∧
    (let s := { unit 16 [] with enc := 0xC0, base := 15 }
     s.halt = false ∧ s.enc.extractLsb' 6 2 = 3 ∧ s.base.toNat + 1 ≤ s.params.bufLen ∧
       s.params.bufLen < (s.base + 1).toNat + 1) := by decide

theorem witness_SeeDReportsSizeOnly :
    (let s := { unit 0 [] with enc := 0xBF, a := 0x100000000 }
     s.halt = false ∧ s.enc.extractLsb' 6 2 ≠ 3 ∧ 2 ^ 32 ≤ s.a.toNat) ∧
    (let s := { unit 0 [] with enc := 0xBF, a := 0xFFFFFFFF }
     s.halt = false ∧ s.enc.extractLsb' 6 2 ≠ 3 ∧ s.a.toNat < 2 ^ 32) ∧
    (let s := { unit 0 [] with enc := 0xC0 }
     s.halt = false ∧ s.enc.extractLsb' 6 2 = 3) := by decide

theorem witness_SeeDryRunEquivalence :
    (unit 16 []).halt = false ∧ goesTo (exec .seeW { unit 16 [] with a := 16384 }) (fun t => !t.halt) = true := by decide

theorem witness_IsstrReportsStringClass : (unit 0 []).halt = false := by decide

/-- The longest length of each header size, at the last base where the header fits. -/
theorem witness_StringHeaderRoundTrip :
    ∀ s ∈ [{ unit 16 [0xAA] with a := 63, base := 15 }, { unit 16 [0xAA] with a := 16383, base := 14 },
        { unit 16 [0xAA] with a := 0xFFFFFFFF, base := 11, enc := 0xBF }],
      s.halt = false ∧ s.params.legal = true ∧ s.buf.wf = true ∧ s.params.tagStr06 = 0x00 ∧ s.params.tagStr14 = 0x40 ∧
      s.params.tagStr32 = 0x80 ∧ s.params.tagStrMask = 0xC0 ∧ s.enc.extractLsb' 6 2 ≠ 3 ∧ s.a.toNat < 2 ^ 32 ∧
      s.base.toNat + strHeaderSize s.a.toNat ≤ s.params.bufLen := by decide

/-- The entries of programs P1 (a string after a 300-byte predecessor) and P2 (the integer −129). -/
theorem witness_CommandsReadTheEntryRecord :
    (let s := unit 11 [0xFE, 0x2C, 0x01, 0x00, 0x00, 0x05, 0x68, 0x65, 0x6C, 0x6C, 0x6F]
     let e : Entry :=
       { prevLen := 300, prevLenSize := 5, encoding := 0x00, lenSize := 1, contentLen := 5,
         content := .string [0x68, 0x65, 0x6C, 0x6C, 0x6F] }
     s.halt = false ∧ s.params = Params.listed 11 ∧ entryAt s.params s.buf s.base.toNat = some e ∧
       (5 : Addr).toNat = s.base.toNat + e.prevLenSize ∧ (5 : Addr).toNat + e.lenSize ≤ 11 ∧ entrySize e = 11) ∧
    (let s := unit 2 [0x0B, 0xFD]
     let e : Entry :=
       { prevLen := 11, prevLenSize := 1, encoding := 0xFD, lenSize := 1, contentLen := 0, content := .integer 12 }
     s.halt = false ∧ s.params = Params.listed 2 ∧ entryAt s.params s.buf s.base.toNat = some e ∧
       (1 : Addr).toNat = s.base.toNat + e.prevLenSize ∧ (1 : Addr).toNat + e.lenSize ≤ 2) := by decide

/-- The seven ERR numbers of rule R92, each from a string that gives its kind. -/
theorem witness_S2nParsesTheString_codes :
    goesTo (exec .s2n (unit 16 [])) (fun t => t.err = some 1) = true ∧
    ∀ e ∈ [(ascii ['0', '0', '7'], ErrKind.invalidFirstDigit, 2#4), (ascii ['1', 'x'], .invalidChar, 3),
        (digits [9, 9, 9, 9, 9, 9, 9, 9, 9, 9, 9, 9, 9, 9, 9, 9, 9, 9, 9, 9], .overFlowMul, 4),
        (digits [1, 8, 4, 4, 6, 7, 4, 4, 0, 7, 3, 7, 0, 9, 5, 5, 1, 6, 1, 6], .overFlowAdd, 5),
        (ascii ['-'] ++ digits [9, 2, 2, 3, 3, 7, 2, 0, 3, 6, 8, 5, 4, 7, 7, 5, 8, 0, 9], .overFlowNegative, 6),
        (digits [9, 2, 2, 3, 3, 7, 2, 0, 3, 6, 8, 5, 4, 7, 7, 5, 8, 0, 8], .overFlowPositive, 7)],
      let s := { unit 20 e.1 with slen := BitVec.ofNat 32 e.1.length }
      s.base.toNat + s.slen.toNat ≤ s.params.bufLen ∧ parseString (s.buf.readBytes 0 e.1.length) = .error e.2.1 ∧
        goesTo (exec .s2n s) (fun t => t.err = some e.2.2) = true := by decide

theorem witness_S2nParsesTheString :
    (let s := { unit 16 [] with slen := 0 }
     s.halt = false ∧ (s.slen.toNat = 0 ∨ s.params.strMaxLen ≤ s.slen.toNat)) ∧
    (let s := { unit 16 [] with slen := 21 }
     s.halt = false ∧ (s.slen.toNat = 0 ∨ s.params.strMaxLen ≤ s.slen.toNat)) ∧
    (let s := { unit 16 [] with slen := 1, base := 16 }
     s.halt = false ∧ 0 < s.slen.toNat ∧ s.slen.toNat < s.params.strMaxLen ∧
       s.params.bufLen < s.base.toNat + s.slen.toNat) ∧
    (let s := { unit 2 (ascii ['-', '7']) with slen := 2 }
     s.halt = false ∧ 0 < s.slen.toNat ∧ s.slen.toNat < s.params.strMaxLen ∧
       s.base.toNat + s.slen.toNat ≤ s.params.bufLen ∧
       parseString (s.buf.readBytes s.base.toNat s.slen.toNat) = .ok (-7)) ∧
    (let s := { unit 20 (digits [9, 9, 9, 9, 9, 9, 9, 9, 9, 9, 9, 9, 9, 9, 9, 9, 9, 9, 9, 9]) with slen := 20 }
     s.halt = false ∧ 0 < s.slen.toNat ∧ s.slen.toNat < s.params.strMaxLen ∧
       s.base.toNat + s.slen.toNat ≤ s.params.bufLen ∧
       parseString (s.buf.readBytes s.base.toNat s.slen.toNat) = .error .overFlowMul) := by decide

/-- The decimal value of digits, as rule R78 accumulates it. -/
def value (body : List Byte) : Nat := body.foldl (fun v c => v * 10 + (c.toNat - 0x30)) 0

/-- A string of 1 to 20 bytes that is not "0". -/
abbrev Short (bs : List Byte) : Prop := 0 < bs.length ∧ bs.length ≤ 20 ∧ bs ≠ [0x30]

abbrev GoodFirst (body : List Byte) : Prop := ∃ c, body.head? = some c ∧ 0x31 ≤ c.toNat ∧ c.toNat ≤ 0x39

abbrev GoodRest (body : List Byte) : Prop := ∀ c ∈ body, 0x30 ≤ c.toNat ∧ c.toNat ≤ 0x39

/-- No good first digit: "00", and "-" alone. -/
theorem witness_ParserErrorKinds_first :
    Short [0x30, 0x30] ∧ ¬ GoodFirst [0x30, 0x30] ∧ Short [0x2D] ∧ [0x2D#8].head? = some 0x2D ∧
      ¬ GoodFirst [0x2D#8].tail := by decide

/-- A bad later character: "1a". -/
theorem witness_ParserErrorKinds_char : Short [0x31, 0x61] ∧ GoodFirst [0x31, 0x61] ∧ ¬ GoodRest [0x31, 0x61] := by
  decide

/-- The least 20-digit overflow by multiplication and the least by addition. -/
theorem witness_ParserErrorKinds_overflow :
    (let bs := digits [1, 8, 4, 4, 6, 7, 4, 4, 0, 7, 3, 7, 0, 9, 5, 5, 1, 6, 2, 0]
     Short bs ∧ GoodFirst bs ∧ GoodRest bs ∧ 2 ^ 64 ≤ value bs ∧ (2 ^ 64 - 1) / 10 < value bs / 10) ∧
    (let bs := digits [1, 8, 4, 4, 6, 7, 4, 4, 0, 7, 3, 7, 0, 9, 5, 5, 1, 6, 1, 6]
     Short bs ∧ GoodFirst bs ∧ GoodRest bs ∧ 2 ^ 64 ≤ value bs ∧ value bs / 10 ≤ (2 ^ 64 - 1) / 10) :=
  ⟨⟨by decide, ⟨0x31, by decide⟩, by decide⟩, ⟨by decide, ⟨0x31, by decide⟩, by decide⟩⟩

/-- The two sides of the least signed number. -/
theorem witness_ParserErrorKinds_negative :
    (let bs := 0x2D :: digits [9, 2, 2, 3, 3, 7, 2, 0, 3, 6, 8, 5, 4, 7, 7, 5, 8, 0, 9]
     Short bs ∧ bs.head? = some 0x2D ∧ GoodFirst bs.tail ∧ GoodRest bs.tail ∧ value bs.tail < 2 ^ 64 ∧
       2 ^ 63 < value bs.tail) ∧
    (let bs := 0x2D :: digits [9, 2, 2, 3, 3, 7, 2, 0, 3, 6, 8, 5, 4, 7, 7, 5, 8, 0, 8]
     Short bs ∧ bs.head? = some 0x2D ∧ GoodFirst bs.tail ∧ GoodRest bs.tail ∧ value bs.tail < 2 ^ 64 ∧
       value bs.tail ≤ 2 ^ 63) :=
  ⟨⟨by decide, by decide, ⟨0x39, by decide⟩, by decide⟩, ⟨by decide, by decide, ⟨0x39, by decide⟩, by decide⟩⟩

/-- The two sides of the greatest signed number. -/
theorem witness_ParserErrorKinds_positive :
    (let bs := digits [9, 2, 2, 3, 3, 7, 2, 0, 3, 6, 8, 5, 4, 7, 7, 5, 8, 0, 8]
     Short bs ∧ bs.head? ≠ some 0x2D ∧ GoodFirst bs ∧ GoodRest bs ∧ value bs < 2 ^ 64 ∧ 2 ^ 63 ≤ value bs) ∧
    (let bs := digits [9, 2, 2, 3, 3, 7, 2, 0, 3, 6, 8, 5, 4, 7, 7, 5, 8, 0, 7]
     Short bs ∧ bs.head? ≠ some 0x2D ∧ GoodFirst bs ∧ GoodRest bs ∧ value bs < 2 ^ 63) :=
  ⟨⟨by decide, by decide, ⟨0x39, by decide⟩, by decide⟩, ⟨by decide, by decide, ⟨0x39, by decide⟩, by decide⟩⟩

theorem witness_S2nAcceptsCanonicalDecimals :
    (let s := { unit 20 (0x2D :: digits [9, 2, 2, 3, 3, 7, 2, 0, 3, 6, 8, 5, 4, 7, 7, 5, 8, 0, 8]) with slen := 20 }
     s.halt = false ∧ s.params.legal = true ∧ s.slen.toNat = (canonicalDecimal (-(2 ^ 63))).length ∧
       s.base.toNat + s.slen.toNat ≤ s.params.bufLen ∧
       s.buf.readBytes s.base.toNat s.slen.toNat = canonicalDecimal (-(2 ^ 63))) ∧
    (let s := { unit 1 (ascii ['0']) with slen := 1 }
     s.halt = false ∧ s.params.legal = true ∧ s.slen.toNat = (canonicalDecimal 0).length ∧
       s.base.toNat + s.slen.toNat ≤ s.params.bufLen ∧
       s.buf.readBytes s.base.toNat s.slen.toNat = canonicalDecimal 0) := by decide +kernel

theorem witness_S2nAcceptsOnlyCanonicalDecimals :
    (unit 2 (ascii ['-', '7'])).halt = false ∧
    goesTo (exec .s2n { unit 2 (ascii ['-', '7']) with slen := 2 }) (fun t => !t.halt && t.ok = some true) = true := by
  decide

theorem witness_TryeChoosesIntegerStorage :
    (∀ n ∈ [0, 21, 31, 32],
      let s := { unit 16 [] with slen := BitVec.ofNat 32 n }
      s.halt = false ∧
        (s.slen.toNat = 0 ∨ s.params.tryEncMaxLen ≤ s.slen.toNat ∨ s.params.strMaxLen ≤ s.slen.toNat)) ∧
    (let s := { unit 16 [] with slen := 20 }
     s.halt = false ∧ 0 < s.slen.toNat ∧ s.slen.toNat < s.params.tryEncMaxLen ∧ s.slen.toNat < s.params.strMaxLen ∧
       s.params.bufLen < s.base.toNat + s.slen.toNat) ∧
    (let s := { unit 2 (ascii ['1', '1']) with slen := 2 }
     s.halt = false ∧ 0 < s.slen.toNat ∧ s.slen.toNat < s.params.tryEncMaxLen ∧ s.slen.toNat < s.params.strMaxLen ∧
       s.base.toNat + s.slen.toNat ≤ s.params.bufLen ∧
       parseString (s.buf.readBytes s.base.toNat s.slen.toNat) = .ok 11) ∧
    (let s := { unit 2 (ascii ['0', '7']) with slen := 2 }
     s.halt = false ∧ 0 < s.slen.toNat ∧ s.slen.toNat < s.params.tryEncMaxLen ∧ s.slen.toNat < s.params.strMaxLen ∧
       s.base.toNat + s.slen.toNat ≤ s.params.bufLen ∧
       parseString (s.buf.readBytes s.base.toNat s.slen.toNat) = .error .invalidFirstDigit) := by decide

theorem witness_CeilingsDoNotChangeTrye :
    let s := { unit 21 (digits [1, 2, 3, 4, 5, 6, 7, 8, 9, 0, 1, 2, 3, 4, 5, 6, 7, 8, 9, 0, 1]) with slen := 21 }
    s.halt = false ∧ s.params.legal = true ∧ 21 ≤ 22 ∧ 21 ≤ 21 ∧ s.base.toNat + s.slen.toNat ≤ s.params.bufLen := by
  decide

theorem witness_SelectEncodingTakesTheSmallestWidth :
    (Params.listed 16).legal = true ∧
    (∀ v ∈ [(0 : Int), 11], -(2 ^ 63) ≤ v ∧ v ≤ 2 ^ 63 - 1 ∧ 0 ≤ v ∧ v ≤ (Params.listed 16).immEncMax) ∧
    ∀ v ∈ [(12 : Int), -1, -(2 ^ 63), 2 ^ 63 - 1],
      -(2 ^ 63) ≤ v ∧ v ≤ 2 ^ 63 - 1 ∧ ¬ (0 ≤ v ∧ v ≤ (Params.listed 16).immEncMax) := by decide

theorem witness_IszReportsPayloadWidth :
    (unit 0 []).halt = false ∧
    (let k := classifyTag (unit 0 []).params
     k 0xFE = .int8 ∧ k 0xC0 = .int16 ∧ k 0xF0 = .int24 ∧ k 0xD0 = .int32 ∧ k 0xE0 = .int64 ∧ k 0xF1 = .imm 0 ∧
       k 0xFD = .imm 12 ∧ ∀ t ∈ [0x00#8, 0x40, 0x80, 0xFF], k t ∈ [.str6, .str14, .str32, .invalid]) := by decide

theorem witness_SaviStoresPayload :
    (let s := { unit 16 [] with enc := 0x80 }
     s.halt = false ∧ payloadWidth (classifyTag s.params s.enc) = none) ∧
    (let s := { unit 16 [] with enc := 0xFE, a := 128, params := { Params.listed 16 with saviRange := .fault } }
     s.halt = false ∧ payloadWidth (classifyTag s.params s.enc) = some 1 ∧ s.params.saviRange = .fault ∧
       ¬ (-(2 ^ (8 * 1 - 1)) ≤ s.a.toInt ∧ s.a.toInt ≤ 2 ^ (8 * 1 - 1) - 1)) ∧
    (let s := { unit 16 [] with enc := 0xC0, base := 15 }
     s.halt = false ∧ payloadWidth (classifyTag s.params s.enc) = some 2 ∧ s.params.saviRange = .truncate ∧
       s.params.bufLen < s.base.toNat + 2) ∧
    (let s := { unit 16 [] with enc := 0xC0, base := 14 }
     s.halt = false ∧ payloadWidth (classifyTag s.params s.enc) = some 2 ∧ s.params.saviRange = .truncate ∧
       s.base.toNat + 2 ≤ s.params.bufLen) ∧
    (let s := { unit 16 [] with enc := 0xF1, base := 16 }
     s.halt = false ∧ payloadWidth (classifyTag s.params s.enc) = some 0) := by decide

theorem witness_LdiLoadsPayload :
    (unit 16 []).halt = false ∧
    (let k := classifyTag (unit 16 []).params
     k 0xFE = .int8 ∧ k 0xC0 = .int16 ∧ k 0xF0 = .int24 ∧ k 0xD0 = .int32 ∧ k 0xE0 = .int64 ∧ k 0xF1 = .imm 0 ∧
       k 0xFD = .imm 12 ∧ ∀ t ∈ [0x00#8, 0x40, 0x80, 0xFF], k t ∈ [.str6, .str14, .str32, .invalid]) ∧
    ∀ n ∈ [1, 2, 3, 4, 8],
      (BitVec.ofNat 32 (16 - n)).toNat + n ≤ (unit 16 []).params.bufLen ∧
      (unit 16 []).params.bufLen < (BitVec.ofNat 32 (17 - n)).toNat + n := by decide

theorem witness_IntegerPayloadRoundTrip :
    ∀ s ∈ [{ unit 16 [0xAA] with a := 11, enc := 0xFC, base := 16 }, { unit 16 [0xAA] with a := 12, enc := 0xFE },
        { unit 16 [0xAA] with a := 0x8000000000000000, enc := 0xE0, base := 8 }],
      s.halt = false ∧ s.params.legal = true ∧ s.buf.wf = true ∧ s.enc = selectEncoding s.params s.a.toInt ∧
      s.base.toNat + (payloadWidth (classifyTag s.params s.enc)).getD 0 ≤ s.params.bufLen := by decide

/-- A counter word, a delta and the end of the window, one per clause of the counter's rule. -/
theorem witness_InclAddsToTheCounter :
    let cur := fun s : State =>
      (s.buf.read (s.base.toNat + s.params.counterOffset + 1) ++ s.buf.read (s.base.toNat + s.params.counterOffset) :
        BitVec 16).toNat
    let fits := fun s : State => s.halt = false ∧ s.base.toNat + s.params.counterOffset + 2 ≤ s.params.bufLen
    ((unit 9 []).halt = false ∧ (unit 9 []).params.bufLen < (unit 9 []).base.toNat + (unit 9 []).params.counterOffset + 2) ∧
    (let s := unit 10 [0, 0, 0, 0, 0, 0, 0, 0, 0xFF, 0xFF]
     fits s ∧ cur s = 65535) ∧
    (let s := { unit 10 [0, 0, 0, 0, 0, 0, 0, 0, 0x05] with a := 0xFFFFFFFFFFFFFFFA }
     fits s ∧ cur s ≠ 65535 ∧ (cur s : Int) + s.a.toInt < 0) ∧
    (let s := { unit 10 [0, 0, 0, 0, 0, 0, 0, 0, 0xFE, 0xFF] with a := 1 }
     fits s ∧ cur s ≠ 65535 ∧ 0 ≤ (cur s : Int) + s.a.toInt ∧ (cur s : Int) + s.a.toInt ≤ 65535) ∧
    (let s := { unit 10 [0, 0, 0, 0, 0, 0, 0, 0, 0xFE, 0xFF] with a := 2 }
     fits s ∧ cur s ≠ 65535 ∧ 65535 < (cur s : Int) + s.a.toInt ∧ s.params.counterOverflow = .clamp) ∧
    (let s :=
       { unit 10 [0, 0, 0, 0, 0, 0, 0, 0, 0xFE, 0xFF] with
         a := 2, params := { Params.listed 10 with counterOverflow := .wrap } }
     fits s ∧ cur s ≠ 65535 ∧ 65535 < (cur s : Int) + s.a.toInt ∧ s.params.counterOverflow = .wrap) := by decide

theorem witness_CounterSaturates :
    ∀ s ∈ [unit 10 [0, 0, 0, 0, 0, 0, 0, 0, 0xFF, 0xFF],
        { unit 10 [0, 0, 0, 0, 0, 0, 0, 0, 0xFE, 0xFF] with a := 1 }],
      s.halt = false ∧ s.buf.wf = true ∧ s.params.counterOverflow = .clamp ∧
      goesTo (exec .incl s) (fun t => !t.halt) = true ∧ 0 ≤ s.a.toInt := by decide

/-- The clause that the true count is held nowhere: a saturated count with delta −5, beside 65534 with delta 2. -/
theorem witness_CounterSaturates_trueCount :
    let s := { unit 10 [0, 0, 0, 0, 0, 0, 0, 0, 0xFF, 0xFF] with a := 0xFFFFFFFFFFFFFFFB }
    let m : Memory := [(8, 0xFE), (9, 0xFF)]
    let s' := { s with buf := m, a := 2 }
    let saturates := fun u : State => u.statedCount = none ∨ 65535 ≤ (u.storedCount : Int) + u.a.toInt
    s.halt = false ∧ s.buf.wf = true ∧ m.wf = true ∧ s.params.counterOverflow = .clamp ∧
      s.counterAddr + 2 ≤ s.params.bufLen ∧ saturates s ∧ saturates s' ∧ s'.statedCount = some 65534 ∧
      ∀ x, inRange (s.counterAddr, 2) x = false → m.read x = s.buf.read x := by
  refine ⟨by decide, by decide, by decide, by decide, by decide, by decide, by decide, by decide, fun x hx => ?_⟩
  have h8 : ¬ (8 ≤ x ∧ x < 10) := by
    intro hc
    have : inRange (8, 2) x = true := by simp [inRange]; omega
    exact absurd (this.symm.trans hx) (by decide)
  rw [show (unit 10 [0, 0, 0, 0, 0, 0, 0, 0, 0xFF, 0xFF]).buf = [(8, 0xFF), (9, 0xFF)] from by decide]
  simp only [Memory.read]
  rw [if_neg (by omega), if_neg (by omega), if_neg (by omega)]

theorem witness_ResultPortsWrittenByEachCommand :
    (unit 16 []).halt = false ∧
    (goesTo (exec .dpl (unit 16 [])) (fun t => !t.halt) = true ∧ writesPort .dpl .renc = false ∧
      writesPort .dpl .out1 = true) ∧
    goesTo (exec .dpl (unit 0 [])) (fun t => t.halt) = true := by decide

theorem witness_NonStoringCommandsKeepTheBuffer :
    ∀ i ∈ [Instr.dpls, .dpl, .splD, .pld, .eenc, .dlen, .els, .seeD, .isstr, .s2n, .trye, .isz, .ldi],
      goesTo (exec i { unit 16 [0x31] with enc := 0xFE, slen := 1 }) (fun t => !t.halt) = true := by decide

/-- Every storing command completes on one buffer that is not empty, and one faults. -/
theorem witness_StoringCommandsKeepOtherBytes :
    (∀ i ∈ [Instr.splW, .seeW, .savi, .incl],
      let s := { unit 16 [0xAA, 0xAA] with enc := 0xFE, a := 5 }
      s.halt = false ∧ s.buf.wf = true ∧ goesTo (exec i s) (fun t => !t.halt) = true) ∧
    goesTo (exec .splW { unit 16 [0xAA] with base := 16 }) (fun t => t.halt) = true := by decide

theorem witness_CommandsKeepInputPorts :
    goesTo (exec .isstr { unit 0 [] with cmd := 0x09, enc := 0x40, a := 7 }) (fun _ => true) = true := by decide

theorem witness_InputPortsChangeOnlyByHost :
    goesTo (step (unitDoing (.setBase 5))) (fun t => t.base = 5) = true ∧
    goesTo (step (unitDoing (.setA 6))) (fun t => t.a = 6) = true ∧
    goesTo (step (unitDoing (.setEnc 7))) (fun t => t.enc = 7) = true ∧
    goesTo (step (unitDoing (.setSlen 8))) (fun t => t.slen = 8) = true ∧
    goesTo (step (unitDoing (.command 9))) (fun t => t.cmd = 9) = true ∧
    goesTo (step (unitDoing .reset)) (fun _ => true) = true := by decide

theorem witness_SizeOnlyCommandsIgnoreTheBuffer :
    ∀ i ∈ [Instr.splD, .els, .seeD, .isstr, .isz],
      i ∈ [Instr.splD, .els, .seeD, .isstr, .isz] ∧
        goesTo (exec i { unit 0 [] with enc := 0xFE }) (fun t => !t.halt) = true := by decide

/-- Two buffers that differ outside the byte DPLS reads. -/
theorem witness_ReadsStayInTheAccessTable :
    let s := unit 16 [0xFE, 0x01]
    let m : Memory := [(0, 0xFE), (1, 0x02)]
    m ≠ s.buf ∧ ∀ x, inRange (readRange .dpls s) x = true → m.read x = s.buf.read x := by
  refine ⟨by decide, fun x hx => ?_⟩
  simp only [inRange, Bool.and_eq_true, decide_eq_true_eq] at hx
  have h1 : 0 ≤ x ∧ x < 0 + 1 := hx
  obtain rfl : x = 0 := by omega
  decide

/-- The clause about the stored bytes: SPL.W at the last byte of the window, over two buffers that differ there. -/
theorem witness_ReadsStayInTheAccessTable_stored :
    let s := { unit 16 [] with base := 15, a := 7 }
    let m : Memory := [(15, 0xBB)]
    (∀ x, inRange (readRange .splW s) x = true → m.read x = s.buf.read x) ∧ s.buf.wf = true ∧ m.wf = true ∧
      m.read 15 ≠ s.buf.read 15 ∧ inRange (writeRange .splW s) 15 = true ∧
      goesTo (exec .splW s) (fun t => !t.halt) = true := by
  refine ⟨fun x hx => ?_, by decide⟩
  simp only [inRange, Bool.and_eq_true, decide_eq_true_eq] at hx
  have h1 : 15 ≤ x ∧ x < 15 + 0 := hx
  omega

/-- Each fault of rule R93 a command can take, with its literal code. -/
theorem witness_FaultCodesOfEachCommand :
    (unit 16 []).halt = false ∧
    goesTo (exec .splD { unit 16 [] with a := 0x100000000 })
      (fun t => t.halt && t.fcode = 2 && t.lastRaise = some (.operandRange 0x100000000)) = true ∧
    goesTo (exec .isz (unit 16 []))
      (fun t => t.halt && t.fcode = 3 && t.lastRaise = some (.invalidIntegerEncoding 0)) = true ∧
    goesTo (exec .eenc (unit 0 []))
      (fun t => t.halt && t.fcode = 4 && t.lastRaise = some (.bufferBounds 0 1)) = true ∧
    goesTo (exec .incl { unit 16 [] with a := 0xFFFFFFFFFFFFFFFF })
      (fun t => t.halt && t.fcode = 5 && t.lastRaise = some (.counterUnderflow 0 (-1))) = true := by decide

theorem witness_HaltedUnitRefusesEveryCommand :
    ∀ b ∈ [0x00#8, 0x01, 0xFF],
      let s := { halted with host := [.command b] }
      s.params.legal = true ∧ s.halt = true ∧ s.host = .command b :: [] := by decide

/-- One state of each kind rules R98 and R99 tell apart. -/
theorem witness_RefusedRunIsNeverSuccessful_states :
    (unit 16 []).successful = true ∧ halted.successful = false ∧
      State.successful { unit 16 [] with runRefused := true } = false := by decide

theorem witness_RefusedRunIsNeverSuccessful :
    let s := { halted with runRefused := true, host := [.readStatus, .setBase 3] }
    s.runRefused = true ∧ goesTo (Host.Core.run Sys2Proof.core 2 s) (fun _ => true) = true := by decide

theorem witness_HaltLastsUntilReset :
    let s := { halted with host := [.command 0x09, .setBase 3] }
    s.halt = true ∧ (∀ act ∈ s.host, act ≠ .reset) ∧
      goesTo (Host.Core.run Sys2Proof.core 2 s) (fun t => t.base = 3) = true := by decide

theorem witness_StatusChangesOnlyByFaultOrReset :
    (let s := { halted with host := [.reset] }
     goesTo (step s) (fun t => t.status != s.status) = true) ∧
    (let s := unitDoing (.command 0x0C)
     goesTo (step s) (fun t => t.status != s.status) = true) := by decide

theorem witness_StatusRegisterFields :
    (unitDoing (.writeStatus 0xFF)).params.legal = true ∧
    (unitDoing (.writeStatus 0xFF)).host = .writeStatus 0xFF :: [] ∧
    (unitDoing .readStatus).params.legal = true ∧ (unitDoing .readStatus).host = .readStatus :: [] := by decide

theorem witness_ReadOfAnUnwrittenPortFaults :
    (∀ p ∈ [ResultPort.out0, .out1, .renc, .ok, .err],
      let s := unitDoing (.readPort p)
      s.params.legal = true ∧ s.host = .readPort p :: [] ∧ s.resultPort p = none) ∧
    (let s := { unitDoing (.readPort .ok) with ok := some true }
     s.params.legal = true ∧ s.host = .readPort .ok :: [] ∧ s.resultPort .ok = some 1) := by decide

theorem witness_HostWritesLatchInputPorts :
    (unitDoing (.setBase 5)).params.legal = true ∧ (unitDoing (.setBase 5)).host = .setBase 5 :: [] ∧
    (unitDoing (.setA 6)).host = .setA 6 :: [] ∧ (unitDoing (.setEnc 7)).host = .setEnc 7 :: [] ∧
    (unitDoing (.setSlen 8)).host = .setSlen 8 :: [] := by decide

theorem witness_HostReadsWhatWasWritten :
    let s := fun (addr x : Addr) => { unit 16 [0xAA] with host := [.writeBytes addr [0x01, 0x02], .readByte x] }
    (∀ addr x, (s addr x).params.legal = true ∧ (s addr x).buf.wf = true ∧ (s addr x).params.bufLen = 16 ∧
      (s addr x).host = .writeBytes addr [0x01, 0x02] :: .readByte x :: []) ∧
    0 < [0x01#8, 0x02].length ∧ 16 < (15 : Addr).toNat + [0x01#8, 0x02].length ∧
    (14 : Addr).toNat + [0x01#8, 0x02].length ≤ 16 ∧ 16 ≤ (16 : Addr).toNat ∧ (15 : Addr).toNat < 16 := by
  refine ⟨fun addr x => ⟨(by decide : (Params.listed 16).legal = true), rfl, rfl, rfl⟩, ?_⟩
  decide

theorem witness_ActionOutsideTheContractIsRefused :
    (unitDoing (.accessDuringOperation 0x01)).params.legal = true ∧
    (unitDoing (.overlapOtherUnit 0x03)).params.legal = true ∧
    (unitDoing (.accessDuringOperation 0x01)).host = .accessDuringOperation 0x01 :: [] ∧
    (unitDoing (.overlapOtherUnit 0x03)).host = .overlapOtherUnit 0x03 :: [] := by decide

theorem witness_ListingLineIsPortWritesThenCommand :
    (unit 16 []).params.legal = true ∧
    Line.wellFormed { instr := .savi, base := some 0x42, a := some (-129), enc := some 0xC0 } = true ∧
    Line.wellFormed { instr := .incl, a := some (-(2 ^ 63)) } = true ∧
    Line.wellFormed { instr := .incl, a := some (2 ^ 64 - 1), slen := some 0 } = true := by decide

theorem witness_UnitWaitsForTheHost : (unit 16 []).params.legal = true ∧ (unit 16 []).host = [] := by decide

theorem witness_IllegalConfigurationIsRefused :
    ({ unit 16 [] with params := { Params.listed 16 with strMaxLen := 20 } } : State).params.legal = false := by decide

theorem witness_ResetClearsStatusAndResults :
    let s := { halted with host := [.reset], out0 := some 5 }
    s.params.legal = true ∧ s.host = .reset :: [] := by decide

theorem witness_EveryStepKeepsTheInvariant :
    Inv (unitDoing (.command 0x0C)) ∧ goesTo (step (unitDoing (.command 0x0C))) (fun t => t.halt) = true := by
  refine ⟨⟨by decide, by decide, by decide, ?_, fun _ => by decide, ?_, fun _ => by decide, ?_⟩, by decide⟩
  · intro h
    revert h
    decide
  · intro c h
    cases h
  · intro v h
    cases h

end Sys2Proof.Tests
end

section
/-! The buffer accesses, the host's writes and reads, the configuration and the state at reset. -/

namespace Sys2Proof.Machine

/-! ## The buffer accesses (rule R9) -/

/-- `MemWrite` inside the window: byte k of the number at addr + k, every other byte as it was. -/
theorem read_writeBytes_leBytes {m : Memory} (h : m.wf = true) (addr n v x : Nat) :
    (m.writeBytes addr (leBytes n v)).read x =
      if addr ≤ x ∧ x < addr + n then BitVec.ofNat 8 (v >>> (8 * (x - addr))) else m.read x := by
  rw [Memory.read_writeBytes h, leBytes_length]
  split
  · exact leBytes_getD (by omega)
  · rfl

/-- Settles O5, from what each access answers inside and outside the window. -/
theorem accessesCheckTheWholeRange : Obligations.AccessesCheckTheWholeRange := by
  refine ⟨fun s addr n => ⟨fun hin => ?_, fun hout => memRead_outside hout.1 hout.2⟩,
    fun s addr bs hwf => ⟨fun hin => ?_, fun hout => memWriteBytes_outside hout.1 hout.2⟩,
    fun s addr n v hwf => ⟨fun hin => ?_, fun hout => ?_⟩⟩
  · exact ⟨_, memRead_eq_ok.2 ⟨hin, rfl⟩, Memory.readBytes_length .., fun k hk => Memory.readBytes_getD hk⟩
  · exact ⟨_, memWriteBytes_eq_ok.2 ⟨hin, rfl⟩, Memory.read_writeBytes hwf⟩
  · exact ⟨_, memWriteBytes_eq_ok.2 ⟨by rwa [leBytes_length], rfl⟩, read_writeBytes_leBytes hwf addr n v⟩
  · rw [memWrite_eq, memWriteBytes_outside] <;> simp [hout]

/-! ## The host's next action (rules R17, R22) -/

/-- On a legal configuration a step performs the host's next action. -/
theorem step_action {s : State} {act : HostAction} {rest : List HostAction} (hlegal : s.params.legal = true)
    (hhost : s.host = act :: rest) : step s = hostAct act { s with host := rest } := by
  rw [step_legal hlegal, hostStep, hhost]

/-- Settles O51: each of these writes is the host's next action, which sets its port. -/
theorem hostWritesLatchInputPorts : Obligations.HostWritesLatchInputPorts := by
  intro s rest hlegal
  exact ⟨fun v h => step_action hlegal h, fun v h => step_action hlegal h, fun v h => step_action hlegal h,
    fun v h => step_action hlegal h⟩

/-- A byte read by the host: the byte at an address of the window, or the model's fault. -/
theorem step_readByte {s : State} {x : Addr} {rest : List HostAction} (hlegal : s.params.legal = true)
    (hhost : s.host = .readByte x :: rest) :
    (s.params.bufLen ≤ x.toNat → step s = .fault (.outsideWindow x.toNat 1)) ∧
    (x.toNat < s.params.bufLen →
      step s = .next { s with host := rest, hostRead := some ((s.buf.read x.toNat).setWidth 64) }) := by
  rw [step_action hlegal hhost, hostAct]
  rcases hostReadByte_cases x.toNat { s with host := rest } with ⟨hin, hr⟩ | ⟨hout, hr⟩ <;> rw [hr]
  · exact ⟨fun h => absurd hin (by simpa using h), fun _ => rfl⟩
  · exact ⟨fun _ => rfl, fun h => absurd hout (by simpa using h)⟩

/-- Settles O52: the write changes only the buffer, and the read that follows it sees the bytes written. -/
theorem hostReadsWhatWasWritten : Obligations.HostReadsWhatWasWritten := by
  intro s addr x bs rest hlegal hwf hhost hpos
  rw [step_action hlegal hhost, hostAct]
  rcases hostWriteBytes_cases addr.toNat bs { s with host := .readByte x :: rest } with
    ⟨hin, hw⟩ | ⟨hout, hw⟩ <;> rw [hw]
  · simp only at hin
    refine ⟨fun h => by omega, fun _ => ⟨_, rfl, rfl, ?_⟩⟩
    have hread := step_readByte (x := x) (rest := rest)
      (s := { s with host := .readByte x :: rest, buf := s.buf.writeBytes addr.toNat bs }) hlegal rfl
    simp only [Memory.read_writeBytes hwf] at hread
    exact hread
  · simp only at hout
    exact ⟨fun _ => rfl, fun h => by omega⟩

/-! ## The configuration (decision D37) and reset (rule R31) -/

/-- A byte of 192 or more is one whose bits 7:6 are 11. -/
theorem topBits_eq_three_iff_le : ∀ t : Byte, t.extractLsb' 6 2 = 3#2 ↔ 192 ≤ t.toNat := by decide

theorem Params.integerTagsMarked_iff (p : Params) :
    p.integerTagsMarked = true ↔
      (∀ t ∈ [p.tagInt8, p.tagInt16, p.tagInt24, p.tagInt32, p.tagInt64, p.immBase], t.extractLsb' 6 2 = 3) ∧
      p.immBase.toNat + p.immDecMax ≤ 255 := by
  simp [Params.integerTagsMarked, Params.fixedIntTags, topBits_eq_three_iff_le, and_assoc]

/-- Settles O56: `step` asks `legal` first, and `legal` is the conjunction of the constraints. -/
theorem illegalConfigurationIsRefused : Obligations.IllegalConfigurationIsRefused := by
  refine ⟨fun s h => by simp [step, h], fun p => ?_⟩
  simp only [Params.legal, Bool.and_eq_true, Params.integerTagsMarked_iff, Params.windowFits,
    Params.markerReadsAsLarge, Params.s2nCeilingHigh, Params.tryeCeilingHigh, Params.immediatesOrdered,
    Params.tagsDistinct, decide_eq_true_eq, and_assoc]
  rfl

/-- At reset nothing is written and no fault has happened, so of the invariant only the configuration is left. -/
theorem inv_reset_of_legal {p : Params} (h : p.legal = true) : Inv { State.reset with params := p } where
  legal := h
  canonical := rfl
  inside := rfl
  halted := nofun
  running _ := ⟨rfl, rfl⟩
  errKind := nofun
  okFirst _ := ⟨rfl, rfl, rfl, rfl⟩
  lengthFits := nofun

/-- Settles O59, from the legality of the listed values. -/
theorem invariantHoldsAtReset : Obligations.InvariantHoldsAtReset :=
  ⟨inv_reset_of_legal (Params.legal_listed (by norm_num)), fun _ h => inv_reset_of_legal (Params.legal_listed h)⟩

end Sys2Proof.Machine
end

section
/-! What every command does to the buffer and the result ports, and what it reads: two runs of a command on buffers
that agree on its row of rule R39 end alike, and the frames follow from that. -/

namespace Sys2Proof.Machine

/-! ## Reading a result port after writing one (rules R11, R23) -/

@[simp] theorem State.resultPort_setOut0 (s : State) (v : Word64) (p : ResultPort) :
    (s.setOut0 v).resultPort p = if p = .out0 then some v else s.resultPort p := by cases p <;> rfl

@[simp] theorem State.resultPort_setOut1 (s : State) (v : Word64) (p : ResultPort) :
    (s.setOut1 v).resultPort p = if p = .out1 then some v else s.resultPort p := by cases p <;> rfl

@[simp] theorem State.resultPort_setRenc (s : State) (t : Byte) (p : ResultPort) :
    (s.setRenc t).resultPort p = if p = .renc then some (t.setWidth 64) else s.resultPort p := by cases p <;> rfl

@[simp] theorem State.resultPort_setOk (s : State) (b : Bool) (p : ResultPort) :
    (s.setOk b).resultPort p = if p = .ok then some ((BitVec.ofBool b).setWidth 64) else s.resultPort p := by
  cases p <;> rfl

@[simp] theorem State.resultPort_setErr (s : State) (c : BitVec 4) (p : ResultPort) :
    (s.setErr c).resultPort p = if p = .err then some (c.setWidth 64) else s.resultPort p := by cases p <;> rfl

@[simp] theorem State.resultPort_takeFault (s : State) (f : Raise) (p : ResultPort) :
    (s.takeFault f).resultPort p = s.resultPort p := by cases p <;> rfl

/-! ## The result ports of one operation (rule R32) -/

/-- From s to t exactly the result ports of the list are written, and the unit neither halts nor is released. -/
structure Wrote (ps : List ResultPort) (s t : State) : Prop where
  halt : t.halt = s.halt
  kept : ∀ p, p ∉ ps → t.resultPort p = s.resultPort p
  written : ∀ p, p ∈ ps → t.resultPort p ≠ none

/-- A store writes no result port. -/
theorem Wrote.withBuf (s : State) (m : Memory) : Wrote [] s { s with buf := m } :=
  ⟨rfl, fun p _ => by cases p <;> rfl, nofun⟩

theorem Wrote.nothing (s : State) : Wrote [] s s := ⟨rfl, fun _ _ => rfl, nofun⟩

/-- Writing one more port adds it to the list. -/
theorem Wrote.cons {ps : List ResultPort} {s t u : State} {q : ResultPort} {w : Word64} (h : Wrote ps s t)
    (hhalt : u.halt = t.halt) (hu : ∀ p, u.resultPort p = if p = q then some w else t.resultPort p) :
    Wrote (q :: ps) s u where
  halt := hhalt.trans h.halt
  kept p hp := by
    obtain ⟨hq, hps⟩ := List.ne_and_not_mem_of_not_mem_cons hp
    rw [hu, if_neg hq, h.kept p hps]
  written p hp := by
    rw [hu]
    split
    · nofun
    · exact h.written p (List.mem_of_ne_of_mem ‹_› hp)

theorem Wrote.setOut0 {ps : List ResultPort} {s t : State} (h : Wrote ps s t) (v : Word64) :
    Wrote (.out0 :: ps) s (t.setOut0 v) := h.cons rfl (t.resultPort_setOut0 v)

theorem Wrote.setOut1 {ps : List ResultPort} {s t : State} (h : Wrote ps s t) (v : Word64) :
    Wrote (.out1 :: ps) s (t.setOut1 v) := h.cons rfl (t.resultPort_setOut1 v)

theorem Wrote.setRenc {ps : List ResultPort} {s t : State} (h : Wrote ps s t) (b : Byte) :
    Wrote (.renc :: ps) s (t.setRenc b) := h.cons rfl (t.resultPort_setRenc b)

theorem Wrote.setOk {ps : List ResultPort} {s t : State} (h : Wrote ps s t) (b : Bool) :
    Wrote (.ok :: ps) s (t.setOk b) := h.cons rfl (t.resultPort_setOk b)

theorem Wrote.setErr {ps : List ResultPort} {s t : State} (h : Wrote ps s t) (c : BitVec 4) :
    Wrote (.err :: ps) s (t.setErr c) := h.cons rfl (t.resultPort_setErr c)

theorem Wrote.answer {ps : List ResultPort} {s t : State} (h : Wrote ps s t) (v : Word64) :
    Wrote (.ok :: .out0 :: ps) s (t.answer v) := (h.setOut0 v).setOk true

/-- The list names the ports of command i's row of rule R32 and no other. -/
def isRow (i : Instr) (ps : List ResultPort) : Bool :=
  [ResultPort.out0, .out1, .renc, .ok, .err].all fun p => writesPort i p == decide (p ∈ ps)

theorem writesPort_iff_mem {i : Instr} {ps : List ResultPort} (h : isRow i ps = true) (p : ResultPort) :
    writesPort i p = true ↔ p ∈ ps := by
  have hp : writesPort i p = decide (p ∈ ps) := by
    simpa using List.all_eq_true.1 h p (by cases p <;> decide)
  rw [hp, decide_eq_true_eq]

/-! ## Buffers that agree on a range -/

/-- The two buffers hold the same bytes on a range (rule R39). -/
def AgreeOn (r : Nat × Nat) (m m' : Memory) : Prop := ∀ x, inRange r x = true → m.read x = m'.read x

theorem inRange_iff {r : Nat × Nat} {x : Nat} : inRange r x = true ↔ r.1 ≤ x ∧ x < r.1 + r.2 := by
  simp [inRange]

/-- A read inside a range sees nothing of the buffer outside it. -/
theorem memRead_agree {s : State} {m : Memory} {addr k n : Nat} (h : AgreeOn (addr, n) m s.buf) (hk : k ≤ n) :
    memRead { s with buf := m } addr k = memRead s addr k :=
  memRead_congr fun x h1 h2 => h x (inRange_iff.2 ⟨h1, by simp only; omega⟩)

/-- The decimal parser reads its string at most (rule R78). -/
theorem parseDec_agree {s : State} {m : Memory} {addr k : Nat}
    (h : AgreeOn (addr, if k < s.params.strMaxLen then k else 0) m s.buf) :
    parseDec { s with buf := m } addr k = parseDec s addr k := by
  unfold parseDec
  by_cases hk : k < s.params.strMaxLen
  · rw [if_pos hk] at h
    rw [memRead_agree h le_rfl]
  · rw [if_pos (.inr (by simpa using hk)), if_pos (.inr (by simpa using hk))]

/-- TRYE's choice depends on the bytes of its row alone (rules R39, R83). -/
theorem tryEncoding_agree {s : State} {m : Memory} (h : AgreeOn (readRange .trye s) m s.buf) :
    tryEncoding { s with buf := m } = tryEncoding s := by
  unfold tryEncoding
  by_cases hk : s.strLen < s.params.tryEncMaxLen
  · rw [parseDec_agree]
    convert h using 1
    simp [readRange, hk]
  · rw [if_pos (.inr (by simpa using hk)), if_pos (.inr (by simpa using hk))]

/-- DLEN's read depends on the bytes of its row alone (rules R39, R73). -/
theorem decodedLength_agree {s : State} {m : Memory} (h : AgreeOn (readRange .dlen s) m s.buf) :
    decodedLength { s with buf := m } = decodedLength s := by
  unfold decodedLength
  simp only [readRange] at h
  cases hk : classifyTag s.params s.enc <;> simp only [hk, dlenReads] at h ⊢ <;> rw [memRead_agree h le_rfl]

/-- LDI's read depends on the payload bytes alone (rules R39, R87). -/
theorem loadedValue_agree {s : State} {m : Memory} (h : AgreeOn (readRange .ldi s) m s.buf) :
    loadedValue { s with buf := m } = loadedValue s := by
  unfold loadedValue
  simp only [readRange] at h
  cases hk : classifyTag s.params s.enc <;> simp only [hk, payloadWidth, Option.getD_some] at h ⊢ <;>
    rw [memRead_agree h le_rfl]

/-! ## What a command does to the buffer and the result ports, and what it reads (rules R32, R39) -/

/-- Two ends of command i's pseudocode, run from s and from s with the buffer m: the same fault, or completions that
write the command's row of result ports, store the same bytes at its place, and differ in the buffer alone. -/
inductive EndsAlike (i : Instr) (s : State) (m : Memory) : Except Raise State → Except Raise State → Prop
  | raises (f : Raise) : EndsAlike i s m (.error f) (.error f)
  | completes {t : State} {ps : List ResultPort} (bs : List Byte) (hlen : bs.length = (writeRange i s).2)
      (hbuf : t.buf = s.buf.writeBytes (writeRange i s).1 bs) (hwrote : Wrote ps s t) (hrow : isRow i ps = true) :
      EndsAlike i s m (.ok t) (.ok { t with buf := m.writeBytes (writeRange i s).1 bs })

/-- Command i, issued on s and on s with the buffer m, runs pseudocode whose two ends are alike. -/
def RunsAlike (i : Instr) (s : State) (m : Memory) : Prop :=
  ∃ op op', exec i s = issue s op ∧ exec i { s with buf := m } = issue { s with buf := m } op' ∧
    EndsAlike i s m op op'

section
variable {i : Instr} {s : State} {m : Memory}

/-- A part of the pseudocode that answers the same on both sides. -/
theorem EndsAlike.bind {α : Type} {x x' : Except Raise α} {f f' : α → Except Raise State} (hx : x' = x)
    (hf : ∀ a, x = .ok a → EndsAlike i s m (f a) (f' a)) : EndsAlike i s m (x >>= f) (x' >>= f') := by
  cases hx
  rcases x with e | a
  · exact .raises e
  · exact hf a rfl

theorem EndsAlike.map {α : Type} {x x' : Except Raise α} {f f' : α → State} (hx : x' = x)
    (hf : ∀ a, x = .ok a → EndsAlike i s m (.ok (f a)) (.ok (f' a))) : EndsAlike i s m (x.map f) (x'.map f') := by
  cases hx
  rcases x with e | a
  · exact .raises e
  · exact hf a rfl

/-- The end of a command that stores nothing. -/
theorem EndsAlike.answers {t : State} {ps : List ResultPort} (hwrote : Wrote ps s t)
    (hnone : (writeRange i s).2 = 0 := by rfl) (hrow : isRow i ps = true := by rfl)
    (hbuf : t.buf = s.buf := by rfl) : EndsAlike i s m (.ok t) (.ok { t with buf := m }) :=
  .completes [] hnone.symm hbuf hwrote hrow

/-- The end of a command that stores bytes at its place and answers a number. -/
theorem EndsAlike.stores {bs : List Byte} {v : Word64} (hlen : bs.length = (writeRange i s).2)
    (hrow : isRow i [.ok, .out0] = true := by rfl) :
    EndsAlike i s m (memWriteBytes s (writeRange i s).1 bs >>= fun t => .ok (t.answer v))
      (memWriteBytes { s with buf := m } (writeRange i s).1 bs >>= fun t => .ok (t.answer v)) := by
  rcases memWriteBytes_cases s (writeRange i s).1 bs with ⟨hok, hin⟩ | herr
  · have hok' : memWriteBytes { s with buf := m } (writeRange i s).1 bs = .ok _ := memWriteBytes_eq_ok.2 ⟨hin, rfl⟩
    rw [hok, hok']
    exact .completes bs hlen rfl ((Wrote.withBuf s _).answer v) hrow
  · have herr' : memWriteBytes { s with buf := m } (writeRange i s).1 bs = .error _ :=
      memWriteBytes_eq_error.2 ⟨(memWriteBytes_eq_error.1 herr).1, rfl⟩
    rw [herr, herr']
    exact .raises _

/-- DPL reads one byte, and the whole field only where that byte announces 5 (rule R68). -/
theorem runsAlike_dpl (h : AgreeOn (readRange .dpl s) m s.buf) : RunsAlike .dpl s m := by
  have same : Wrote [] s s := .nothing s
  have hpos : 1 ≤ prevlenFieldSize s.params (s.buf.read s.baseAddr) := by
    rcases prevlenFieldSize_cases s.params (s.buf.read s.baseAddr) with h | h <;> omega
  refine ⟨_, _, rfl, rfl, .bind (memRead_agree h hpos) fun bs hbs => ?_⟩
  obtain ⟨-, rfl⟩ := memRead_eq_ok.1 hbs
  rw [Memory.readBytes_getD Nat.one_pos]
  by_cases hsmall : (s.buf.read s.baseAddr).toNat < s.params.prevlenBig
  · simp only [Nat.add_zero, if_pos hsmall]
    exact .answers ((same.answer _).setOut1 _)
  · simp only [Nat.add_zero, if_neg hsmall]
    have hfive : prevlenFieldSize s.params (s.buf.read s.baseAddr) = 5 := if_neg hsmall
    exact .bind (memRead_agree h hfive.ge) fun field _ => .answers ((same.answer _).setOut1 _)

/-- INCL stores nothing at a saturated count, else the two bytes of the new count (rule R88). -/
theorem runsAlike_incl (h : AgreeOn (readRange .incl s) m s.buf) : RunsAlike .incl s m := by
  refine ⟨_, _, rfl, rfl, .bind (memRead_agree h le_rfl) fun bs hbs => ?_⟩
  obtain ⟨-, rfl⟩ := memRead_eq_ok.1 hbs
  by_cases hsat : leNat (s.buf.readBytes s.counterAddr 2) = Config.counterMax
  · simp only [if_pos hsat]
    exact .answers ((Wrote.nothing s).answer _) (if_pos hsat)
  · simp only [if_neg hsat]
    split
    · exact .raises _
    · exact .stores (by simp [writeRange, hsat])

/-- SAVI's checks read no buffer, and it stores as many bytes as its tag says (rule R86). -/
theorem runsAlike_savi (s : State) (m : Memory) : RunsAlike .savi s m := by
  refine ⟨_, _, rfl, rfl, .bind rfl fun n hn => ?_⟩
  split
  · exact .raises _
  · refine .stores ?_
    rcases integerWidth_eq s.params s.enc with ⟨k, hk, hok⟩ | ⟨-, herr⟩
    · obtain rfl : k = n := Except.ok.inj (hok.symm.trans hn)
      simp [writeRange, hk]
    · exact nomatch herr.symm.trans hn

theorem lengthOperand_eq_ok {n : Nat} (h : lengthOperand s = .ok n) : n = s.uA := by
  rcases lengthOperand_cases s with ⟨hok, -⟩ | herr
  · exact Except.ok.inj (h.symm.trans hok)
  · exact nomatch herr.symm.trans h

/-- The header SEE.W stores has the size of its row (rules R39, R75). -/
theorem headerToStore_length {bs : List Byte} (h : headerToStore s = .ok bs) :
    bs.length = (writeRange .seeW s).2 := by
  unfold headerToStore at h
  simp only [writeRange]
  split at h
  · rw [if_pos ‹_›]
    rcases lengthOperand_cases s with ⟨hok, -⟩ | herr
    · rw [hok, map_ok, Except.ok.injEq] at h
      rw [← h, strHeaderBytes_length]
    · rw [herr] at h
      exact nomatch h
  · rw [if_neg ‹_›, ← Except.ok.inj h]
    rfl

/-- Every command runs alike on two buffers that agree on what its row of rule R39 reads. -/
theorem runsAlike_of_agreeOn (i : Instr) (h : AgreeOn (readRange i s) m s.buf) : RunsAlike i s m := by
  have same : Wrote [] s s := .nothing s
  cases i with
  | dpls => exact ⟨_, _, rfl, rfl, .bind (memRead_agree h le_rfl) fun _ _ => .answers (same.answer _)⟩
  | dpl => exact runsAlike_dpl h
  | splW =>
    refine ⟨_, _, rfl, rfl, .bind rfl fun len hlen => ?_⟩
    obtain rfl := lengthOperand_eq_ok hlen
    exact .stores (prevlenBytes_length ..)
  | splD => exact ⟨_, _, rfl, rfl, .bind rfl fun _ _ => .answers (same.answer _)⟩
  | pld =>
    exact ⟨_, _, rfl, rfl, .bind rfl fun _ _ => .bind (memRead_agree h le_rfl) fun _ _ => .answers (same.answer _)⟩
  | eenc =>
    exact ⟨_, _, rfl, rfl, .bind (memRead_agree h le_rfl) fun _ _ => .answers ((same.setRenc _).setOk true)⟩
  | dlen =>
    exact ⟨_, _, rfl, rfl, .bind (decodedLength_agree h) fun _ _ =>
      .answers (((same.setOut0 _).setOut1 _).setOk _)⟩
  | els =>
    refine ⟨.ok _, .ok _, rfl, rfl, ?_⟩
    exact .answers ((same.setOut0 _).setOk _)
  | seeW => exact ⟨_, _, rfl, rfl, .bind rfl fun _ hbs => .stores (headerToStore_length hbs)⟩
  | seeD => exact ⟨_, _, rfl, rfl, .bind rfl fun _ _ => .answers (same.answer _)⟩
  | isstr =>
    refine ⟨.ok _, .ok _, rfl, rfl, ?_⟩
    exact .answers (same.answer _)
  | s2n =>
    refine ⟨_, _, rfl, rfl, .map (parseDec_agree h) fun r _ => ?_⟩
    cases r with
    | ok v => exact .answers (((same.setOut0 _).setErr _).setOk true)
    | error k => exact .answers (((same.setOut0 _).setErr _).setOk false)
  | trye =>
    refine ⟨_, _, rfl, rfl, .map (tryEncoding_agree h) fun r _ => ?_⟩
    cases r with
    | some r => exact .answers (((same.setOut0 _).setRenc _).setOk true)
    | none => exact .answers (((same.setOut0 _).setRenc _).setOk false)
  | isz => exact ⟨_, _, rfl, rfl, .bind rfl fun _ _ => .answers (same.answer _)⟩
  | savi => exact runsAlike_savi s m
  | ldi => exact ⟨_, _, rfl, rfl, .bind (loadedValue_agree h) fun _ _ => .answers (same.answer _)⟩
  | incl => exact runsAlike_incl h

end

/-! ## The frames (rules R18, R32, R39, R97) -/

/-- What a command that answers a next state did: it was refused, it completed, writing its row of result ports and
storing as many bytes as its row of rule R39 says, or its fault was taken. -/
theorem exec_next {i : Instr} {s t : State} (h : exec i s = .next t) :
    (s.halt = true ∧ t = s.refuseCommand) ∨
    (s.halt = false ∧ (∃ ps, isRow i ps = true ∧ Wrote ps s t) ∧
      ∃ bs : List Byte, bs.length = (writeRange i s).2 ∧ t.buf = s.buf.writeBytes (writeRange i s).1 bs) ∨
    (s.halt = false ∧ ∃ f, t = s.takeFault f) := by
  obtain ⟨op, op', hexec, -, hends⟩ := runsAlike_of_agreeOn (m := s.buf) i fun _ _ => rfl
  rcases issue_next (hexec ▸ h) with ⟨hhalt, rfl⟩ | ⟨hrun, rfl⟩ | ⟨hrun, f, -, rfl⟩
  · exact .inl ⟨hhalt, rfl⟩
  · cases hends with
    | completes bs hlen hbuf hwrote hrow => exact .inr (.inl ⟨hrun, ⟨_, hrow, hwrote⟩, bs, hlen, hbuf⟩)
  · exact .inr (.inr ⟨hrun, f, rfl⟩)

/-- Settles O36: a completion writes its row, and a fault no port. -/
theorem resultPortsWrittenByEachCommand : Obligations.ResultPortsWrittenByEachCommand := by
  intro i s t p hrun h
  rcases exec_next h with ⟨hhalt, -⟩ | ⟨-, ⟨ps, hrow, hwrote⟩, -⟩ | ⟨-, f, rfl⟩
  · exact nomatch hrun.symm.trans hhalt
  · have hrun' : t.halt = false := hwrote.halt.trans hrun
    have hmem := writesPort_iff_mem hrow p
    exact ⟨fun hk => hwrote.kept p (by simpa [← hmem, hrun'] using hk), fun hw _ => hwrote.written p (hmem.1 hw)⟩
  · exact ⟨fun _ => State.resultPort_takeFault s f p, fun _ hk => nomatch hk⟩

/-- Settles O37: the row of each of these commands stores no byte. -/
theorem nonStoringCommandsKeepTheBuffer : Obligations.NonStoringCommandsKeepTheBuffer := by
  intro i hi s t h x
  have hnone : (writeRange i s).2 = 0 := by
    fin_cases hi <;> rfl
  rcases exec_next h with ⟨-, rfl⟩ | ⟨-, -, bs, hlen, hbuf⟩ | ⟨-, f, rfl⟩
  · rfl
  · rw [hnone, List.length_eq_zero_iff] at hlen
    rw [hbuf, hlen]
    rfl
  · rfl

/-- No command changes a byte outside the place its row of rule R39 stores to. -/
theorem exec_keeps_outside {i : Instr} {s t : State} {x : Nat} (hwf : s.buf.wf = true) (h : exec i s = .next t)
    (hx : x < (writeRange i s).1 ∨ (writeRange i s).1 + (writeRange i s).2 ≤ x) : t.buf.read x = s.buf.read x := by
  rcases exec_next h with ⟨-, rfl⟩ | ⟨-, -, bs, hlen, hbuf⟩ | ⟨-, f, rfl⟩
  · rfl
  · rw [hbuf, Memory.read_writeBytes_of_outside hwf (hlen ▸ hx)]
  · rfl

/-- INCL stores two bytes at most: none at a saturated count. -/
theorem writeRange_incl_le (s : State) : (writeRange .incl s).2 ≤ 2 := by
  simp only [writeRange]
  split <;> omega

/-- Settles O38: the bytes named are those of the command's row, and INCL's two cover its row. -/
theorem storingCommandsKeepOtherBytes : Obligations.StoringCommandsKeepOtherBytes := by
  intro s hrun hwf
  refine ⟨fun t h x hx => exec_keeps_outside hwf h hx, fun t h x hx => exec_keeps_outside hwf h hx,
    fun t h x hx => exec_keeps_outside hwf h hx, fun t h x hx => exec_keeps_outside hwf h ?_, fun i t h hhalt => ?_⟩
  · have := writeRange_incl_le s
    exact hx.imp id fun hx => by simp only [writeRange] at *; omega
  · rcases exec_next h with ⟨hh, -⟩ | ⟨-, ⟨ps, -, hwrote⟩, -⟩ | ⟨-, f, rfl⟩
    · exact nomatch hrun.symm.trans hh
    · exact nomatch hhalt.symm.trans (hwrote.halt.trans hrun)
    · rfl

/-- Settles O42: alike ends are issued to next states that differ in the buffer alone. -/
theorem readsStayInTheAccessTable : Obligations.ReadsStayInTheAccessTable := by
  intro i s m hread
  obtain ⟨op, op', hexec, hexec', hends⟩ := runsAlike_of_agreeOn i hread
  rw [hexec, hexec']
  rcases Bool.eq_false_or_eq_true s.halt with hhalt | hrun
  · exact ⟨_, _, issue_halted hhalt op, issue_halted (s := { s with buf := m }) hhalt op', rfl,
      fun _ _ hk => nomatch hhalt.symm.trans hk⟩
  · have hrun' : ({ s with buf := m } : State).halt = false := hrun
    cases hends with
    | raises f => exact ⟨_, _, issue_error hrun f, issue_error hrun' f, rfl, fun _ _ hk => nomatch hk⟩
    | completes bs hlen hbuf =>
      refine ⟨_, _, issue_ok hrun _, issue_ok hrun' _, rfl, fun hwf hwf' _ x hx => ?_⟩
      have hin := hlen ▸ inRange_iff.1 hx
      rw [hbuf, Memory.read_writeBytes hwf, Memory.read_writeBytes hwf', if_pos hin, if_pos hin]

/-! ## Commands that read neither the buffer nor BASE (rules R39, R70, R76) -/

/-- s with another buffer and another BASE. -/
abbrev State.elsewhere (m : Memory) (b : Addr) (s : State) : State := { s with buf := m, base := b }

/-- Pseudocode that ends the same elsewhere is issued to the same next state elsewhere. -/
theorem issue_elsewhere (s : State) (m : Memory) (b : Addr) (op : Except Raise State) :
    ∃ t, issue s op = .next t ∧
      issue (s.elsewhere m b) (op.map (State.elsewhere m b)) = .next (t.elsewhere m b) := by
  rcases issue_cases s op with ⟨hh, hi⟩ | ⟨hh, t, rfl, hi⟩ | ⟨hh, f, rfl, hi⟩
  · exact ⟨_, hi, issue_halted (s := s.elsewhere m b) hh _⟩
  · exact ⟨_, hi, issue_ok (s := s.elsewhere m b) hh _⟩
  · exact ⟨_, hi, issue_error (s := s.elsewhere m b) hh f⟩

/-- A command that answers a number from what it reads elsewhere too. -/
theorem issue_answer_elsewhere {α : Type} (s : State) (m : Memory) (b : Addr) (x : Except Raise α)
    (g : α → Word64) :
    ∃ t, issue s (x >>= fun a => .ok (s.answer (g a))) = .next t ∧
      issue (s.elsewhere m b) (x >>= fun a => .ok ((s.elsewhere m b).answer (g a))) = .next (t.elsewhere m b) := by
  have h := issue_elsewhere s m b (x >>= fun a => .ok (s.answer (g a)))
  cases x <;> exact h

/-- Settles O41. -/
theorem sizeOnlyCommandsIgnoreTheBuffer : Obligations.SizeOnlyCommandsIgnoreTheBuffer := by
  intro i hi s m b
  simp only [List.mem_cons, List.not_mem_nil, or_false] at hi
  rcases hi with rfl | rfl | rfl | rfl | rfl
  · exact issue_answer_elsewhere s m b (lengthOperand s) _
  · exact issue_elsewhere s m b (.ok _)
  · exact issue_answer_elsewhere s m b (headerSizeToStore s) _
  · exact issue_elsewhere s m b (.ok _)
  · exact issue_answer_elsewhere s m b (integerWidth s.params s.enc) _

end Sys2Proof.Machine
end

section
/-! The entry record against the commands that read its fields. -/

namespace Sys2Proof.Machine

/-! ## The entry a buffer holds (rules R15, R16, R54, R66) -/

/-- Rule R60's law for the listed values: the tag of a header byte has the byte's class. -/
theorem classifyTag_entryEncodingOf_listed (n : Nat) (b : Byte) :
    classifyTag (Params.listed n) (entryEncodingOf (Params.listed n) b) = classifyByte (Params.listed n) b := by
  have h : ∀ b, classifyTag (Params.listed 0) (entryEncodingOf (Params.listed 0) b) =
      classifyByte (Params.listed 0) b := by decide
  exact h b

/-- What the record at an address says: an entry header stands behind the previous-length field, and each field is
read from the bytes there. -/
theorem entryAt_eq_some {p : Params} {m : Memory} {addr : Nat} {e : Entry} (h : entryAt p m addr = some e) :
    let hdr := addr + e.prevLenSize
    let k := classifyByte p (m.read hdr)
    e.prevLenSize = prevlenFieldSize p (m.read addr) ∧
    e.prevLen = (if prevlenFieldSize p (m.read addr) = 1 then (m.read addr).toNat
      else leNat (m.readBytes (addr + 1) 4)) ∧
    e.encoding = entryEncodingOf p (m.read hdr) ∧ e.lenSize = headerSize k ∧ headerSize k ≠ 0 ∧
    e.contentLen = (payloadWidth k).getD (stringLength p m hdr k) := by
  unfold entryAt at h
  simp only at h
  split at h
  · exact nomatch h
  · obtain rfl := Option.some.inj h
    exact ⟨rfl, rfl, rfl, rfl, ‹_›, rfl⟩

/-- DPL on a field inside the window (rule R68). -/
theorem exec_dpl_inside {s : State} (hrun : s.halt = false)
    (hin : s.baseAddr + prevlenFieldSize s.params (s.buf.read s.baseAddr) ≤ s.params.bufLen) :
    exec .dpl s = .next ((s.answer (BitVec.ofNat 64 (prevlenFieldSize s.params (s.buf.read s.baseAddr)))).setOut1
      (BitVec.ofNat 64 (if prevlenFieldSize s.params (s.buf.read s.baseAddr) = 1 then (s.buf.read s.baseAddr).toNat
        else leNat (s.buf.readBytes (s.baseAddr + 1) 4)))) := by
  show issue s _ = _
  by_cases hsmall : (s.buf.read s.baseAddr).toNat < s.params.prevlenBig
  · have hsize : prevlenFieldSize s.params (s.buf.read s.baseAddr) = 1 := if_pos hsmall
    rw [hsize] at hin ⊢
    rw [memRead_inside hin, bind_ok, Memory.readBytes_getD Nat.one_pos, Nat.add_zero, if_pos hsmall, pure_eq_ok,
      issue_ok hrun, if_pos rfl]
    rfl
  · have hsize : prevlenFieldSize s.params (s.buf.read s.baseAddr) = 5 := if_neg hsmall
    rw [hsize] at hin ⊢
    rw [memRead_inside (n := 1) (by omega), bind_ok, Memory.readBytes_getD Nat.one_pos, Nat.add_zero, if_neg hsmall,
      memRead_inside hin, bind_ok, pure_eq_ok, issue_ok hrun, if_neg (by decide)]
    rfl

/-- EENC on a byte inside the window (rule R72). -/
theorem exec_eenc_inside {s : State} (hrun : s.halt = false) (hin : s.baseAddr + 1 ≤ s.params.bufLen) :
    exec .eenc s = .next ((s.setRenc (entryEncodingOf s.params (s.buf.read s.baseAddr))).setOk true) := by
  show issue s _ = _
  rw [memRead_inside hin, bind_ok, Memory.readBytes_getD Nat.one_pos, pure_eq_ok, issue_ok hrun]
  rfl

/-- DLEN's pair for a header inside the window: the size of the class on ENC, and the payload width of an integer or
the length in a string's header (rule R73). -/
theorem decodedLength_inside {s : State} {k : EntryKind} (hk : classifyTag s.params s.enc = k)
    (hin : s.baseAddr + headerSize k ≤ s.params.bufLen) :
    decodedLength s =
      .ok (headerSize k, (payloadWidth k).getD (stringLength s.params s.buf s.baseAddr k)) := by
  unfold decodedLength
  rw [hk]
  cases k with
  | str6 => simp only [memRead_inside (show s.baseAddr + 1 ≤ s.params.bufLen from hin)]; rfl
  | str14 => simp only [memRead_inside (show s.baseAddr + 2 ≤ s.params.bufLen from hin)]; rfl
  | str32 => simp only [memRead_inside (show s.baseAddr + 5 ≤ s.params.bufLen from hin)]; rfl
  | _ => rfl

/-- DLEN on an entry header inside the window (rule R73). -/
theorem exec_dlen_inside {s : State} {k : EntryKind} (hrun : s.halt = false) (hk : classifyTag s.params s.enc = k)
    (hhead : headerSize k ≠ 0) (hin : s.baseAddr + headerSize k ≤ s.params.bufLen) :
    exec .dlen s = .next (((s.setOut0 (BitVec.ofNat 64 (headerSize k))).setOut1
      (BitVec.ofNat 64 ((payloadWidth k).getD (stringLength s.params s.buf s.baseAddr k)))).setOk true) := by
  show issue s _ = _
  rw [decodedLength_inside hk hin, bind_ok, pure_eq_ok, issue_ok hrun, bne_iff_ne.2 hhead]

/-- Settles O22: each command on the bytes `entryAt` reads gives the field `entryAt` reads. -/
theorem commandsReadTheEntryRecord : Obligations.CommandsReadTheEntryRecord := by
  intro s e hdr n hrun hparams he hhdr hin
  obtain ⟨hsize, hprev, henc, hlen, hhead, hcontent⟩ := entryAt_eq_some he
  have hbuf : s.params.bufLen = n := by rw [hparams]; rfl
  rw [← hhdr] at henc hlen hhead hcontent
  have hclass : classifyTag s.params e.encoding = classifyByte s.params (s.buf.read hdr.toNat) := by
    rw [henc, hparams, classifyTag_entryEncodingOf_listed]
  have hdpl := exec_dpl_inside hrun (by simp only [State.baseAddr, ← hsize]; omega)
  have heenc := exec_eenc_inside (s := { s with base := hdr }) hrun (by simp only [State.baseAddr]; omega)
  have hdlen := exec_dlen_inside (s := { s with base := hdr, enc := e.encoding }) hrun hclass hhead
    (by simp only [State.baseAddr]; omega)
  refine ⟨_, _, _, hdpl, ?_, ?_, heenc, ?_, hdlen, ?_, ?_, rfl⟩
  · simp [hsize]
  · simp [hprev]
  · simp [henc]
  · simp [hlen]
  · simp [hcontent]

end Sys2Proof.Machine
end

section
/-! What a command and a step can do, each said once, and what follows from that: the invariant of Safety, the frame of
the input ports and of STATUS, and the host's actions one by one. -/

namespace Sys2Proof.Machine

/-! ## How a command ends (rules R90, R97, R99) -/

/-- What a completed command made of s (rules R9, R22, R32): it stored bytes inside the window and wrote result ports,
OK among them, on OUT1 a length below 2^32 and on ERR a code of rule R92; every other field is that of s. -/
inductive Completes (s : State) : State → Prop
  | mk {addr : Nat} {bs : List Byte} {out0 out1 : Option Word64} {renc : Option Byte} {b : Bool}
      {err : Option (BitVec 4)} (hin : bs.length = 0 ∨ addr + bs.length ≤ s.params.bufLen)
      (hout1 : out1 = s.out1 ∨ ∃ v, out1 = some v ∧ v.toNat < 2 ^ 32)
      (herr : err = s.err ∨ ∃ c, err = some c ∧ c.toNat ≤ 7) :
      Completes s
        { s with
          buf := s.buf.writeBytes addr bs, out0 := out0, out1 := out1, renc := renc, ok := some b, err := err }

/-- A completion that stores no byte. -/
theorem Completes.ports {s : State} {out0 out1 : Option Word64} {renc : Option Byte} {b : Bool}
    {err : Option (BitVec 4)}
    (hout1 : out1 = s.out1 ∨ ∃ v, out1 = some v ∧ v.toNat < 2 ^ 32 := by exact .inl rfl)
    (herr : err = s.err ∨ ∃ c, err = some c ∧ c.toNat ≤ 7 := by exact .inl rfl) :
    Completes s { s with out0 := out0, out1 := out1, renc := renc, ok := some b, err := err } :=
  .mk (addr := 0) (bs := []) (.inl rfl) hout1 herr

/-- Pseudocode that, where it completes, makes of s what a command may. -/
def Completing (s : State) (op : Except Raise State) : Prop := ∀ t, op = .ok t → Completes s t

section
variable {s : State}

theorem Completing.ok {t : State} (h : Completes s t) : Completing s (.ok t) := fun _ ht => Except.ok.inj ht ▸ h

theorem Completing.raises (f : Raise) : Completing s (.error f) := fun _ ht => nomatch ht

theorem Completing.bind {α : Type} {x : Except Raise α} {f : α → Except Raise State}
    (hf : ∀ a, x = .ok a → Completing s (f a)) : Completing s (x >>= f) := by
  rcases x with e | a
  · exact .raises e
  · exact hf a rfl

theorem Completing.map {α : Type} {x : Except Raise α} {f : α → State} (hf : ∀ a, Completes s (f a)) :
    Completing s (x.map f) := by
  rcases x with e | a
  · exact .raises e
  · exact .ok (hf a)

/-- A store inside the window, then its answer. -/
theorem Completing.stores {addr : Nat} {bs : List Byte} {v : Word64} :
    Completing s (memWriteBytes s addr bs >>= fun t => .ok (t.answer v)) := by
  refine .bind fun t ht => .ok ?_
  obtain ⟨hin, rfl⟩ := memWriteBytes_eq_ok.1 ht
  exact .mk hin (.inl rfl) (.inl rfl)

/-- A length of one byte, or of the four bytes behind the marker of a 5-byte field, fits 32 bits (rule R68). -/
theorem completing_dpl :
    Completing s (memRead s s.baseAddr 1 >>= fun bs =>
      if (bs.getD 0 0).toNat < s.params.prevlenBig then
        .ok ((s.answer 1).setOut1 (BitVec.ofNat 64 (bs.getD 0 0).toNat))
      else memRead s s.baseAddr 5 >>= fun field =>
        .ok ((s.answer 5).setOut1 (BitVec.ofNat 64 (leNat field.tail)))) := by
  refine .bind fun bs _ => ?_
  split
  · refine .ok (.ports (.inr ⟨_, rfl, ?_⟩))
    rw [BitVec.toNat_ofNat]
    have := (bs.getD 0 0).isLt
    omega
  · refine .bind fun field hfield => .ok (.ports (.inr ⟨_, rfl, ?_⟩))
    obtain ⟨-, rfl⟩ := memRead_eq_ok.1 hfield
    have hlt := leNat_lt (s.buf.readBytes s.baseAddr 5).tail
    rw [List.length_tail, Memory.readBytes_length] at hlt
    rw [BitVec.toNat_ofNat]
    omega

end

/-- The codes of rule R92 are 1 to 7. -/
theorem ErrKind.code_le (k : ErrKind) : k.code.toNat ≤ 7 := by cases k <;> decide

/-- Every command is the issue of pseudocode that completes as a command may. -/
theorem exec_eq_issue (i : Instr) (s : State) : ∃ op, exec i s = issue s op ∧ Completing s op := by
  cases i with
  | dpls => exact ⟨_, rfl, .bind fun _ _ => .ok .ports⟩
  | dpl => exact ⟨_, rfl, completing_dpl⟩
  | splW => exact ⟨_, rfl, .bind fun _ _ => .stores⟩
  | splD => exact ⟨_, rfl, .bind fun _ _ => .ok .ports⟩
  | pld => exact ⟨_, rfl, .bind fun _ _ => .bind fun _ _ => .ok .ports⟩
  | eenc => exact ⟨_, rfl, .bind fun _ _ => .ok .ports⟩
  | dlen =>
    refine ⟨_, rfl, .bind fun r hr => .ok (.ports (.inr ⟨_, rfl, ?_⟩))⟩
    rcases decodedLength_cases s with ⟨r', hr', -, hlt⟩ | ⟨a, n, herr⟩
    · obtain rfl := Except.ok.inj (hr.symm.trans hr')
      rw [BitVec.toNat_ofNat]
      omega
    · exact nomatch hr.symm.trans herr
  | els => exact ⟨_, rfl, .ok .ports⟩
  | seeW => exact ⟨_, rfl, .bind fun _ _ => .stores⟩
  | seeD => exact ⟨_, rfl, .bind fun _ _ => .ok .ports⟩
  | isstr => exact ⟨_, rfl, .ok .ports⟩
  | s2n =>
    refine ⟨_, rfl, .map fun r => ?_⟩
    cases r with
    | ok v => exact .ports (.inl rfl) (.inr ⟨_, rfl, by decide⟩)
    | error k => exact .ports (.inl rfl) (.inr ⟨_, rfl, k.code_le⟩)
  | trye =>
    refine ⟨_, rfl, .map fun r => ?_⟩
    cases r with
    | some r => exact .ports
    | none => exact .ports
  | isz => exact ⟨_, rfl, .bind fun _ _ => .ok .ports⟩
  | savi =>
    refine ⟨_, rfl, .bind fun n _ => ?_⟩
    split
    · exact .raises _
    · exact .stores
  | ldi => exact ⟨_, rfl, .bind fun _ _ => .ok .ports⟩
  | incl =>
    refine ⟨_, rfl, .bind fun bs _ => ?_⟩
    simp only
    split_ifs
    · exact .ok .ports
    · exact .raises _
    · exact .stores

/-- The next state of a command issued on s: refused while halted, completed, or its fault taken (rule R90). -/
inductive Ending (s : State) : State → Prop
  | refused (hhalt : s.halt = true) : Ending s s.refuseCommand
  | completed {t : State} (hrun : s.halt = false) (h : Completes s t) : Ending s t
  | faulted (hrun : s.halt = false) (f : Raise) : Ending s (s.takeFault f)

theorem issue_ending {s : State} {op : Except Raise State} (h : Completing s op) :
    ∃ t, issue s op = .next t ∧ Ending s t := by
  rcases issue_cases s op with ⟨hhalt, hi⟩ | ⟨hrun, t, hop, hi⟩ | ⟨hrun, f, -, hi⟩
  · exact ⟨_, hi, .refused hhalt⟩
  · exact ⟨_, hi, .completed hrun (h t hop)⟩
  · exact ⟨_, hi, .faulted hrun f⟩

/-- Every command answers a next state, by one of the three endings. -/
theorem exec_ending (i : Instr) (s : State) : ∃ t, exec i s = .next t ∧ Ending s t := by
  obtain ⟨op, hexec, hop⟩ := exec_eq_issue i s
  exact hexec ▸ issue_ending hop

/-- A write to CMD ends as its command does, a reserved byte as a fault or a refusal (rules R48, R51). -/
theorem issueCommand_ending (b : Byte) (s : State) :
    ∃ t, issueCommand b s = .next t ∧ Ending { s with cmd := b } t := by
  rcases issueCommand_cases b s with ⟨i, -, hi⟩ | ⟨-, hi⟩ <;> rw [hi]
  · exact exec_ending i _
  · exact issue_ending (.raises _)

/-- Settles O43. -/
theorem operationsEndInOneOfThreeWays : Obligations.OperationsEndInOneOfThreeWays := by
  intro i s
  obtain ⟨t, hexec, hend⟩ := exec_ending i s
  cases hend with
  | refused hhalt => exact .inl ⟨hhalt, hexec⟩
  | completed hrun h =>
    cases h with
    | mk => exact .inr (.inl ⟨hrun, _, hexec, hrun, rfl, nofun, rfl⟩)
  | faulted hrun f => exact .inr (.inr ⟨hrun, f, hexec⟩)

/-- No ending changes an input port, the configuration or what is the host's (rules R20, R22). -/
theorem Ending.keeps {s t : State} (h : Ending s t) :
    t.cmd = s.cmd ∧ t.base = s.base ∧ t.a = s.a ∧ t.enc = s.enc ∧ t.slen = s.slen ∧ t.params = s.params ∧
      t.hostRead = s.hostRead ∧ t.freeCount = s.freeCount ∧ t.host = s.host := by
  cases h with
  | refused => exact ⟨rfl, rfl, rfl, rfl, rfl, rfl, rfl, rfl, rfl⟩
  | completed _ h => cases h with | mk => exact ⟨rfl, rfl, rfl, rfl, rfl, rfl, rfl, rfl, rfl⟩
  | faulted => exact ⟨rfl, rfl, rfl, rfl, rfl, rfl, rfl, rfl, rfl⟩

/-- Settles O39. -/
theorem commandsKeepInputPorts : Obligations.CommandsKeepInputPorts := by
  intro i s t h
  obtain ⟨u, hexec, hend⟩ := exec_ending i s
  obtain rfl := Host.Outcome.next.inj (hexec.symm.trans h)
  exact hend.keeps

/-- STATUS differs after a command only where its fault was taken, which stores nothing (rule R97). -/
theorem Ending.status {s t : State} (h : Ending s t) :
    t.status = s.status ∨ (s.halt = false ∧ t.halt = true ∧ t.buf = s.buf) := by
  cases h with
  | refused => exact .inl rfl
  | completed _ h => cases h with | mk => exact .inl rfl
  | faulted hrun f => exact .inr ⟨hrun, rfl, rfl⟩

theorem State.status_assertReset (s : State) : s.assertReset.status = 0 := by
  rw [State.status, State.assertReset_fcode, State.assertReset_halt]
  rfl

/-! ## What a step does (rules R17, R22, R25, R106) -/

/-- What an action of the host that has a step makes of s; the value a read returns is not said. -/
inductive Did (s : State) : HostAction → State → Prop
  | setBase (v : Addr) : Did s (.setBase v) { s with base := v }
  | setA (v : Word64) : Did s (.setA v) { s with a := v }
  | setEnc (v : Byte) : Did s (.setEnc v) { s with enc := v }
  | setSlen (v : Count32) : Did s (.setSlen v) { s with slen := v }
  | command {t : State} (b : Byte) (h : Ending { s with cmd := b } t) : Did s (.command b) t
  | writeStatus (v : Byte) : Did s (.writeStatus v) s
  | writeBytes {addr : Addr} {bs : List Byte} (hin : bs.length = 0 ∨ addr.toNat + bs.length ≤ s.params.bufLen) :
      Did s (.writeBytes addr bs) { s with buf := s.buf.writeBytes addr.toNat bs }
  | readByte (addr : Addr) (v : Word64) : Did s (.readByte addr) { s with hostRead := some v }
  | readPort (p : ResultPort) (v : Word64) : Did s (.readPort p) { s with hostRead := some v }
  | readStatus (v : Word64) : Did s .readStatus { s with hostRead := some v }
  | reset : Did s .reset s.assertReset

theorem hostAct_next {act : HostAction} {s t : State} (h : hostAct act s = .next t) : Did s act t := by
  cases act with
  | setBase v => exact Host.Outcome.next.inj h ▸ .setBase v
  | setA v => exact Host.Outcome.next.inj h ▸ .setA v
  | setEnc v => exact Host.Outcome.next.inj h ▸ .setEnc v
  | setSlen v => exact Host.Outcome.next.inj h ▸ .setSlen v
  | command b =>
    obtain ⟨u, hu, hend⟩ := issueCommand_ending b s
    exact Host.Outcome.next.inj (hu.symm.trans h) ▸ .command b hend
  | writeStatus v => exact Host.Outcome.next.inj h ▸ .writeStatus v
  | writeBytes addr bs =>
    rcases hostWriteBytes_cases addr.toNat bs s with ⟨hin, hw⟩ | ⟨-, hw⟩
    · exact Host.Outcome.next.inj (hw.symm.trans h) ▸ .writeBytes hin
    · exact nomatch hw.symm.trans h
  | readByte addr =>
    rcases hostReadByte_cases addr.toNat s with ⟨-, hr⟩ | ⟨-, hr⟩
    · exact Host.Outcome.next.inj (hr.symm.trans h) ▸ .readByte _ _
    · exact nomatch hr.symm.trans h
  | readPort p =>
    rcases hostReadPort_cases p s with ⟨v, -, hr⟩ | ⟨-, hr⟩
    · exact Host.Outcome.next.inj (hr.symm.trans h) ▸ .readPort _ _
    · exact nomatch hr.symm.trans h
  | readStatus => exact Host.Outcome.next.inj h ▸ .readStatus _
  | reset => exact Host.Outcome.next.inj h ▸ .reset
  | accessDuringOperation | overlapOtherUnit => exact nomatch h

/-- A step that goes on waits, or consumes the host's next action and does it. -/
theorem step_next {s t : State} (h : step s = .next t) :
    (s.host = [] ∧ t = s) ∨ ∃ act rest, s.host = act :: rest ∧ Did { s with host := rest } act t := by
  obtain ⟨-, h⟩ := hostStep_of_step h
  unfold hostStep at h
  split at h
  · exact .inl ⟨‹_›, (Host.Outcome.next.inj h).symm⟩
  · exact .inr ⟨_, _, ‹_›, hostAct_next h⟩

/-- Settles O40: of the host's actions only its own writes and reset touch an input port. -/
theorem inputPortsChangeOnlyByHost : Obligations.InputPortsChangeOnlyByHost := by
  intro s t h
  rcases step_next h with ⟨-, rfl⟩ | ⟨act, rest, hhost, hdid⟩
  · exact ⟨rfl, .inl rfl, .inl rfl, .inl rfl, .inl rfl, .inl rfl⟩
  · cases hdid with
    | setBase v => exact ⟨rfl, .inr (.inl ⟨v, rest, hhost, rfl⟩), .inl rfl, .inl rfl, .inl rfl, .inl rfl⟩
    | setA v => exact ⟨rfl, .inl rfl, .inr (.inl ⟨v, rest, hhost, rfl⟩), .inl rfl, .inl rfl, .inl rfl⟩
    | setEnc v => exact ⟨rfl, .inl rfl, .inl rfl, .inr (.inl ⟨v, rest, hhost, rfl⟩), .inl rfl, .inl rfl⟩
    | setSlen v => exact ⟨rfl, .inl rfl, .inl rfl, .inl rfl, .inr (.inl ⟨v, rest, hhost, rfl⟩), .inl rfl⟩
    | command b hend =>
      obtain ⟨hcmd, hbase, ha, henc, hslen, hparams, -⟩ := hend.keeps
      exact ⟨hparams, .inl hbase, .inl ha, .inl henc, .inl hslen, .inr (.inl ⟨b, rest, hhost, hcmd⟩)⟩
    | writeStatus | writeBytes | readByte | readPort | readStatus =>
      exact ⟨rfl, .inl rfl, .inl rfl, .inl rfl, .inl rfl, .inl rfl⟩
    | reset =>
      have hreset : ∃ rest, s.host = .reset :: rest := ⟨rest, hhost⟩
      exact ⟨rfl, .inr (.inr hreset), .inr (.inr hreset), .inr (.inr hreset), .inr (.inr hreset), .inr (.inr hreset)⟩

/-- Settles O48: every host action but a command and reset leaves HALT and FCODE as they are. -/
theorem statusChangesOnlyByFaultOrReset : Obligations.StatusChangesOnlyByFaultOrReset := by
  intro s t h hne
  rcases step_next h with ⟨-, rfl⟩ | ⟨act, rest, hhost, hdid⟩
  · exact absurd rfl hne
  · cases hdid with
    | command b hend => exact .inr ⟨b, rest, hhost, hend.status.resolve_left hne⟩
    | reset => exact .inl ⟨rest, hhost, State.status_assertReset _⟩
    | setBase | setA | setEnc | setSlen | writeStatus | writeBytes | readByte | readPort | readStatus =>
      exact absurd rfl hne

/-! ## The invariant (rules R26, R27, R33, R92, R97, R100) -/

/-- Bytes stored inside the window keep the buffer canonical and inside it. -/
theorem Inv.writeBytes {s : State} (h : Inv s) {addr : Nat} {bs : List Byte}
    (hin : bs.length = 0 ∨ addr + bs.length ≤ s.params.bufLen) :
    Inv { s with buf := s.buf.writeBytes addr bs } where
  __ := h
  canonical := Memory.writeBytes_wf h.canonical
  inside := by
    rcases hin with hnone | hin
    · rw [List.length_eq_zero_iff.1 hnone]
      exact h.inside
    · exact Memory.writeBytes_below h.inside hin

/-- A completion writes OK, and on OUT1 and ERR what the invariant allows there. -/
theorem Inv.completes {s t : State} (h : Inv s) (hdone : Completes s t) : Inv t := by
  cases hdone with
  | mk hin hout1 herr =>
    exact
      { h.writeBytes hin with
        okFirst := nofun
        lengthFits := by
          rintro v hv
          rcases hout1 with hkept | ⟨w, hw, hlt⟩
          · exact h.lengthFits v (hkept ▸ hv)
          · exact Option.some.inj (hw.symm.trans hv) ▸ hlt
        errKind := by
          rintro c hc
          rcases herr with hkept | ⟨d, hd, hle⟩
          · exact h.errKind c (hkept ▸ hc)
          · exact Option.some.inj (hd.symm.trans hc) ▸ hle }

theorem Inv.takeFault {s : State} (h : Inv s) (f : Raise) : Inv (s.takeFault f) where
  __ := h
  halted _ := ⟨f, rfl, rfl⟩
  running := nofun

theorem Inv.ending {s t : State} (h : Inv s) (hend : Ending s t) : Inv t := by
  cases hend with
  | refused => exact { h with }
  | completed _ hdone => exact h.completes hdone
  | faulted _ f => exact h.takeFault f

/-- Reset leaves of the invariant only the configuration and the buffer, which it does not touch (rule R106). -/
theorem Inv.assertReset {s : State} (h : Inv s) : Inv s.assertReset where
  legal := h.legal
  canonical := h.canonical
  inside := h.inside
  halted := nofun
  running _ := ⟨rfl, rfl⟩
  errKind := nofun
  okFirst _ := ⟨rfl, rfl, rfl, rfl⟩
  lengthFits := nofun

theorem Inv.did {s t : State} {act : HostAction} (h : Inv s) (hdid : Did s act t) : Inv t := by
  cases hdid with
  | command b hend => exact Inv.ending (s := { s with cmd := b }) { h with } hend
  | writeBytes hin => exact h.writeBytes hin
  | reset => exact h.assertReset
  | setBase | setA | setEnc | setSlen | writeStatus | readByte | readPort | readStatus => exact { h with }

/-- Settles O60: waiting changes nothing, and every action of the host keeps the invariant. -/
theorem everyStepKeepsTheInvariant : Obligations.EveryStepKeepsTheInvariant := by
  intro s t h hstep
  rcases step_next hstep with ⟨-, rfl⟩ | ⟨act, rest, -, hdid⟩
  · exact h
  · exact Inv.did (s := { s with host := rest }) { h with } hdid

/-! ## The host's actions one by one (rules R24, R27, R38, R48, R99, R106) -/

/-- A command byte written to CMD is latched and runs its command (rule R48). -/
theorem issueCommand_of_decode {b : Byte} {i : Instr} (h : decode b = .ok i) (s : State) :
    issueCommand b s = exec i { s with cmd := b } := by
  rw [issueCommand, h]

/-- Settles O4. -/
theorem stepRunsDecodedCommand : Obligations.StepRunsDecodedCommand := by
  intro s b rest i hlegal hhost hdecode _
  rw [step_action hlegal hhost, hostAct, issueCommand_of_decode hdecode]

/-- Settles O45: of the three endings a halted unit has the refusal alone. -/
theorem haltedUnitRefusesEveryCommand : Obligations.HaltedUnitRefusesEveryCommand := by
  intro s b rest hlegal hhalt hhost
  obtain ⟨t, hissue, hend⟩ := issueCommand_ending b { s with host := rest }
  rw [step_action hlegal hhost, hostAct, hissue]
  cases hend with
  | refused => rfl
  | completed hrun | faulted hrun => exact nomatch hhalt.symm.trans hrun

/-- The fields of the byte `{FCODE, 000, HALT}` (rule R27). -/
theorem status_byte_fields : ∀ (c : BitVec 4) (b : Bool),
    (c ++ (0 : BitVec 3) ++ BitVec.ofBool b : BitVec 8).getLsbD 0 = b ∧
    (c ++ (0 : BitVec 3) ++ BitVec.ofBool b : BitVec 8).extractLsb' 1 3 = 0 ∧
    (c ++ (0 : BitVec 3) ++ BitVec.ofBool b : BitVec 8).extractLsb' 4 4 = c := by decide

/-- Settles O49. -/
theorem statusRegisterFields : Obligations.StatusRegisterFields :=
  ⟨fun s => status_byte_fields s.fcode s.halt, fun _ _ _ hlegal hhost => step_action hlegal hhost,
    fun _ _ hlegal hhost => step_action hlegal hhost⟩

/-- Settles O50: the two answers of a host read of a port. -/
theorem readOfAnUnwrittenPortFaults : Obligations.ReadOfAnUnwrittenPortFaults := by
  intro s p rest hlegal hhost
  rw [step_action hlegal hhost, hostAct]
  rcases hostReadPort_cases p { s with host := rest } with ⟨v, hport, hr⟩ | ⟨hport, hr⟩
  · have hport : s.resultPort p = some v := hport
    exact ⟨fun hnone => (nomatch hport.symm.trans hnone), fun w hw => Option.some.inj (hport.symm.trans hw) ▸ hr⟩
  · have hport : s.resultPort p = none := hport
    exact ⟨fun _ => hr, fun w hw => nomatch hport.symm.trans hw⟩

/-- Settles O55. -/
theorem unitWaitsForTheHost : Obligations.UnitWaitsForTheHost := by
  intro s hlegal hhost
  rw [step_legal hlegal, hostStep, hhost]

/-- Settles O57. -/
theorem resetClearsStatusAndResults : Obligations.ResetClearsStatusAndResults := by
  intro s rest hlegal hhost
  exact ⟨_, step_action hlegal hhost, rfl, rfl, State.status_assertReset _, fun p => by cases p <;> rfl, rfl, rfl, rfl,
    rfl⟩

/-- Settles O58. -/
theorem powerOnState : Obligations.PowerOnState :=
  ⟨rfl, rfl, rfl, fun p => by cases p <;> rfl⟩

/-! ## A listing line (rule R53) -/

/-- The byte of a command decodes to it (rules R48, R50). -/
theorem decode_encode_command (i : Instr) : decode (encode i) = .ok i := by cases i <;> rfl

/-- The write of one port where the line names it, and no action where it does not. -/
def portWrite {α : Type} (act : α → HostAction) (v : Option α) : List HostAction := (v.map act).toList

/-- A line's actions, with the value of A as the port's word. -/
theorem lineActions_eq (l : Line) :
    lineActions l = portWrite .setBase l.base ++ (portWrite .setA (l.a.map (BitVec.ofInt 64)) ++
      (portWrite .setEnc l.enc ++ (portWrite .setSlen l.slen ++ [.command (encode l.instr)]))) := by
  simp [lineActions, portWrite, trunc64, Function.comp_def]

/-- A run whose first step goes on goes on from there. -/
theorem run_of_step {M : Host.Core} {s t : M.State} (k : Nat) (h : M.step s = .next t) :
    M.run (k + 1) s = M.run k t := by
  rw [Host.Core.run, h]

/-- On a legal configuration a run performs the host's next action first. -/
theorem run_action {s t : State} {act : HostAction} {acts : List HostAction} (k : Nat)
    (hlegal : s.params.legal = true) (h : hostAct act { s with host := acts } = .next t) :
    Host.Core.run Sys2Proof.core (k + 1) { s with host := act :: acts } = Host.Core.run Sys2Proof.core k t :=
  run_of_step k ((step_action (s := { s with host := act :: acts }) hlegal rfl).trans h)

/-- Running what a line says of one port, `put w` being the state with the value w there: the port then holds the value
named, or the value `old` it held, and the rest of the line is to run. -/
theorem run_portWrite {α : Type} {act : α → HostAction} {v : Option α} {acts rest : List HostAction}
    (put : α → State) (old : α) (hlegal : (put old).params.legal = true)
    (hact : ∀ w host, hostAct (act w) { put old with host := host } = .next { put w with host := host }) :
    Host.Core.run Sys2Proof.core (portWrite act v ++ acts).length
        { put old with host := portWrite act v ++ acts ++ rest } =
      Host.Core.run Sys2Proof.core acts.length { put (v.getD old) with host := acts ++ rest } := by
  cases v with
  | none => rfl
  | some w => exact run_action acts.length hlegal (hact w (acts ++ rest))

/-- Running the command byte of a line runs its command (rule R48). -/
theorem run_command {s : State} (i : Instr) (rest : List HostAction) (hlegal : s.params.legal = true) :
    Host.Core.run Sys2Proof.core 1 { s with host := .command (encode i) :: rest } =
      exec i { s with cmd := encode i, host := rest } := by
  obtain ⟨t, hexec, -⟩ := exec_ending i { s with cmd := encode i, host := rest }
  rw [hexec]
  exact run_action 0 hlegal ((issueCommand_of_decode (decode_encode_command i) { s with host := rest }).trans hexec)

/-- Settles O54: one port after the other, then the command. -/
theorem listingLineIsPortWritesThenCommand : Obligations.ListingLineIsPortWritesThenCommand := by
  intro s l rest hlegal _
  let base := l.base.getD s.base
  let a := (l.a.map (BitVec.ofInt 64)).getD s.a
  let enc := l.enc.getD s.enc
  rw [lineActions_eq]
  refine (run_portWrite (fun w => { s with base := w }) s.base hlegal fun _ _ => rfl).trans ?_
  refine (run_portWrite (fun w => { s with base := base, a := w }) s.a hlegal fun _ _ => rfl).trans ?_
  refine (run_portWrite (fun w => { s with base := base, a := a, enc := w }) s.enc hlegal fun _ _ => rfl).trans ?_
  refine (run_portWrite (fun w => { s with base := base, a := a, enc := enc, slen := w }) s.slen hlegal
    fun _ _ => rfl).trans ?_
  exact run_command (s := { s with base := base, a := a, enc := enc, slen := l.slen.getD s.slen }) l.instr rest hlegal

end Sys2Proof.Machine
end

section
/-! The string header SEE.W stores, read back by EENC and DLEN. -/

namespace Sys2Proof.Machine

/-! ## The string header of a length (rules R35, R56, R57, R63) -/

/-- The string tags and the tag mask have the values of rule R56. -/
structure StringTagsListed (p : Params) : Prop where
  str06 : p.tagStr06 = 0x00
  str14 : p.tagStr14 = 0x40
  str32 : p.tagStr32 = 0x80
  mask : p.tagStrMask = 0xC0

/-- The class of the header written for a length (rules R56, R57). -/
def strHeaderKind (n : Nat) : EntryKind :=
  if n ≤ Config.str06Max then .str6 else if n ≤ Config.str14Max then .str14 else .str32

theorem headerSize_strHeaderKind (n : Nat) : headerSize (strHeaderKind n) = strHeaderSize n := by
  unfold strHeaderKind strHeaderSize
  split_ifs <;> rfl

theorem payloadWidth_strHeaderKind (n : Nat) : payloadWidth (strHeaderKind n) = none := by
  unfold strHeaderKind
  split_ifs <;> rfl

/-- The class and the bytes of a header, tier by tier (rule R63). -/
theorem strHeader_cases (p : Params) (n : Nat) :
    (n ≤ 63 ∧ strHeaderKind n = .str6 ∧ strHeaderBytes p n = [p.tagStr06 ||| BitVec.ofNat 8 n]) ∨
    (n ≤ 16383 ∧ strHeaderKind n = .str14 ∧ strHeaderBytes p n = str14Bytes p n) ∨
    (strHeaderKind n = .str32 ∧ strHeaderBytes p n = p.tagStr32 :: leBytes 4 n) := by
  unfold strHeaderKind strHeaderBytes
  split_ifs with h6 h14
  · exact .inl ⟨h6, rfl, rfl⟩
  · exact .inr (.inl ⟨h14, rfl, rfl⟩)
  · exact .inr (.inr ⟨rfl, rfl⟩)

theorem bitField_lt (v hi lo : Nat) : bitField v hi lo < 2 ^ (hi + 1 - lo) := Nat.mod_lt _ (by positivity)

/-- A string tag with length bits below it: the mask gives the tag back, and bits 5:0 the length bits. -/
theorem stringTag_or_low : ∀ tag ∈ [0x00#8, 0x40, 0x80], ∀ low : Byte, low.toNat < 64 →
    isStringTag (tag ||| low) = true ∧ (tag ||| low) &&& 0xC0 = tag ∧
      bitField (tag ||| low).toNat 5 0 = low.toNat := by decide

section
variable {p : Params} (ht : StringTagsListed p)
include ht

/-- Each string tag is one of the listed values. -/
theorem StringTagsListed.mem :
    p.tagStr06 ∈ [0x00#8, 0x40, 0x80] ∧ p.tagStr14 ∈ [0x00#8, 0x40, 0x80] ∧ p.tagStr32 ∈ [0x00#8, 0x40, 0x80] := by
  rw [ht.str06, ht.str14, ht.str32]
  decide

/-- EENC's tag of a string header byte (rule R60). -/
theorem entryEncodingOf_stringTag_or {tag low : Byte} (htag : tag ∈ [0x00#8, 0x40, 0x80]) (hlow : low.toNat < 64) :
    entryEncodingOf p (tag ||| low) = tag := by
  obtain ⟨hstr, hand, -⟩ := stringTag_or_low tag htag low hlow
  rw [entryEncodingOf, if_pos hstr, ht.mask, hand]

/-- The classes of the string tags (rule R59). -/
theorem classifyTag_stringTags :
    classifyTag p p.tagStr06 = .str6 ∧ classifyTag p p.tagStr14 = .str14 ∧ classifyTag p p.tagStr32 = .str32 := by
  simp [classifyTag, ht.str06, ht.str14, ht.str32]

/-- Either layout of a 14-bit length: six length bits under the tag, and the length is read back (rule R35). -/
theorem str14Bytes_eq {n : Nat} (hn : n ≤ 16383) :
    ∃ low b1 : Byte, low.toNat < 64 ∧ str14Bytes p n = [p.tagStr14 ||| low, b1] ∧
      str14Length p (p.tagStr14 ||| low) b1 = n := by
  have hlow (low : Byte) (h : low.toNat < 64) : bitField (p.tagStr14 ||| low).toNat 5 0 = low.toNat :=
    (stringTag_or_low _ ht.mem.2.1 low h).2.2
  have hfield (hi lo : Nat) (h : 2 ^ (hi + 1 - lo) = 64) : (BitVec.ofNat 8 (bitField n hi lo)).toNat < 64 := by
    rw [BitVec.toNat_ofNat]
    exact (Nat.mod_le _ _).trans_lt ((bitField_lt n hi lo).trans_eq h)
  unfold str14Bytes str14Length
  cases p.str14Layout with
  | be =>
    refine ⟨_, _, hfield 13 8 rfl, rfl, ?_⟩
    simp only [hlow _ (hfield 13 8 rfl)]
    simp only [BitVec.toNat_ofNat, bitField]
    omega
  | le =>
    refine ⟨_, _, hfield 5 0 rfl, rfl, ?_⟩
    simp only [hlow _ (hfield 5 0 rfl)]
    simp only [BitVec.toNat_ofNat, bitField]
    omega

/-- Where the bytes of a length's header stand, the byte there has the header's class by its tag, and the length is
the one read under that class. -/
theorem strHeader_read_back {m : Memory} {addr n : Nat} (hn : n < 2 ^ 32)
    (hbytes : m.readBytes addr (headerSize (strHeaderKind n)) = strHeaderBytes p n) :
    classifyTag p (entryEncodingOf p (m.read addr)) = strHeaderKind n ∧
      stringLength p m addr (strHeaderKind n) = n := by
  obtain ⟨hmem06, hmem14, hmem32⟩ := ht.mem
  obtain ⟨hclass06, hclass14, hclass32⟩ := classifyTag_stringTags ht
  rcases strHeader_cases p n with ⟨hle, hk, hbs⟩ | ⟨hle, hk, hbs⟩ | ⟨hk, hbs⟩ <;> rw [hk, hbs] at hbytes <;> rw [hk]
  · have hlow : (BitVec.ofNat 8 n).toNat = n := by
      rw [BitVec.toNat_ofNat]
      omega
    have hb0 : m.read addr = p.tagStr06 ||| BitVec.ofNat 8 n := (List.cons.inj hbytes).1
    rw [hb0, entryEncodingOf_stringTag_or ht hmem06 (by omega), stringLength, hb0,
      (stringTag_or_low _ hmem06 _ (by omega)).2.2]
    exact ⟨hclass06, hlow⟩
  · obtain ⟨low, b1, hlow, heq, hlen⟩ := str14Bytes_eq ht hle
    rw [heq] at hbytes
    obtain ⟨hb0, htail⟩ := List.cons.inj hbytes
    have hb1 : m.read (addr + 1) = b1 := (List.cons.inj htail).1
    rw [hb0, entryEncodingOf_stringTag_or ht hmem14 hlow, stringLength, hb0, hb1]
    exact ⟨hclass14, hlen⟩
  · obtain ⟨hb0, htail⟩ := List.cons.inj hbytes
    have henc := entryEncodingOf_stringTag_or ht hmem32 (low := 0#8) (by decide)
    rw [BitVec.or_zero] at henc
    rw [hb0, henc, stringLength, show m.readBytes (addr + 1) 4 = leBytes 4 n from htail, leNat_leBytes]
    exact ⟨hclass32, Nat.mod_eq_of_lt hn⟩

end

/-- SEE.W with a string tag and a header inside the window (rule R75). -/
theorem exec_seeW_string_inside {s : State} (hrun : s.halt = false) (htag : isStringTag s.enc = true)
    (ha : s.a.toNat < 2 ^ 32) (hin : s.baseAddr + strHeaderSize s.a.toNat ≤ s.params.bufLen) :
    exec .seeW s =
      .next (State.answer { s with buf := s.buf.writeBytes s.baseAddr (strHeaderBytes s.params s.a.toNat) }
        (BitVec.ofNat 64 (strHeaderSize s.a.toNat))) := by
  have hbs : headerToStore s = .ok (strHeaderBytes s.params s.a.toNat) := by
    rw [headerToStore, if_pos htag, lengthOperand_fits ha, map_ok]
  show issue s _ = _
  rw [hbs, bind_ok, memWriteBytes_inside (by rwa [strHeaderBytes_length]), bind_ok, pure_eq_ok, issue_ok hrun,
    strHeaderBytes_length]

/-- Settles O21: the bytes SEE.W leaves at BASE are the length's header, which EENC and DLEN read back. -/
theorem stringHeaderRoundTrip : Obligations.StringHeaderRoundTrip := by
  intro s hrun _ hwf h06 h14 h32 hmask henc ha hin
  have ht : StringTagsListed s.params := ⟨h06, h14, h32, hmask⟩
  have hsize := headerSize_strHeaderKind s.a.toNat
  have hpos : 0 < strHeaderSize s.a.toNat := by
    rcases strHeaderSize_cases s.a.toNat with h | h | h <;> omega
  have hstored := Memory.readBytes_writeBytes (addr := s.baseAddr) (bs := strHeaderBytes s.params s.a.toNat) hwf
  rw [strHeaderBytes_length, ← hsize] at hstored
  obtain ⟨hclass, hlen⟩ := strHeader_read_back ht ha hstored
  refine ⟨_, _, _, _, exec_seeW_string_inside hrun (topBits_ne_three_iff.1 henc) ha hin,
    exec_eenc_inside hrun ((Nat.add_le_add_left hpos _).trans hin), rfl,
    exec_dlen_inside hrun hclass (by omega) (by simpa [hsize] using hin), ?_, ?_, rfl, rfl⟩
  · simp [hsize]
  · simp [payloadWidth_strHeaderKind, hlen]

end Sys2Proof.Machine
end

section
/-! The faults each command can take, and with them the fault codes it can leave in STATUS. -/

namespace Sys2Proof.Machine

/-! ## The faults a command can take (rules R39, R93) -/

/-- The commands with a buffer access (rule R39). -/
def accessCommands : List Instr :=
  [.dpls, .dpl, .splW, .pld, .eenc, .dlen, .seeW, .s2n, .trye, .savi, .ldi, .incl]

/-- The faults of command i's row of rule R93, with what they record. -/
inductive RowFault (i : Instr) (s : State) : Raise → Prop
  | operandRange
      (h : i ∈ [Instr.splW, .splD, .pld] ∨ (i ∈ [Instr.seeW, .seeD] ∧ s.enc.toNat ≤ 0xBF) ∨
        (i = .savi ∧ s.params.saviRange = .fault)) : RowFault i s (.operandRange s.a)
  | integerTag (h : i ∈ [Instr.savi, .ldi, .isz]) : RowFault i s (.invalidIntegerEncoding s.enc)
  | bounds (addr n : Nat) (h : i ∈ accessCommands) : RowFault i s (.bufferBounds addr n)
  | underflow (cur : Nat) (delta : Int) (h : i = .incl) : RowFault i s (.counterUnderflow cur delta)

/-- A part of command i's pseudocode raises faults of its row only. -/
def RaisesInRow (i : Instr) (s : State) {α : Type} (x : Except Raise α) : Prop :=
  ∀ f, x = .error f → RowFault i s f

/-- The end of command i's pseudocode: a completion, which does not halt the unit, or a fault of its row. -/
inductive EndsInRow (i : Instr) (s : State) : Except Raise State → Prop
  | completes {t : State} (hhalt : t.halt = s.halt) : EndsInRow i s (.ok t)
  | raises {f : Raise} (h : RowFault i s f) : EndsInRow i s (.error f)

section
variable {i : Instr} {s : State}

theorem RaisesInRow.ok {α : Type} (a : α) : RaisesInRow i s (.ok a) := nofun

theorem RaisesInRow.error {α : Type} {f : Raise} (h : RowFault i s f) :
    RaisesInRow i s (.error f : Except Raise α) := fun _ hf => Except.error.inj hf ▸ h

theorem RaisesInRow.map {α β : Type} {x : Except Raise α} {f : α → β} (hx : RaisesInRow i s x) :
    RaisesInRow i s (x.map f) := by
  rcases x with e | a
  · exact .error (hx e rfl)
  · exact .ok _

theorem EndsInRow.bind {α : Type} {x : Except Raise α} {f : α → Except Raise State} (hx : RaisesInRow i s x)
    (hf : ∀ a, EndsInRow i s (f a)) : EndsInRow i s (x >>= f) := by
  rcases x with e | a
  · exact .raises (hx e rfl)
  · exact hf a

theorem EndsInRow.map {α : Type} {x : Except Raise α} {f : α → State} (hx : RaisesInRow i s x)
    (hf : ∀ a, (f a).halt = s.halt) : EndsInRow i s (x.map f) := by
  rcases x with e | a
  · exact .raises (hx e rfl)
  · exact .completes (hf a)

/-! What each part of the pseudocode can raise (rules R9, R52, R73, R75, R78, R84, R87). -/

theorem memRead_raises (hi : i ∈ accessCommands) (addr n : Nat) : RaisesInRow i s (memRead s addr n) :=
  fun _ hf => (memRead_eq_error.1 hf).2 ▸ .bounds _ _ hi

theorem EndsInRow.stores (hi : i ∈ accessCommands) {addr : Nat} {bs : List Byte} {v : Word64} :
    EndsInRow i s (memWriteBytes s addr bs >>= fun t => .ok (t.answer v)) := by
  rcases memWriteBytes_cases s addr bs with ⟨h, -⟩ | h <;> rw [h]
  · exact .completes rfl
  · exact .raises (.bounds _ _ hi)

theorem lengthOperand_raises (h : RowFault i s (.operandRange s.a)) : RaisesInRow i s (lengthOperand s) := by
  rcases lengthOperand_cases s with ⟨hok, -⟩ | herr
  · exact hok ▸ .ok _
  · exact herr ▸ .error h

theorem integerWidth_raises (hi : i ∈ [Instr.savi, .ldi, .isz]) :
    RaisesInRow i s (integerWidth s.params s.enc) := by
  rcases integerWidth_eq s.params s.enc with ⟨n, -, hok⟩ | ⟨-, herr⟩
  · exact hok ▸ .ok _
  · exact herr ▸ .error (.integerTag hi)

/-- What answers or raises BufferBounds raises in the row of a command with a buffer access. -/
theorem RaisesInRow.of_bounds {α : Type} {x : Except Raise α} (hi : i ∈ accessCommands)
    (h : (∃ a, x = .ok a) ∨ ∃ addr n, x = .error (.bufferBounds addr n)) : RaisesInRow i s x := by
  obtain ⟨a, rfl⟩ | ⟨addr, n, rfl⟩ := h
  · exact .ok a
  · exact .error (.bounds addr n hi)

theorem decodedLength_raises (hi : i ∈ accessCommands) : RaisesInRow i s (decodedLength s) :=
  .of_bounds hi ((decodedLength_cases s).imp_left fun ⟨r, hok, _⟩ => ⟨r, hok⟩)

theorem parseDec_raises (hi : i ∈ accessCommands) (addr n : Nat) : RaisesInRow i s (parseDec s addr n) :=
  .of_bounds hi ((parseDec_cases s addr n).imp_right fun herr => ⟨_, _, herr⟩)

theorem tryEncoding_raises (hi : i ∈ accessCommands) : RaisesInRow i s (tryEncoding s) :=
  .of_bounds hi ((tryEncoding_cases s).imp_right fun herr => ⟨_, _, herr⟩)

/-- The length on A is checked for a string tag only (rules R64, R75, R76). -/
theorem header_raises (hi : i ∈ [Instr.seeW, .seeD]) :
    RaisesInRow i s (headerToStore s) ∧ RaisesInRow i s (headerSizeToStore s) := by
  unfold headerToStore headerSizeToStore
  split
  · have hlen := lengthOperand_raises (.operandRange (.inr (.inl ⟨hi, (isStringTag_iff s.enc).1 ‹_›⟩)))
    exact ⟨hlen.map, hlen.map⟩
  · exact ⟨.ok _, .ok _⟩

/-- LDI reads the payload of a fixed-width tag, and raises for a tag of no integer (rule R87). -/
theorem loadedValue_raises : RaisesInRow .ldi s (loadedValue s) := by
  unfold loadedValue
  cases classifyTag s.params s.enc with
  | int8 | int16 | int24 | int32 | int64 => exact (memRead_raises (by decide) _ _).map
  | imm k => exact .ok _
  | str6 | str14 | str32 | invalid => exact .error (.integerTag (by decide))

end

/-- Every command is the issue of pseudocode that completes or raises a fault of its row. -/
theorem exec_endsInRow (i : Instr) (s : State) : ∃ op, exec i s = issue s op ∧ EndsInRow i s op := by
  cases i with
  | dpls => exact ⟨_, rfl, .bind (memRead_raises (by decide) _ _) fun _ => .completes rfl⟩
  | dpl =>
    refine ⟨_, rfl, .bind (memRead_raises (by decide) _ _) fun bs => ?_⟩
    split
    · exact .completes rfl
    · exact .bind (memRead_raises (by decide) _ _) fun _ => .completes rfl
  | splW =>
    exact ⟨_, rfl, .bind (lengthOperand_raises (.operandRange (.inl (by decide)))) fun _ => .stores (by decide)⟩
  | splD =>
    exact ⟨_, rfl, .bind (lengthOperand_raises (.operandRange (.inl (by decide)))) fun _ => .completes rfl⟩
  | pld =>
    exact ⟨_, rfl, .bind (lengthOperand_raises (.operandRange (.inl (by decide)))) fun _ =>
      .bind (memRead_raises (by decide) _ _) fun _ => .completes rfl⟩
  | eenc => exact ⟨_, rfl, .bind (memRead_raises (by decide) _ _) fun _ => .completes rfl⟩
  | dlen => exact ⟨_, rfl, .bind (decodedLength_raises (by decide)) fun _ => .completes rfl⟩
  | els =>
    refine ⟨.ok _, rfl, ?_⟩
    exact .completes rfl
  | seeW => exact ⟨_, rfl, .bind (header_raises (by decide)).1 fun _ => .stores (by decide)⟩
  | seeD => exact ⟨_, rfl, .bind (header_raises (by decide)).2 fun _ => .completes rfl⟩
  | isstr =>
    refine ⟨.ok _, rfl, ?_⟩
    exact .completes rfl
  | s2n => exact ⟨_, rfl, .map (parseDec_raises (by decide) _ _) fun r => by cases r <;> rfl⟩
  | trye => exact ⟨_, rfl, .map (tryEncoding_raises (by decide)) fun r => by cases r <;> rfl⟩
  | isz => exact ⟨_, rfl, .bind (integerWidth_raises (by decide)) fun _ => .completes rfl⟩
  | savi =>
    refine ⟨_, rfl, .bind (integerWidth_raises (by decide)) fun n => ?_⟩
    split
    · rename_i hrange
      exact .raises (.operandRange (.inr (.inr ⟨rfl, hrange.1⟩)))
    · exact .stores (by decide)
  | ldi => exact ⟨_, rfl, .bind loadedValue_raises fun _ => .completes rfl⟩
  | incl =>
    refine ⟨_, rfl, .bind (memRead_raises (by decide) _ _) fun bs => ?_⟩
    simp only
    split_ifs
    · exact .completes rfl
    · exact .raises (.underflow _ _ rfl)
    · exact .stores (by decide)

/-- A command on a running unit that ends halted took a fault of its row. -/
theorem exec_halts_by_rowFault {i : Instr} {s t : State} (hrun : s.halt = false) (hexec : exec i s = .next t)
    (hhalt : t.halt = true) : ∃ f, RowFault i s f ∧ t = s.takeFault f := by
  obtain ⟨op, hop, hend⟩ := exec_endsInRow i s
  rw [hop] at hexec
  cases hend with
  | completes hkept =>
    obtain rfl := Host.Outcome.next.inj ((issue_ok hrun _).symm.trans hexec)
    exact nomatch (hhalt.symm.trans hkept).trans hrun
  | raises h => exact ⟨_, h, (Host.Outcome.next.inj ((issue_error hrun _).symm.trans hexec)).symm⟩

/-- Settles O44: one clause of the statement per fault of the row. -/
theorem faultCodesOfEachCommand : Obligations.FaultCodesOfEachCommand := by
  intro i s t hrun hexec hhalt
  obtain ⟨f, hrow, rfl⟩ := exec_halts_by_rowFault hrun hexec hhalt
  cases hrow with
  | operandRange h => exact .inl ⟨rfl, rfl, h⟩
  | integerTag h => exact .inr (.inl ⟨rfl, rfl, h⟩)
  | bounds addr n h => exact .inr (.inr (.inl ⟨rfl, ⟨addr, n, rfl⟩, h⟩))
  | underflow cur delta h => exact .inr (.inr (.inr ⟨rfl, ⟨cur, delta, rfl⟩, h⟩))

end Sys2Proof.Machine
end

section
/-! The command byte: decoding and encoding, and the bytes that are no command. -/

namespace Sys2Proof.Machine

/-! ## The command byte (rules R48 to R51) -/

/-- A command with D = 0 has the FUNC it is decoded from (rule R50). -/
theorem decodeNormal_some {f : Nat} {i : Instr} (h : decodeNormal f = some i) :
    i.dryRun = false ∧ i.func.toNat = f := by
  unfold decodeNormal at h
  split at h <;> cases h <;> exact ⟨rfl, rfl⟩

/-- A command with D = 1 has the FUNC it is decoded from (rule R50). -/
theorem decodeDryRun_some {f : Nat} {i : Instr} (h : decodeDryRun f = some i) :
    i.dryRun = true ∧ i.func.toNat = f := by
  unfold decodeDryRun at h
  split at h <;> cases h <;> exact ⟨rfl, rfl⟩

/-- A command has the D and FUNC of a byte that decodes to it (rule R48). -/
theorem decode_fields {b : Byte} {i : Instr} (h : decode b = .ok i) :
    i.dryRun = cmdDryRun b ∧ i.func.toNat = cmdFunc b := by
  unfold decode at h
  split at h
  · obtain rfl := Except.ok.inj h
    rename_i hsome
    cases hd : cmdDryRun b <;> rw [hd] at hsome
    · exact decodeNormal_some hsome
    · exact decodeDryRun_some hsome
  · exact nomatch h

/-- A byte is its D bit above its FUNC field (rule R48). -/
theorem byte_eq_dryRun_append_func :
    ∀ b : Byte, BitVec.ofBool (cmdDryRun b) ++ BitVec.ofNat 7 (cmdFunc b) = b := by decide

/-- Each command has one byte: no other one decodes to it (rules R48, R50). -/
theorem encode_of_decode {b : Byte} {i : Instr} (h : decode b = .ok i) : encode i = b := by
  obtain ⟨hdry, hfunc⟩ := decode_fields h
  have hfunc' : i.func = BitVec.ofNat 7 (cmdFunc b) := by rw [← hfunc, BitVec.ofNat_toNat, BitVec.setWidth_eq]
  rw [encode, hdry, hfunc', byte_eq_dryRun_append_func]

/-- Bit 7 of a command's byte is its D bit (rule R48). -/
theorem encode_msb (i : Instr) : (encode i).msb = i.dryRun := by
  cases i <;> rfl

/-- The dry-run commands (rule R49). -/
theorem dryRun_iff (i : Instr) : i.dryRun = true ↔ i = .splD ∨ i = .seeD := by
  cases i <;> decide

/-- Settles O2. -/
theorem decodeAndEncodeAgree : Obligations.DecodeAndEncodeAgree :=
  ⟨decode_encode_command, fun _ _ => encode_of_decode, fun i => by rw [encode_msb, dryRun_iff]⟩

/-- Settles O1: the table lists the byte of each command, and a byte that decodes is the byte of its command. -/
theorem commandCodesOfTheTable : Obligations.CommandCodesOfTheTable := by
  refine ⟨fun e he => ?_, fun b hb => ?_⟩
  · have hcode : e.1 = encode e.2 := by
      revert e
      decide
    rw [hcode, decode_encode_command]
  · rcases decode_cases b with ⟨i, hi⟩ | hreserved
    · obtain rfl := encode_of_decode hi
      exact absurd (by cases i <;> decide) hb
    · exact hreserved

/-- The bytes of rule R51 are not decoded. -/
theorem decode_reserved {b : Byte}
    (h : b = 0x00 ∨ (0x10 ≤ b.toNat ∧ b.toNat ≤ 0x7F) ∨ (0x80 ≤ b.toNat ∧ b ≠ 0x83 ∧ b ≠ 0x88)) :
    decode b = .error (.reserved b) :=
  (reservedCommand_iff b).1 (by simpa [reservedCommand, or_assoc, and_assoc] using h)

/-- A byte that is no command raises IllegalCommand on the state that holds it (rule R51). -/
theorem issueCommand_of_reserved {b : Byte} (h : decode b = .error (.reserved b)) (s : State) :
    issueCommand b s = issue { s with cmd := b } (.error (.illegalCommand b)) := by
  rcases issueCommand_cases b s with ⟨i, hi, -⟩ | ⟨-, hissue⟩
  · exact nomatch hi.symm.trans h
  · exact hissue

/-- Settles O3: the step issues IllegalCommand on the state that holds the byte. -/
theorem reservedCommandRaisesIllegalCommand : Obligations.ReservedCommandRaisesIllegalCommand := by
  intro s b rest hlegal hrun hhost hb
  rw [step_action hlegal hhost, hostAct, issueCommand_of_reserved (decode_reserved hb)]
  exact issue_error (s := { s with host := rest, cmd := b }) hrun (.illegalCommand b)

end Sys2Proof.Machine
end

section
/-! The tags of rule R56 and their classes. -/

namespace Sys2Proof.Machine

/-! ## The tags of each class (rules R56, R59, R60) -/

/-- The tags of each class, as rules R56 and R59 list them. -/
def ListedTag : EntryKind → Byte → Prop
  | .str6, t => t = 0x00
  | .str14, t => t = 0x40
  | .str32, t => t = 0x80
  | .int8, t => t = 0xFE
  | .int16, t => t = 0xC0
  | .int24, t => t = 0xF0
  | .int32, t => t = 0xD0
  | .int64, t => t = 0xE0
  | .imm v, t => v ≤ 12 ∧ t.toNat = 0xF1 + v
  | .invalid, t =>
    (0x01 ≤ t.toNat ∧ t.toNat ≤ 0x3F) ∨ (0x41 ≤ t.toNat ∧ t.toNat ≤ 0x7F) ∨ (0x81 ≤ t.toNat ∧ t.toNat ≤ 0xBF) ∨
      (0xC1 ≤ t.toNat ∧ t.toNat ≤ 0xCF) ∨ (0xD1 ≤ t.toNat ∧ t.toNat ≤ 0xDF) ∨ (0xE1 ≤ t.toNat ∧ t.toNat ≤ 0xEF) ∨
      t = 0xFF

/-- A tag is among those listed for the class the classifier gives it. -/
theorem listedTag_classifyTag (n : Nat) (t : Byte) : ListedTag (classifyTag (Params.listed n) t) t := by
  unfold classifyTag
  split_ifs with h0 h40 h80 hFE hC0 hF0 hD0 hE0 himm
  case pos | pos | pos | pos | pos | pos | pos | pos => assumption
  · obtain ⟨hlow, hhigh⟩ : 0xF1 ≤ t.toNat ∧ t.toNat ≤ 0xF1 + 12 := himm
    show t.toNat - 0xF1 ≤ 12 ∧ t.toNat = 0xF1 + (t.toNat - 0xF1)
    omega
  · have hout : ¬ (0xF1 ≤ t.toNat ∧ t.toNat ≤ 0xF1 + 12) := himm
    simp only [Params.listed, ← BitVec.toNat_inj] at h0 h40 h80 hFE hC0 hF0 hD0 hE0
    simp only [ListedTag, ← BitVec.toNat_inj, BitVec.reduceToNat] at *
    omega

/-- The classifier gives a tag listed for a class that class. -/
theorem classifyTag_of_listedTag (n : Nat) {k : EntryKind} {t : Byte} (h : ListedTag k t) :
    classifyTag (Params.listed n) t = k := by
  cases k with
  | imm v =>
    obtain ⟨hv, ht⟩ := h
    obtain rfl : t = BitVec.ofNat 8 (0xF1 + v) := by rw [← ht, BitVec.ofNat_toNat, BitVec.setWidth_eq]
    exact classifyTag_imm (p := Params.listed 0) (Params.legal_listed (by norm_num)) hv
  | invalid =>
    revert t
    show ∀ t, ListedTag .invalid t → classifyTag (Params.listed 0) t = .invalid
    unfold ListedTag
    decide
  | _ =>
    obtain rfl := h
    rfl

/-- Settles O19: class by class. -/
theorem tagClassesOfTheListedValues : Obligations.TagClassesOfTheListedValues := by
  intro n t
  have hclass (k : EntryKind) : classifyTag (Params.listed n) t = k ↔ ListedTag k t :=
    ⟨fun h => h ▸ listedTag_classifyTag n t, classifyTag_of_listedTag n⟩
  exact ⟨hclass .str6, hclass .str14, hclass .str32, hclass .int8, hclass .int16, hclass .int24, hclass .int32,
    hclass .int64, fun v => hclass (.imm v), hclass .invalid⟩

/-- Settles O20. -/
theorem tagOfAByteKeepsItsClass : Obligations.TagOfAByteKeepsItsClass := classifyTag_entryEncodingOf_listed

end Sys2Proof.Machine
end

section
/-! SEE.D and SEE.W answer with the same size. -/

namespace Sys2Proof.Machine

/-! ## The header size SEE.D reports (rules R57, R75, R76) -/

/-- The size for a string tag is that of the length on A, which must fit 32 bits. -/
theorem headerSizeToStore_string {s : State} (htag : isStringTag s.enc = true) :
    headerSizeToStore s = (lengthOperand s).map strHeaderSize := if_pos htag

/-- The size for an integer tag is 1, whatever A holds. -/
theorem headerSizeToStore_integer {s : State} (htag : isStringTag s.enc = false) : headerSizeToStore s = .ok 1 := by
  rw [headerSizeToStore, htag]
  rfl

/-- SEE.D reports the size and changes nothing else. -/
theorem exec_seeD_ok {s : State} {n : Nat} (hrun : s.halt = false) (h : headerSizeToStore s = .ok n) :
    exec .seeD s = .next (s.answer (BitVec.ofNat 64 n)) := by
  show issue s _ = _
  rw [h, bind_ok, pure_eq_ok, issue_ok hrun]

/-- SEE.D takes the fault of its operand. -/
theorem exec_seeD_error {s : State} {f : Raise} (hrun : s.halt = false) (h : headerSizeToStore s = .error f) :
    exec .seeD s = .next (s.takeFault f) := by
  show issue s _ = _
  rw [h, bind_error, issue_error hrun]

/-- The header size of a length as a port's word (rule R57). -/
theorem ofNat_strHeaderSize (n : Nat) :
    BitVec.ofNat 64 (strHeaderSize n) = if n ≤ 63 then 1 else if n ≤ 16383 then 2 else 5 := by
  unfold strHeaderSize
  split_ifs <;> rfl

/-- Settles O16: the tag decides whether A is read. -/
theorem seeDReportsSizeOnly : Obligations.SeeDReportsSizeOnly := by
  refine ⟨rfl, fun s hrun => ⟨fun htag hlong => ?_, fun htag hfits => ?_, fun htag => ?_⟩⟩
  · have hsize := headerSizeToStore_string (topBits_ne_three_iff.1 htag)
    rw [lengthOperand_tooLong hlong, map_error] at hsize
    exact exec_seeD_error hrun hsize
  · have hsize := headerSizeToStore_string (topBits_ne_three_iff.1 htag)
    rw [lengthOperand_fits hfits, map_ok] at hsize
    rw [exec_seeD_ok hrun hsize, ofNat_strHeaderSize]
    rfl
  · exact exec_seeD_ok hrun (headerSizeToStore_integer (topBits_eq_three_iff.1 htag))

/-! ## SEE.W where it completes (rules R75, R90) -/

/-- An operation that leaves a running unit running has completed. -/
theorem issue_completed {s t : State} {op : Except Raise State} (hrun : s.halt = false) (h : issue s op = .next t)
    (hdone : t.halt = false) : op = .ok t := by
  rcases issue_next h with ⟨hhalt, -⟩ | ⟨-, hok⟩ | ⟨-, f, -, rfl⟩
  · exact nomatch hrun.symm.trans hhalt
  · exact hok
  · exact nomatch hdone

/-- SEE.W completes by storing the header's bytes at BASE and reporting how many they are. -/
theorem exec_seeW_completed {s t : State} (hrun : s.halt = false) (h : exec .seeW s = .next t)
    (hdone : t.halt = false) :
    ∃ bs, headerToStore s = .ok bs ∧
      t = State.answer { s with buf := s.buf.writeBytes s.baseAddr bs } (BitVec.ofNat 64 bs.length) := by
  have hop := issue_completed hrun h hdone
  rcases hbs : headerToStore s with f | bs
  · rw [hbs] at hop
    exact nomatch hop
  · rcases memWriteBytes_cases s s.baseAddr bs with ⟨hw, -⟩ | hw <;> rw [hbs, bind_ok, hw] at hop
    · exact ⟨bs, rfl, (Except.ok.inj hop).symm⟩
    · exact nomatch hop

/-- Settles O17: where SEE.W has bytes to store, SEE.D has their number. -/
theorem seeDryRunEquivalence : Obligations.SeeDryRunEquivalence := by
  intro s t hrun hexec hdone
  obtain ⟨bs, hbs, rfl⟩ := exec_seeW_completed hrun hexec hdone
  rcases headerToStore_cases s with ⟨bs', hok, hsize, hpos, hle⟩ | ⟨herr, -⟩
  · obtain rfl := Except.ok.inj (hbs.symm.trans hok)
    exact ⟨_, bs, exec_seeD_ok hrun hsize, hrun, rfl, rfl, hpos, hle, rfl⟩
  · exact nomatch hbs.symm.trans herr

end Sys2Proof.Machine
end

section
/-! The previous-length field SPL.W stores, read back by DPL and DPLS. -/

namespace Sys2Proof.Machine

/-! ## The previous-length field of a length (rules R55, R62) -/

/-- The field's bytes, and what decides its size: a small length is its own byte, a large one stands behind the
marker. -/
theorem prevlenBytes_cases (p : Params) (n : Nat) :
    (n < p.prevlenBig ∧ prevlenSize p n = 1 ∧ prevlenBytes p n = [BitVec.ofNat 8 n]) ∨
    (p.prevlenBig ≤ n ∧ prevlenSize p n = 5 ∧ prevlenBytes p n = p.prevlenMarker :: leBytes 4 n) := by
  unfold prevlenSize prevlenBytes
  split_ifs with hsmall
  · exact .inl ⟨hsmall, rfl, rfl⟩
  · exact .inr ⟨not_lt.1 hsmall, rfl, rfl⟩

/-- Where the bytes of a length's field stand, byte 0 has the field's size and the length is the one read under that
size.  Decision D37's bound on the marker is what keeps byte 0 of a 5-byte field from reading as a length, and a length
below PREVLEN_BIG from exceeding a byte. -/
theorem prevlen_read_back {p : Params} {m : Memory} {addr n : Nat}
    (hmarker : p.prevlenBig ≤ p.prevlenMarker.toNat) (hn : n < 2 ^ 32)
    (hbytes : m.readBytes addr (prevlenSize p n) = prevlenBytes p n) :
    prevlenFieldSize p (m.read addr) = prevlenSize p n ∧
      (if prevlenSize p n = 1 then (m.read addr).toNat else leNat (m.readBytes (addr + 1) 4)) = n := by
  rcases prevlenBytes_cases p n with ⟨hsmall, hsize, hbs⟩ | ⟨hbig, hsize, hbs⟩ <;> rw [hsize, hbs] at hbytes <;>
    rw [hsize]
  · have hbyte : (m.read addr).toNat = n := by
      rw [(List.cons.inj hbytes).1, BitVec.toNat_ofNat]
      exact Nat.mod_eq_of_lt (by have := p.prevlenMarker.isLt; omega)
    exact ⟨if_pos (hbyte ▸ hsmall), hbyte⟩
  · obtain ⟨hb0, htail⟩ := List.cons.inj hbytes
    refine ⟨if_neg (hb0 ▸ not_lt.2 hmarker), ?_⟩
    rw [if_neg (by decide), show m.readBytes (addr + 1) 4 = leBytes 4 n from htail, leNat_leBytes]
    exact Nat.mod_eq_of_lt hn

/-! ## The commands on that field (rules R67 to R70) -/

/-- SPL.W with the field inside the window (rule R69). -/
theorem exec_splW_inside {s : State} (hrun : s.halt = false) (ha : s.a.toNat < 2 ^ 32)
    (hin : s.baseAddr + prevlenSize s.params s.a.toNat ≤ s.params.bufLen) :
    exec .splW s =
      .next (State.answer { s with buf := s.buf.writeBytes s.baseAddr (prevlenBytes s.params s.a.toNat) }
        (BitVec.ofNat 64 (prevlenSize s.params s.a.toNat))) := by
  show issue s _ = _
  rw [lengthOperand_fits ha, bind_ok]
  simp only
  rw [memWriteBytes_inside (by rwa [prevlenBytes_length]), bind_ok, pure_eq_ok, issue_ok hrun, prevlenBytes_length]

/-- SPL.D on a length (rule R70). -/
theorem exec_splD_fits {s : State} (hrun : s.halt = false) (ha : s.a.toNat < 2 ^ 32) :
    exec .splD s = .next (s.answer (BitVec.ofNat 64 (prevlenSize s.params s.a.toNat))) := by
  show issue s _ = _
  rw [lengthOperand_fits ha, bind_ok, pure_eq_ok, issue_ok hrun]

/-- DPLS on a byte inside the window (rule R67). -/
theorem exec_dpls_inside {s : State} (hrun : s.halt = false) (hin : s.baseAddr + 1 ≤ s.params.bufLen) :
    exec .dpls s =
      .next (s.answer (BitVec.ofNat 64 (prevlenFieldSize s.params (s.buf.read s.baseAddr)))) := by
  show issue s _ = _
  rw [memRead_inside hin, bind_ok, Memory.readBytes_getD Nat.one_pos, pure_eq_ok, issue_ok hrun]
  rfl

section
variable {s : State} {n : Nat} (hrun : s.halt = false) (hlegal : s.params.legal = true) (hn : n < 2 ^ 32)
  (hin : s.baseAddr + prevlenSize s.params n ≤ s.params.bufLen)
  (hbytes : s.buf.readBytes s.baseAddr (prevlenSize s.params n) = prevlenBytes s.params n)
include hrun hlegal hn hin hbytes

/-- DPL where a length's field stands at BASE (rule R68). -/
theorem exec_dpl_field :
    exec .dpl s =
      .next ((s.answer (BitVec.ofNat 64 (prevlenSize s.params n))).setOut1 (BitVec.ofNat 64 n)) := by
  obtain ⟨hsize, hlen⟩ := prevlen_read_back (Params.legal_marker hlegal) hn hbytes
  rw [exec_dpl_inside hrun (hsize ▸ hin), hsize, hlen]

/-- DPLS where a length's field stands at BASE (rule R67). -/
theorem exec_dpls_field : exec .dpls s = .next (s.answer (BitVec.ofNat 64 (prevlenSize s.params n))) := by
  obtain ⟨hsize, -⟩ := prevlen_read_back (Params.legal_marker hlegal) hn hbytes
  have hpos : 1 ≤ prevlenSize s.params n := by
    rcases prevlenSize_cases s.params n with h | h <;> omega
  rw [exec_dpls_inside hrun ((Nat.add_le_add_left hpos _).trans hin), hsize]

end

/-- Settles O11: the bytes SPL.W leaves at BASE are the length's field, which DPL and DPLS read. -/
theorem previousLengthRoundTrip : Obligations.PreviousLengthRoundTrip := by
  intro s hrun hlegal hwf ha hin
  have hstored := Memory.readBytes_writeBytes (addr := s.baseAddr) (bs := prevlenBytes s.params s.a.toNat) hwf
  rw [prevlenBytes_length] at hstored
  refine ⟨_, _, _, _, exec_splW_inside hrun ha hin, exec_dpl_field hrun hlegal ha hin hstored,
    exec_dpls_field hrun hlegal ha hin hstored, exec_splD_fits hrun ha, ?_, ?_, ?_, ?_, ?_, ?_⟩ <;>
    simp

end Sys2Proof.Machine
end

section
/-! What DPLS, DPL, SPL.W, SPL.D and PLD answer, and the faults they take. -/

namespace Sys2Proof.Machine

/-! ## The faults of the length-field codec (rules R9, R52) -/

/-- A length operand below 2^32 goes to the rest of the operation. -/
theorem issue_lengthOperand_fits {s : State} (ha : s.a.toNat < 2 ^ 32) (f : Nat → Except Raise State) :
    issue s (lengthOperand s >>= f) = issue s (f s.a.toNat) := by
  rw [lengthOperand_fits ha, bind_ok]

section
variable {s : State} (hrun : s.halt = false)
include hrun

/-- An operation that begins with a length operand takes OperandRange for one of 2^32 or more. -/
theorem issue_lengthOperand_tooLong (ha : 2 ^ 32 ≤ s.a.toNat) (f : Nat → Except Raise State) :
    issue s (lengthOperand s >>= f) = .next (s.takeFault (.operandRange s.a)) := by
  rw [lengthOperand_tooLong ha, bind_error, issue_error hrun]

/-- An operation that begins with a read outside the window takes BufferBounds. -/
theorem issue_memRead_outside {addr n : Nat} (hpos : 0 < n) (hout : s.params.bufLen < addr + n)
    (f : List Byte → Except Raise State) :
    issue s (memRead s addr n >>= f) = .next (s.takeFault (.bufferBounds addr n)) := by
  rw [memRead_outside hpos hout, bind_error, issue_error hrun]

/-- DPL where byte 0 stands inside the window and announces a field that does not (rule R68). -/
theorem exec_dpl_fieldOutside (hin : s.baseAddr + 1 ≤ s.params.bufLen) (hout : s.params.bufLen < s.baseAddr + 5)
    (hbig : s.params.prevlenBig ≤ (s.buf.read s.baseAddr).toNat) :
    exec .dpl s = .next (s.takeFault (.bufferBounds s.baseAddr 5)) := by
  show issue s _ = _
  rw [memRead_inside hin, bind_ok, Memory.readBytes_getD Nat.one_pos, Nat.add_zero, if_neg (not_lt.2 hbig)]
  exact issue_memRead_outside hrun (by decide) hout _

/-- SPL.W with the field outside the window (rule R69). -/
theorem exec_splW_outside (ha : s.a.toNat < 2 ^ 32)
    (hout : s.params.bufLen < s.baseAddr + prevlenSize s.params s.a.toNat) :
    exec .splW s = .next (s.takeFault (.bufferBounds s.baseAddr (prevlenSize s.params s.a.toNat))) := by
  have hpos : 0 < prevlenSize s.params s.a.toNat := by
    rcases prevlenSize_cases s.params s.a.toNat with h | h <;> omega
  refine (issue_lengthOperand_fits ha _).trans ?_
  simp only
  rw [memWriteBytes_outside (by rwa [prevlenBytes_length]) (by rwa [prevlenBytes_length]), bind_error,
    issue_error hrun, prevlenBytes_length]

/-- SPL.W on a length whose field is the n bytes bs, inside the window and outside it (rule R69). -/
theorem exec_splW_field {n : Nat} {bs : List Byte} (ha : s.a.toNat < 2 ^ 32)
    (hsize : prevlenSize s.params s.a.toNat = n) (hbytes : prevlenBytes s.params s.a.toNat = bs) :
    (s.baseAddr + n ≤ s.params.bufLen → exec .splW s =
      .next (State.answer { s with buf := s.buf.writeBytes s.baseAddr bs } (BitVec.ofNat 64 n))) ∧
    (s.params.bufLen < s.baseAddr + n → exec .splW s = .next (s.takeFault (.bufferBounds s.baseAddr n))) := by
  subst hsize hbytes
  exact ⟨exec_splW_inside hrun ha, exec_splW_outside hrun ha⟩

/-- PLD with the field's byte 0 inside the window (rule R71). -/
theorem exec_pld_inside (ha : s.a.toNat < 2 ^ 32) (hin : s.baseAddr + 1 ≤ s.params.bufLen) :
    exec .pld s = .next (s.answer (trunc64 ((prevlenSize s.params s.a.toNat : Int) -
      (prevlenFieldSize s.params (s.buf.read s.baseAddr) : Int)))) := by
  refine (issue_lengthOperand_fits ha _).trans ?_
  rw [memRead_inside hin, bind_ok, Memory.readBytes_getD Nat.one_pos, pure_eq_ok, issue_ok hrun]
  rfl

/-- SPL.W on a length, where it completes, stored the length's field (rules R69, R90). -/
theorem exec_splW_completed {t : State} (ha : s.a.toNat < 2 ^ 32) (h : exec .splW s = .next t)
    (hdone : t.halt = false) :
    t = State.answer { s with buf := s.buf.writeBytes s.baseAddr (prevlenBytes s.params s.a.toNat) }
      (BitVec.ofNat 64 (prevlenSize s.params s.a.toNat)) := by
  rcases Nat.lt_or_ge s.params.bufLen (s.baseAddr + prevlenSize s.params s.a.toNat) with hout | hin
  · obtain rfl := Host.Outcome.next.inj ((exec_splW_outside hrun ha hout).symm.trans h)
    exact nomatch hdone
  · exact (Host.Outcome.next.inj ((exec_splW_inside hrun ha hin).symm.trans h)).symm

end

/-! ## The field's size and bytes as the ports hold them (rules R8, R55, R62, R71) -/

/-- Byte 0 of a field is classified as the length it would be is (rules R55, R62). -/
theorem prevlenFieldSize_eq (p : Params) (b : Byte) : prevlenFieldSize p b = prevlenSize p b.toNat := rfl

theorem ofNat_prevlenSize (p : Params) (n : Nat) :
    BitVec.ofNat 64 (prevlenSize p n) = if n < p.prevlenBig then 1 else 5 := by
  unfold prevlenSize
  split_ifs <;> rfl

/-- The difference of two field sizes is 0, 4 or -4 in two's complement (rule R71). -/
theorem trunc64_prevlenSize_sub (p : Params) (new cur : Nat) :
    trunc64 ((prevlenSize p new : Int) - (prevlenSize p cur : Int)) =
      if new < p.prevlenBig then (if cur < p.prevlenBig then 0 else -4)
      else (if cur < p.prevlenBig then 4 else 0) := by
  unfold prevlenSize
  split_ifs <;> rfl

/-- Four bytes read little-endian are their concatenation, the last one on top (rules R7, R8). -/
theorem leNat_readBytes_four (m : Memory) (addr : Nat) :
    leNat (m.readBytes addr 4) =
      (m.read (addr + 3) ++ m.read (addr + 2) ++ m.read (addr + 1) ++ m.read addr : BitVec 32).toNat := by
  rw [toNat_append_byte, toNat_append_byte, toNat_append_byte]
  simp only [Memory.readBytes, leNat, Nat.add_assoc, Nat.reduceAdd]
  omega

/-- Four bytes of a port's word, lowest first (rules R8, R9). -/
theorem leBytes_four_toNat (v : Word64) :
    leBytes 4 v.toNat = [v.extractLsb' 0 8, v.extractLsb' 8 8, v.extractLsb' 16 8, v.extractLsb' 24 8] := by
  simp [leBytes, BitVec.extractLsb', Nat.shiftRight_eq_div_pow, Nat.div_div_eq_div_mul]

/-! ## The commands (rules R67 to R71) -/

/-- Settles O6. -/
theorem dplsReportsFieldSize : Obligations.DplsReportsFieldSize := by
  refine ⟨rfl, fun s hrun => ⟨fun hin => ?_, fun hout => issue_memRead_outside hrun Nat.one_pos hout _⟩⟩
  rw [exec_dpls_inside hrun hin, prevlenFieldSize_eq, ofNat_prevlenSize]
  rfl

/-- Settles O7: byte 0 decides whether the field has one byte or five. -/
theorem dplDecodesPreviousLength : Obligations.DplDecodesPreviousLength := by
  refine ⟨rfl, fun s hrun => ⟨fun hin hsmall => ?_, fun hin hbig => ?_,
    fun hout => issue_memRead_outside hrun Nat.one_pos hout _, exec_dpl_fieldOutside hrun⟩⟩
  · have hsize : prevlenFieldSize s.params (s.buf.read s.baseAddr) = 1 := if_pos hsmall
    rw [exec_dpl_inside hrun (by rwa [hsize]), hsize, if_pos rfl, BitVec.ofNat_toNat]
    rfl
  · have hsize : prevlenFieldSize s.params (s.buf.read s.baseAddr) = 5 := if_neg (not_lt.2 hbig)
    rw [exec_dpl_inside hrun (by rwa [hsize]), hsize, if_neg (by decide), leNat_readBytes_four, BitVec.ofNat_toNat]
    rfl

/-- Settles O8: the bytes of rule R55, one form at a time. -/
theorem splWStoresPreviousLength : Obligations.SplWStoresPreviousLength := by
  refine ⟨rfl, fun s hrun => ⟨fun hlong => issue_lengthOperand_tooLong hrun hlong _, fun hsmall ha => ?_,
    fun hbig ha => ?_⟩⟩
  · have hbytes : prevlenBytes s.params s.a.toNat = [s.a.setWidth 8] := by
      rw [prevlenBytes, if_pos hsmall, BitVec.ofNat_toNat]
    exact exec_splW_field hrun ha (if_pos hsmall) hbytes
  · have hbytes : prevlenBytes s.params s.a.toNat = s.params.prevlenMarker :: _ :=
      (if_neg (not_lt.2 hbig)).trans (congrArg _ (leBytes_four_toNat s.a))
    exact exec_splW_field hrun ha (if_neg (not_lt.2 hbig)) hbytes

/-- Settles O9: SPL.D has the size of the field whose bytes SPL.W stores. -/
theorem splDReportsSizeOnly : Obligations.SplDReportsSizeOnly := by
  refine ⟨rfl, fun s hrun => ⟨fun hlong => issue_lengthOperand_tooLong hrun hlong _, fun ha =>
    ⟨?_, fun t hexec hdone => ?_⟩⟩⟩
  · rw [exec_splD_fits hrun ha, ofNat_prevlenSize]
    rfl
  · obtain rfl := exec_splW_completed hrun ha hexec hdone
    refine ⟨prevlenBytes s.params s.a.toNat, ?_, rfl, ?_⟩
    · rw [State.answer_out0, prevlenBytes_length]
    · rw [prevlenBytes_length, ofNat_prevlenSize]

/-- Settles O10: the operand, then byte 0, then the difference of the two sizes. -/
theorem pldReportsSizeDifference : Obligations.PldReportsSizeDifference := by
  refine ⟨rfl, fun s hrun => ⟨fun hlong => issue_lengthOperand_tooLong hrun hlong _, fun ha hout => ?_,
    fun ha hin => ?_⟩⟩
  · exact (issue_lengthOperand_fits ha _).trans (issue_memRead_outside hrun Nat.one_pos hout _)
  · rw [exec_pld_inside hrun ha hin, prevlenFieldSize_eq, trunc64_prevlenSize_sub]
    rfl

end Sys2Proof.Machine
end

section
/-! What EENC, DLEN, ELS, SEE.W and ISSTR answer, and the faults they take. -/

namespace Sys2Proof.Machine

/-! ## Bit fields as slices (rule R7) -/

/-- A bit field of a word's number is the word's slice. -/
theorem bitField_toNat {w : Nat} (v : BitVec w) (hi lo : Nat) :
    bitField v.toNat hi lo = (v.extractLsb' lo (hi + 1 - lo)).toNat := by
  rw [bitField, BitVec.extractLsb'_toNat, Nat.shiftRight_eq_div_pow]

/-! ## EENC and ISSTR: the top bits of a byte (rules R60, R61, R72, R77) -/

/-- Settles O12: bits 7:6 are not 11 exactly on the string tags, which EENC masks. -/
theorem eencReportsTag : Obligations.EencReportsTag := by
  refine ⟨rfl, fun s hrun => ⟨fun hin => ?_, fun hout => issue_memRead_outside hrun Nat.one_pos hout _⟩⟩
  simp only [topBits_ne_three_iff]
  exact exec_eenc_inside hrun hin

/-- Settles O18: the string tags are the bytes up to 0xBF. -/
theorem isstrReportsStringClass : Obligations.IsstrReportsStringClass := by
  refine ⟨rfl, fun s hrun => ?_⟩
  simp only [← isStringTag_iff]
  exact issue_ok hrun _

/-! ## DLEN (rule R73) -/

/-- A class under which DLEN reads is a string class: DLEN reads its whole header. -/
theorem headerSize_of_dlenReads {k : EntryKind} (h : 0 < dlenReads k) :
    headerSize k = dlenReads k ∧ payloadWidth k = none := by
  cases k with
  | str6 | str14 | str32 => exact ⟨rfl, rfl⟩
  | _ => exact nomatch h

section
variable {s : State} {k : EntryKind} (hk : classifyTag s.params s.enc = k)
include hk

/-- DLEN's pair for an integer or an invalid tag, wherever BASE points. -/
theorem decodedLength_unread (hread : dlenReads k = 0) :
    decodedLength s = .ok (headerSize k, (payloadWidth k).getD 0) := by
  unfold decodedLength
  rw [hk]
  cases k with
  | str6 | str14 | str32 => exact nomatch hread
  | _ => rfl

/-- DLEN's fault where a string's header is not inside the window. -/
theorem decodedLength_outside (hread : 0 < dlenReads k) (hout : s.params.bufLen < s.baseAddr + dlenReads k) :
    decodedLength s = .error (.bufferBounds s.baseAddr (dlenReads k)) := by
  have hfault := memRead_outside hread hout
  unfold decodedLength
  rw [hk]
  cases k with
  | str6 | str14 | str32 =>
    rw [dlenReads] at hfault
    simp only [hfault, bind_error, dlenReads]
  | _ => exact nomatch hread

variable (hrun : s.halt = false)
include hrun

/-- DLEN on an integer or an invalid tag, wherever BASE points. -/
theorem exec_dlen_unread (hread : dlenReads k = 0) :
    exec .dlen s = .next (((s.setOut0 (BitVec.ofNat 64 (headerSize k))).setOut1
      (BitVec.ofNat 64 ((payloadWidth k).getD 0))).setOk (headerSize k != 0)) := by
  show issue s _ = _
  rw [decodedLength_unread hk hread, bind_ok, pure_eq_ok, issue_ok hrun]

/-- DLEN under a string class whose header has n bytes and says the length len, inside the window and outside it. -/
theorem exec_dlen_string {n : Nat} {len : Word64} (hread : dlenReads k = n) (hpos : 0 < n)
    (hlen : BitVec.ofNat 64 (stringLength s.params s.buf s.baseAddr k) = len) :
    (s.baseAddr + n ≤ s.params.bufLen →
      exec .dlen s = .next (((s.setOut0 (BitVec.ofNat 64 n)).setOut1 len).setOk true)) ∧
    (s.params.bufLen < s.baseAddr + n → exec .dlen s = .next (s.takeFault (.bufferBounds s.baseAddr n))) := by
  subst hread hlen
  obtain ⟨hsize, hwidth⟩ := headerSize_of_dlenReads hpos
  refine ⟨fun hin => ?_, fun hout => ?_⟩
  · rw [exec_dlen_inside hrun hk (by omega) (by rwa [hsize]), hsize, hwidth, Option.getD_none]
  · show issue s _ = _
    rw [decodedLength_outside hk hpos hout, bind_error, issue_error hrun]

end

/-! The length in a string's header as slices of its bytes (rules R35, R56). -/

theorem ofNat_stringLength_str6 (p : Params) (m : Memory) (addr : Nat) :
    BitVec.ofNat 64 (stringLength p m addr .str6) = ((m.read addr).extractLsb' 0 6).setWidth 64 := by
  rw [stringLength, bitField_toNat, BitVec.ofNat_toNat]

theorem ofNat_stringLength_str14 {p : Params} (hbe : p.str14Layout = .be) (m : Memory) (addr : Nat) :
    BitVec.ofNat 64 (stringLength p m addr .str14) =
      ((m.read addr).extractLsb' 0 6 ++ m.read (addr + 1) : BitVec 14).setWidth 64 := by
  have hlen : stringLength p m addr .str14 =
      ((m.read addr).extractLsb' 0 6 ++ m.read (addr + 1) : BitVec 14).toNat := by
    simp only [stringLength, str14Length, hbe, bitField_toNat]
    exact (toNat_append_byte _ _).symm
  rw [hlen, BitVec.ofNat_toNat]

theorem ofNat_stringLength_str32 (p : Params) (m : Memory) (addr : Nat) :
    BitVec.ofNat 64 (stringLength p m addr .str32) =
      (m.read (addr + 4) ++ m.read (addr + 3) ++ m.read (addr + 2) ++ m.read (addr + 1) : BitVec 32).setWidth 64 := by
  rw [stringLength, leNat_readBytes_four, BitVec.ofNat_toNat]

/-- Settles O13, class by class. -/
theorem dlenDecodesByEncClass : Obligations.DlenDecodesByEncClass := by
  refine ⟨rfl, fun s hrun => ⟨fun hk => ?_, fun hk hbe => ?_, fun hk => ?_, ?_⟩⟩
  · exact exec_dlen_string hk hrun rfl (by decide) (ofNat_stringLength_str6 ..)
  · exact exec_dlen_string hk hrun rfl (by decide) (ofNat_stringLength_str14 hbe ..)
  · exact exec_dlen_string hk hrun rfl (by decide) (ofNat_stringLength_str32 ..)
  · exact ⟨fun hk => exec_dlen_unread hk hrun rfl, fun hk => exec_dlen_unread hk hrun rfl,
      fun hk => exec_dlen_unread hk hrun rfl, fun hk => exec_dlen_unread hk hrun rfl,
      fun hk => exec_dlen_unread hk hrun rfl, fun _ hk => exec_dlen_unread hk hrun rfl,
      fun hk => exec_dlen_unread hk hrun rfl⟩

/-! ## ELS (rule R74) -/

/-- ELS reports the header size of the class on ENC. -/
theorem exec_els {s : State} (hrun : s.halt = false) :
    exec .els s = .next ((s.setOut0 (BitVec.ofNat 64 (headerSize (classifyTag s.params s.enc)))).setOk
      (headerSize (classifyTag s.params s.enc) != 0)) := issue_ok hrun _

/-- The header size of every class but the invalid marker. -/
theorem headerSize_of_ne_invalid {k : EntryKind} (h : k ≠ .invalid) :
    headerSize k = if k = .str14 then 2 else if k = .str32 then 5 else 1 := by
  cases k with
  | invalid => exact absurd rfl h
  | _ => rfl

/-- DLEN, where it completes, reports the header size of the class on ENC. -/
theorem exec_dlen_completed {s t : State} (hrun : s.halt = false) (h : exec .dlen s = .next t)
    (hdone : t.halt = false) :
    t.out0 = some (BitVec.ofNat 64 (headerSize (classifyTag s.params s.enc))) ∧
      t.ok = some (headerSize (classifyTag s.params s.enc) != 0) := by
  have hop := issue_completed hrun h hdone
  rcases decodedLength_cases s with ⟨r, hr, hsize, -⟩ | ⟨a, n, herr⟩
  · rw [hr] at hop
    obtain rfl := Except.ok.inj hop
    rw [← hsize]
    exact ⟨rfl, rfl⟩
  · rw [herr] at hop
    exact nomatch hop

/-- Settles O14: ELS and a DLEN that completes both report the header size of the class on ENC. -/
theorem elsReportsHeaderSize : Obligations.ElsReportsHeaderSize := by
  refine ⟨rfl, fun s hrun => ⟨fun hinvalid => ?_, fun hvalid => ?_, fun t u hels hdlen hdone => ?_⟩⟩
  · rw [exec_els hrun, hinvalid]
    rfl
  · rw [exec_els hrun, headerSize_of_ne_invalid hvalid]
    split_ifs <;> rfl
  · obtain rfl := Host.Outcome.next.inj ((exec_els hrun).symm.trans hels)
    obtain ⟨hout0, hok⟩ := exec_dlen_completed hrun hdlen hdone
    exact ⟨hout0.symm, hok.symm⟩

/-! ## SEE.W (rules R63, R75) -/

section
variable {s : State}

/-- The header for a string tag is that of the length on A, here the bytes bs. -/
theorem headerToStore_string {bs : List Byte} (htag : isStringTag s.enc = true) (ha : s.a.toNat < 2 ^ 32)
    (hbytes : strHeaderBytes s.params s.a.toNat = bs) : headerToStore s = .ok bs := by
  rw [headerToStore, if_pos htag, lengthOperand_fits ha, map_ok, hbytes]

theorem headerToStore_tooLong (htag : isStringTag s.enc = true) (ha : 2 ^ 32 ≤ s.a.toNat) :
    headerToStore s = .error (.operandRange s.a) := by
  rw [headerToStore, if_pos htag, lengthOperand_tooLong ha, map_error]

/-- The header for an integer tag is the tag, whatever A holds. -/
theorem headerToStore_integer (htag : isStringTag s.enc = false) : headerToStore s = .ok [s.enc] := by
  rw [headerToStore, htag]
  rfl

/-- SEE.W on a header bs, inside the window and outside it. -/
theorem exec_seeW_stores {bs : List Byte} (hrun : s.halt = false) (hbs : headerToStore s = .ok bs)
    (hpos : 0 < bs.length) :
    (s.baseAddr + bs.length ≤ s.params.bufLen → exec .seeW s =
      .next (State.answer { s with buf := s.buf.writeBytes s.baseAddr bs } (BitVec.ofNat 64 bs.length))) ∧
    (s.params.bufLen < s.baseAddr + bs.length →
      exec .seeW s = .next (s.takeFault (.bufferBounds s.baseAddr bs.length))) := by
  refine ⟨fun hin => ?_, fun hout => ?_⟩ <;> show issue s _ = _ <;> rw [hbs, bind_ok]
  · rw [memWriteBytes_inside hin, bind_ok, pure_eq_ok, issue_ok hrun]
  · rw [memWriteBytes_outside hpos hout, bind_error, issue_error hrun]

/-- SEE.W takes the fault of its operand. -/
theorem exec_seeW_error {f : Raise} (hrun : s.halt = false) (h : headerToStore s = .error f) :
    exec .seeW s = .next (s.takeFault f) := by
  show issue s _ = _
  rw [h, bind_error, issue_error hrun]

end

/-! The header of a length as slices of the port that holds it (rule R63). -/

theorem strHeaderBytes_short (p : Params) {a : Word64} (h : a.toNat ≤ 63) :
    strHeaderBytes p a.toNat = [p.tagStr06 ||| a.setWidth 8] := by
  rw [strHeaderBytes, if_pos h, BitVec.ofNat_toNat]

theorem strHeaderBytes_medium {p : Params} (hbe : p.str14Layout = .be) {a : Word64} (hlow : 63 < a.toNat)
    (hhigh : a.toNat ≤ 16383) :
    strHeaderBytes p a.toNat = [p.tagStr14 ||| (a.extractLsb' 8 6).setWidth 8, a.extractLsb' 0 8] := by
  rw [strHeaderBytes, if_neg (not_le.2 hlow), if_pos hhigh]
  simp only [str14Bytes, hbe, bitField_toNat, BitVec.ofNat_toNat]
  rw [BitVec.setWidth_eq]

theorem strHeaderBytes_long (p : Params) {a : Word64} (h : 16383 < a.toNat) :
    strHeaderBytes p a.toNat = [p.tagStr32, a.extractLsb' 0 8, a.extractLsb' 8 8, a.extractLsb' 16 8,
      a.extractLsb' 24 8] := by
  have hmedium : ¬ a.toNat ≤ 63 := by omega
  rw [strHeaderBytes, if_neg hmedium, if_neg (not_le.2 h), leBytes_four_toNat]

/-- Settles O15: the tag decides whether A is read, and the length the form of the header. -/
theorem seeWStoresHeader : Obligations.SeeWStoresHeader := by
  refine ⟨rfl, fun s hrun => ⟨fun htag hlong => ?_, fun htag hle => ?_, fun htag hgt hle hbe => ?_,
    fun htag hgt hfits => ?_, fun htag => ?_⟩⟩
  · exact exec_seeW_error hrun (headerToStore_tooLong (topBits_ne_three_iff.1 htag) hlong)
  · have hbs := headerToStore_string (topBits_ne_three_iff.1 htag) (by omega) (strHeaderBytes_short _ hle)
    exact exec_seeW_stores hrun hbs (Nat.succ_pos _)
  · have hbs := headerToStore_string (topBits_ne_three_iff.1 htag) (by omega) (strHeaderBytes_medium hbe hgt hle)
    exact exec_seeW_stores hrun hbs (Nat.succ_pos _)
  · have hbs := headerToStore_string (topBits_ne_three_iff.1 htag) hfits (strHeaderBytes_long _ hgt)
    exact exec_seeW_stores hrun hbs (Nat.succ_pos _)
  · exact exec_seeW_stores hrun (headerToStore_integer (topBits_eq_three_iff.1 htag)) (Nat.succ_pos _)

end Sys2Proof.Machine
end

section
/-! The payload width of an integer tag, the width policy, and the payload SAVI stores read back by LDI. -/

namespace Sys2Proof.Machine

/-! ## ISZ (rule R84) -/

section
variable {s : State} (hrun : s.halt = false)
include hrun

/-- An operation on the width of the tag on ENC takes InvalidIntegerEncoding where the tag has none. -/
theorem issue_integerWidth_none (hwidth : payloadWidth (classifyTag s.params s.enc) = none)
    (f : Nat → Except Raise State) :
    issue s (integerWidth s.params s.enc >>= f) = .next (s.takeFault (.invalidIntegerEncoding s.enc)) := by
  rw [integerWidth_none hwidth, bind_error, issue_error hrun]

/-- ISZ reports the width of a class that has one. -/
theorem exec_isz_width {k : EntryKind} {n : Nat} (hk : classifyTag s.params s.enc = k)
    (hwidth : payloadWidth k = some n) : exec .isz s = .next (s.answer (BitVec.ofNat 64 n)) := by
  show issue s _ = _
  rw [integerWidth_some (hk ▸ hwidth), bind_ok, pure_eq_ok, issue_ok hrun]

end

/-- Settles O30, class by class. -/
theorem iszReportsPayloadWidth : Obligations.IszReportsPayloadWidth := by
  refine ⟨rfl, fun s hrun => ⟨fun hk => exec_isz_width hrun hk rfl, fun hk => exec_isz_width hrun hk rfl,
    fun hk => exec_isz_width hrun hk rfl, fun hk => exec_isz_width hrun hk rfl,
    fun hk => exec_isz_width hrun hk rfl, fun _ hk => exec_isz_width hrun hk rfl, fun hk => ?_⟩⟩
  have hnone : ∀ k ∈ [EntryKind.str6, .str14, .str32, .invalid], payloadWidth k = none := by decide
  exact issue_integerWidth_none hrun (hnone _ hk) _

/-! ## The width policy (rule R81) -/

/-- In a legal configuration the selected tag has the class of the first width that holds the value. -/
theorem classifyTag_selectEncoding {p : Params} (h : p.legal = true) (v : Int) :
    classifyTag p (selectEncoding p v) =
      if 0 ≤ v ∧ v ≤ p.immEncMax then .imm v.toNat
      else if fitsBytes 1 v then .int8
      else if fitsBytes 2 v then .int16
      else if fitsBytes 3 v then .int24
      else if fitsBytes 4 v then .int32
      else .int64 := by
  obtain ⟨h8, h16, h24, h32, h64⟩ := classifyTag_fixed h
  obtain ⟨-, -, -, -, hmax⟩ := Params.legal_tags h
  unfold selectEncoding
  split_ifs with himm
  · exact classifyTag_imm h (by omega)
  all_goals assumption

/-- A value that gets no immediate tag gets a width that holds it, and no smaller one does. -/
theorem selectEncoding_width {p : Params} (h : p.legal = true) {v : Int} (hlow : -(2 ^ 63) ≤ v) (hhigh : v ≤ 2 ^ 63 - 1)
    (himm : ¬ (0 ≤ v ∧ v ≤ p.immEncMax)) :
    ∃ n, payloadWidth (classifyTag p (selectEncoding p v)) = some n ∧ 0 < n ∧ fitsBytes n v = true ∧
      ∀ m ∈ [1, 2, 3, 4], m < n → fitsBytes m v = false := by
  rw [classifyTag_selectEncoding h, if_neg himm]
  split_ifs with h1 h2 h3 h4
  · exact ⟨1, rfl, by decide, h1, by simp⟩
  · exact ⟨2, rfl, by decide, h2, by simp [h1]⟩
  · exact ⟨3, rfl, by decide, h3, by simp [h1, h2]⟩
  · exact ⟨4, rfl, by decide, h4, by simp [h1, h2, h3]⟩
  · exact ⟨8, rfl, by decide, (fitsBytes_iff 8 v).2 ⟨hlow, hhigh⟩, by simp [h1, h2, h3, h4]⟩

/-- Settles O29. -/
theorem selectEncodingTakesTheSmallestWidth : Obligations.SelectEncodingTakesTheSmallestWidth := by
  intro p v hlegal hlow hhigh
  refine ⟨fun himm => by rw [classifyTag_selectEncoding hlegal, if_pos himm], fun himm => ?_⟩
  obtain ⟨n, hwidth, hpos, hfits, hleast⟩ := selectEncoding_width hlegal hlow hhigh himm
  obtain ⟨hge, hle⟩ := (fitsBytes_iff n v).1 hfits
  refine ⟨n, hwidth, hpos, hge, hle, fun m hm hlt hbounds => ?_⟩
  exact absurd ((fitsBytes_iff m v).2 hbounds) (Bool.eq_false_iff.1 (hleast m hm hlt))

/-! ## SAVI (rule R86) -/

/-- The test of SAVI that takes OperandRange: under SAVI_RANGE = fault, a value outside the n bytes of its tag. -/
abbrev SaviOutOfRange (s : State) (n : Nat) : Prop :=
  s.params.saviRange = .fault ∧ 0 < n ∧ fitsBytes n s.a.toInt = false

theorem not_saviOutOfRange_of_fits {s : State} {n : Nat} (h : 0 < n → fitsBytes n s.a.toInt = true) :
    ¬ SaviOutOfRange s n := fun ⟨_, hpos, hout⟩ => nomatch (h hpos).symm.trans hout

theorem saviOutOfRange_iff (s : State) (n : Nat) :
    SaviOutOfRange s n ↔ s.params.saviRange = .fault ∧ 0 < n ∧
      ¬ (-(2 ^ (8 * n - 1)) ≤ s.a.toInt ∧ s.a.toInt ≤ 2 ^ (8 * n - 1) - 1) := by
  rw [SaviOutOfRange, ← fitsBytes_iff, Bool.not_eq_true]

/-- Past its checks SAVI is the store of the low n bytes of A, and its answer. -/
theorem exec_savi_eq_store {s : State} {n : Nat} (hwidth : payloadWidth (classifyTag s.params s.enc) = some n)
    (hrange : ¬ SaviOutOfRange s n) :
    exec .savi s = issue s (memWriteBytes s s.baseAddr (leBytes n s.a.toNat) >>= fun t =>
      .ok (t.answer (BitVec.ofNat 64 n))) := by
  show issue s _ = _
  rw [integerWidth_some hwidth, bind_ok, if_neg hrange, memWrite_eq, trunc64_sA]
  rfl

section
variable {s : State} {n : Nat} (hrun : s.halt = false)
  (hwidth : payloadWidth (classifyTag s.params s.enc) = some n)
include hrun hwidth

theorem exec_savi_outOfRange (hrange : SaviOutOfRange s n) :
    exec .savi s = .next (s.takeFault (.operandRange s.a)) := by
  show issue s _ = _
  rw [integerWidth_some hwidth, bind_ok, if_pos hrange, throw_eq_error, issue_error hrun]

variable (hrange : ¬ SaviOutOfRange s n)
include hrange

theorem exec_savi_outside (hpos : 0 < n) (hout : s.params.bufLen < s.baseAddr + n) :
    exec .savi s = .next (s.takeFault (.bufferBounds s.baseAddr n)) := by
  have hlen := leBytes_length n s.a.toNat
  rw [exec_savi_eq_store hwidth hrange, memWriteBytes_outside (by omega) (by omega), bind_error,
    issue_error hrun, hlen]

theorem exec_savi_stores (hin : n = 0 ∨ s.baseAddr + n ≤ s.params.bufLen) :
    exec .savi s = .next (State.answer { s with buf := s.buf.writeBytes s.baseAddr (leBytes n s.a.toNat) }
      (BitVec.ofNat 64 n)) := by
  rw [exec_savi_eq_store hwidth hrange, memWriteBytes_eq_ok.2 ⟨by rwa [leBytes_length], rfl⟩, bind_ok,
    issue_ok hrun]

end

/-- Settles O31: the tag check, the range check, then the store. -/
theorem saviStoresPayload : Obligations.SaviStoresPayload := by
  refine ⟨rfl, fun s hrun => ⟨fun hnone => issue_integerWidth_none hrun hnone _, fun n hwidth => ?_⟩⟩
  simp only [← saviOutOfRange_iff]
  refine ⟨exec_savi_outOfRange hrun hwidth, fun hrange => exec_savi_outside hrun hwidth hrange, fun hrange hin => ?_⟩
  rw [exec_savi_stores hrun hwidth hrange hin, leBytes_eq_slices]
  rfl

/-! ## LDI on what SAVI stored (rules R85, R87) -/

/-- LDI's value under an integer tag with a payload inside the window. -/
theorem loadedValue_payload {s : State} {n : Nat} (hwidth : payloadWidth (classifyTag s.params s.enc) = some n)
    (hpos : 0 < n) (hin : s.baseAddr + n ≤ s.params.bufLen) :
    loadedValue s = .ok (payloadValue (s.buf.readBytes s.baseAddr n)) := by
  have hread := memRead_inside hin
  unfold loadedValue
  cases hk : classifyTag s.params s.enc with
  | int8 | int16 | int24 | int32 | int64 =>
    rw [hk] at hwidth
    obtain rfl := Option.some.inj hwidth
    simp only [hread, map_ok]
  | imm k =>
    rw [hk] at hwidth
    exact absurd (Option.some.inj hwidth) hpos.ne
  | _ =>
    rw [hk] at hwidth
    exact nomatch hwidth

theorem loadedValue_imm {s : State} {k : Nat} (hk : classifyTag s.params s.enc = .imm k) :
    loadedValue s = .ok k := by
  rw [loadedValue, hk]

/-- LDI answers the value it read. -/
theorem exec_ldi_value {s : State} {v : Int} (hrun : s.halt = false) (hvalue : loadedValue s = .ok v) :
    exec .ldi s = .next (s.answer (trunc64 v)) := by
  show issue s _ = _
  rw [hvalue, bind_ok, pure_eq_ok, issue_ok hrun]

/-- The low bytes of a value that fits them carry the value. -/
theorem payloadValue_leBytes {n : Nat} {a : Word64} (hpos : 0 < n) (hn : n ≤ 8) (hfits : fitsBytes n a.toInt = true) :
    payloadValue (leBytes n a.toNat) = a.toInt := by
  have hmod : (a.toNat : Int) = a.toInt % 2 ^ 64 := by
    rw [BitVec.toInt_eq_toNat_cond]
    have hlt := a.isLt
    split_ifs <;> omega
  rw [payloadValue, leBytes_length, leNat_leBytes, sextInt_low hpos hn hfits hmod]

/-- Settles O33: an immediate tag carries the value itself, any other tag selected has a width that holds it. -/
theorem integerPayloadRoundTrip : Obligations.IntegerPayloadRoundTrip := by
  intro s hrun hlegal hwf henc hin
  by_cases himm : 0 ≤ s.a.toInt ∧ s.a.toInt ≤ s.params.immEncMax
  · have hk : classifyTag s.params s.enc = .imm s.a.toInt.toNat := by
      rw [henc, classifyTag_selectEncoding hlegal, if_pos himm]
    have hsavi := exec_savi_stores (n := 0) hrun (by rw [hk]; rfl) (not_saviOutOfRange_of_fits nofun) (.inl rfl)
    refine ⟨_, _, hsavi, exec_ldi_value hrun (loadedValue_imm hk), ?_, rfl, rfl⟩
    rw [State.answer_out0, Int.toNat_of_nonneg himm.1, trunc64_sA]
  · obtain ⟨n, hwidth, hpos, hfits, -⟩ := selectEncoding_width hlegal (BitVec.le_toInt s.a)
      (Int.le_sub_one_of_lt (BitVec.toInt_lt (x := s.a))) himm
    rw [← henc] at hwidth
    rw [hwidth, Option.getD_some] at hin
    have hn : n ≤ 8 := by have := payloadWidth_values hwidth; omega
    have hsavi := exec_savi_stores hrun hwidth (not_saviOutOfRange_of_fits fun _ => hfits) (.inr hin)
    have hback := Memory.readBytes_writeBytes (addr := s.baseAddr) (bs := leBytes n s.a.toNat) hwf
    rw [leBytes_length] at hback
    refine ⟨_, _, hsavi, exec_ldi_value hrun (loadedValue_payload hwidth hpos hin), ?_, rfl, rfl⟩
    show some (trunc64 (payloadValue ((s.buf.writeBytes s.baseAddr _).readBytes s.baseAddr n))) = _
    rw [hback, payloadValue_leBytes hpos hn hfits, trunc64_sA]

end Sys2Proof.Machine
end

section
/-! The decimal parser: the value of a digit string, the error kinds of the strings of at most 20 bytes, and the
canonical spelling as the only one it accepts. -/

namespace Sys2Proof.Machine

/-! ## Digit strings (rules R78, R80) -/

/-- Every byte is '0' to '9'. -/
abbrev AllDigits (cs : List Byte) : Prop := ∀ c ∈ cs, 0x30 ≤ c.toNat ∧ c.toNat ≤ 0x39

/-- The first byte is '1' to '9'. -/
abbrev GoodFirst (cs : List Byte) : Prop := ∃ c, cs.head? = some c ∧ 0x31 ≤ c.toNat ∧ c.toNat ≤ 0x39

/-- The bytes behind an optional sign. -/
abbrev unsignedPart (bs : List Byte) : List Byte := if bs.head? = some 0x2D then bs.tail else bs

theorem decimalValue_concat (v : Nat) (cs : List Byte) (c : Byte) :
    decimalValue v (cs ++ [c]) = decimalValue v cs * 10 + (c.toNat - 0x30) := by simp [decimalValue]

theorem allDigits_concat {cs : List Byte} {c : Byte} :
    AllDigits (cs ++ [c]) ↔ AllDigits cs ∧ 0x30 ≤ c.toNat ∧ c.toNat ≤ 0x39 := by
  rw [AllDigits, List.forall_mem_append, List.forall_mem_singleton]

theorem goodFirst_concat {cs : List Byte} {c : Byte} (hne : cs ≠ []) : GoodFirst (cs ++ [c]) ↔ GoodFirst cs := by
  rw [GoodFirst, List.head?_append_of_ne_nil _ hne]

/-- A digit string without leading zero has a positive value. -/
theorem decimalValue_pos {cs : List Byte} (h : GoodFirst cs) : 0 < decimalValue 0 cs := by
  obtain ⟨c, hc, hlow, -⟩ := h
  obtain ⟨ds, rfl⟩ := List.head?_eq_some_iff.1 hc
  have hle : 0 * 10 + (c.toNat - 0x30) ≤ decimalValue 0 (c :: ds) := le_decimalValue ds _
  omega

/-- The last digit of a number of two digits or more stands behind the digits of its tenth. -/
theorem decimalDigits_of_ten_le {fuel n : Nat} (h : 10 ≤ n) :
    decimalDigits (fuel + 1) n [] = decimalDigits fuel (n / 10) [] ++ [BitVec.ofNat 8 (0x30 + n % 10)] := by
  rw [decimalDigits, if_neg (not_lt.2 h), decimalDigits_acc]

theorem decimalDigits_of_lt_ten {fuel n : Nat} (h : n < 10) :
    decimalDigits (fuel + 1) n [] = [BitVec.ofNat 8 (0x30 + n)] := by
  rw [decimalDigits, if_pos h]

theorem ofNat_digit {c : Byte} (h : 0x30 ≤ c.toNat) : BitVec.ofNat 8 (0x30 + (c.toNat - 0x30)) = c := by
  rw [Nat.add_sub_cancel' h, BitVec.ofNat_toNat, BitVec.setWidth_eq]

/-- A digit string without leading zero is the spelling of its value. -/
theorem decimalDigits_decimalValue {cs : List Byte} (hdigits : AllDigits cs) (hfirst : GoodFirst cs) {fuel : Nat}
    (hfuel : decimalValue 0 cs < 10 ^ fuel) : decimalDigits fuel (decimalValue 0 cs) [] = cs := by
  induction cs using List.reverseRecOn generalizing fuel with
  | nil => exact absurd (decimalValue_pos hfirst) (Nat.lt_irrefl 0)
  | append_singleton cs c ih =>
    obtain ⟨hcs, hlow, hhigh⟩ := allDigits_concat.1 hdigits
    have hpos := decimalValue_pos hfirst
    rw [decimalValue_concat] at hfuel hpos ⊢
    obtain ⟨fuel, rfl⟩ : ∃ k, fuel = k + 1 := ⟨fuel - 1, by cases fuel <;> omega⟩
    rcases eq_or_ne cs [] with rfl | hne
    · rw [decimalValue, List.foldl_nil, Nat.zero_mul, Nat.zero_add, decimalDigits_of_lt_ten (by omega),
        ofNat_digit hlow, List.nil_append]
    · have hfirst' := (goodFirst_concat hne).1 hfirst
      have hpos' := decimalValue_pos hfirst'
      have hdiv : (decimalValue 0 cs * 10 + (c.toNat - 0x30)) / 10 = decimalValue 0 cs := by omega
      have hmod : (decimalValue 0 cs * 10 + (c.toNat - 0x30)) % 10 = c.toNat - 0x30 := by omega
      rw [decimalDigits_of_ten_le (by omega), hdiv, hmod, ofNat_digit hlow,
        ih hcs hfirst' (by rw [pow_succ] at hfuel; omega)]

/-! ## The digit loop on at most 20 bytes (rules R78, R82) -/

/-- What the loop makes of one more byte behind digits of value v: the kind of overflow depends on v alone. -/
theorem parseDigits_singleton (c : Byte) (v : Nat) :
    parseDigits [c] v =
      if 0x30 ≤ c.toNat ∧ c.toNat ≤ 0x39 then
        if v * 10 + (c.toNat - 0x30) < 2 ^ 64 then .ok (v * 10 + (c.toNat - 0x30))
        else if (2 ^ 64 - 1) / 10 < (v * 10 + (c.toNat - 0x30)) / 10 then .error .overFlowMul
        else .error .overFlowAdd
      else .error .invalidChar := by
  simp only [← isDigit_iff]
  by_cases hc : isDigit c = true
  · obtain ⟨hlow, hhigh⟩ := (isDigit_iff c).1 hc
    have htenth : (v * 10 + (c.toNat - 0x30)) / 10 = v := by omega
    rw [if_pos hc, htenth, parseDigits, if_neg (by simp [hc])]
    unfold digitValue
    by_cases hlt : v * 10 + (c.toNat - 0x30) < 2 ^ 64
    · rw [if_pos hlt, if_neg (by omega), if_neg (by omega), parseDigits]
    · rw [if_neg hlt]
      by_cases hmul : (2 ^ 64 - 1) / 10 < v
      · rw [if_pos hmul, if_pos hmul]
      · rw [if_neg hmul, if_neg hmul, if_pos (by omega)]
  · rw [if_neg hc, parseDigits, if_pos (by simpa using hc)]

/-- A string of at most 20 bytes is answered by its digits and their value: only the 20th digit can overflow. -/
theorem parseDigits_short {body : List Byte} (hlen : body.length ≤ 20) :
    parseDigits body 0 =
      if AllDigits body then
        if decimalValue 0 body < 2 ^ 64 then .ok (decimalValue 0 body)
        else if (2 ^ 64 - 1) / 10 < decimalValue 0 body / 10 then .error .overFlowMul
        else .error .overFlowAdd
      else .error .invalidChar := by
  rcases List.eq_nil_or_concat' body with rfl | ⟨xs, c, rfl⟩
  · rfl
  · have hxs : xs.length + 0 ≤ 19 := by rw [List.length_append, List.length_singleton] at hlen; omega
    rw [parseDigits_append (k := 0) (by decide) hxs, parseDigits_singleton]
    simp only [allDigits_concat, decimalValue_concat]
    by_cases hdigits : AllDigits xs
    · simp only [if_pos hdigits, and_iff_right hdigits]
    · rw [if_neg hdigits, if_neg fun h => hdigits h.1]

/-! ## The sign (rule R78) -/

/-- A kind the magnitude ends in is the string's. -/
theorem parseString_error {bs : List Byte} {k : ErrKind} (hbs : bs ≠ [0x30])
    (h : parseMagnitude (unsignedPart bs) = .error k) : parseString bs = .error k := by
  unfold parseString
  by_cases hneg : bs.head? = some 0x2D
  · rw [unsignedPart, if_pos hneg] at h
    rw [if_neg hbs, if_pos hneg, h]
  · rw [unsignedPart, if_neg hneg] at h
    rw [if_neg hbs, if_neg hneg, h]

theorem parseString_negative {bs : List Byte} {v : Nat} (hneg : bs.head? = some 0x2D)
    (h : parseMagnitude (unsignedPart bs) = .ok v) :
    parseString bs = if 2 ^ 63 < v then .error .overFlowNegative else .ok (-(v : Int)) := by
  have hbs : bs ≠ [0x30] := by rintro rfl; exact absurd hneg (by decide)
  rw [unsignedPart, if_pos hneg] at h
  rw [parseString, if_neg hbs, if_pos hneg, h]

theorem parseString_nonnegative {bs : List Byte} {v : Nat} (hbs : bs ≠ [0x30]) (hneg : bs.head? ≠ some 0x2D)
    (h : parseMagnitude (unsignedPart bs) = .ok v) :
    parseString bs = if 2 ^ 63 - 1 < v then .error .overFlowPositive else .ok (v : Int) := by
  rw [unsignedPart, if_neg hneg] at h
  rw [parseString, if_neg hbs, if_neg hneg, h]

/-- Settles O24: the first digit, then the loop on the digits, then the sign's range. -/
theorem parserErrorKindsOfShortStrings : Obligations.ParserErrorKindsOfShortStrings := by
  intro bs hpos hlen hbs neg body goodFirst goodRest value
  have hbody : body.length ≤ 20 := by
    show (unsignedPart bs).length ≤ 20
    unfold unsignedPart
    split
    · rw [List.length_tail]; omega
    · exact hlen
  have hloop (hfirst : goodFirst) : parseMagnitude body = _ :=
    (parseMagnitude_good hfirst).trans (parseDigits_short hbody)
  have hvalue (hfirst : goodFirst) (hrest : goodRest) (hlt : value < 2 ^ 64) : parseMagnitude body = .ok value := by
    rw [hloop hfirst, if_pos hrest, if_pos hlt]
  refine ⟨fun hbad => parseString_error hbs (parseMagnitude_bad hbad), fun hfirst hbad => ?_,
    fun hfirst hrest hge hmul => ?_, fun hfirst hrest hge hadd => ?_, fun hfirst hrest hlt hneg hbig => ?_,
    fun hfirst hrest hlt hneg hle => ?_, fun hfirst hrest hlt hneg hbig => ?_, fun hfirst hrest hlt hneg => ?_⟩
  · exact parseString_error hbs ((hloop hfirst).trans (if_neg hbad))
  · refine parseString_error hbs ((hloop hfirst).trans ?_)
    rw [if_pos hrest, if_neg (not_lt.2 hge), if_pos hmul]
  · refine parseString_error hbs ((hloop hfirst).trans ?_)
    rw [if_pos hrest, if_neg (not_lt.2 hge), if_neg (not_lt.2 hadd)]
  · rw [parseString_negative hneg (hvalue hfirst hrest hlt), if_pos hbig]
  · rw [parseString_negative hneg (hvalue hfirst hrest hlt), if_neg (not_lt.2 hle)]
  · rw [parseString_nonnegative hbs hneg (hvalue hfirst hrest hlt), if_pos (by omega)]
  · rw [parseString_nonnegative hbs hneg (hvalue hfirst hrest (by omega)), if_neg (by omega)]

/-! ## The strings the parser accepts (rule R80) -/

/-- A magnitude the parser accepts is positive, below 2^64, and spelled as rule R80 spells it. -/
theorem parseMagnitude_ok {body : List Byte} {v : Nat} (h : parseMagnitude body = .ok v) :
    0 < v ∧ v < 2 ^ 64 ∧ body = decimalDigits 20 v [] := by
  by_cases hfirst : GoodFirst body
  · rw [parseMagnitude_good hfirst] at h
    obtain ⟨hdigits, rfl, hlt⟩ := parseDigits_ok (by decide) h
    exact ⟨decimalValue_pos hfirst, hlt, (decimalDigits_decimalValue hdigits hfirst (by omega)).symm⟩
  · exact nomatch (parseMagnitude_bad hfirst).symm.trans h

/-- The spelling of a positive magnitude below 2^64 is accepted. -/
theorem parseMagnitude_decimalDigits {v : Nat} (hpos : 0 < v) (hlt : v < 2 ^ 64) :
    parseMagnitude (decimalDigits 20 v []) = .ok v := by
  have hvalue : decimalValue 0 (decimalDigits 20 v []) = v := decimalDigits_value (by omega)
  rw [parseMagnitude_good (decimalDigits_first (by omega) hpos),
    parseDigits_of_lt (decimalDigits_isDigit 20 v) (by rwa [hvalue]), hvalue]

theorem canonicalDecimal_negative {v : Nat} (hpos : 0 < v) :
    canonicalDecimal (-(v : Int)) = 0x2D :: decimalDigits 20 v [] := by
  rw [canonicalDecimal, if_pos (by omega), Int.natAbs_neg, Int.natAbs_natCast]

theorem canonicalDecimal_natCast (v : Nat) : canonicalDecimal v = decimalDigits 20 v [] := by
  rw [canonicalDecimal, if_neg (by omega), Int.natAbs_natCast]

/-- No spelling of a positive number starts with a sign or is that of zero. -/
theorem decimalDigits_unsigned {v : Nat} (hpos : 0 < v) (hlt : v < 2 ^ 64) :
    decimalDigits 20 v [] ≠ [0x30] ∧ (decimalDigits 20 v []).head? ≠ some 0x2D := by
  obtain ⟨c, hc, hlow, -⟩ := decimalDigits_first (fuel := 20) (n := v) (by omega) hpos
  constructor
  · intro hzero
    rw [hzero] at hc
    obtain rfl := Option.some.inj hc
    exact absurd hlow (by decide)
  · rw [hc]
    rintro ⟨⟩
    exact absurd hlow (by decide)

/-- The parser gives back every value of i64 from its canonical spelling. -/
theorem parseString_canonicalDecimal {v : Int} (hlow : -(2 ^ 63) ≤ v) (hhigh : v ≤ 2 ^ 63 - 1) :
    parseString (canonicalDecimal v) = .ok v := by
  rcases lt_trichotomy v 0 with hneg | rfl | hpos
  · obtain ⟨n, rfl⟩ : ∃ n : Nat, v = -n := ⟨v.natAbs, by omega⟩
    have hmagnitude := parseMagnitude_decimalDigits (v := n) (by omega) (by omega)
    rw [canonicalDecimal_negative (by omega),
      parseString_negative (bs := 0x2D :: decimalDigits 20 n []) rfl hmagnitude, if_neg (by omega)]
  · rfl
  · obtain ⟨n, rfl⟩ : ∃ n : Nat, v = n := ⟨v.natAbs, by omega⟩
    obtain ⟨hzero, hsign⟩ := decimalDigits_unsigned (v := n) (by omega) (by omega)
    have hmagnitude := parseMagnitude_decimalDigits (v := n) (by omega) (by omega)
    rw [canonicalDecimal_natCast, parseString_nonnegative hzero hsign (by rwa [unsignedPart, if_neg hsign]),
      if_neg (by omega)]

/-- What the parser accepts is the canonical spelling of the value of i64 it answers. -/
theorem eq_canonicalDecimal_of_parseString_ok {bs : List Byte} {v : Int} (h : parseString bs = .ok v) :
    -(2 ^ 63) ≤ v ∧ v ≤ 2 ^ 63 - 1 ∧ bs = canonicalDecimal v := by
  by_cases hbs : bs = [0x30]
  · subst hbs
    obtain rfl : (0 : Int) = v := Except.ok.inj h
    exact ⟨by decide, by decide, rfl⟩
  rcases hmagnitude : parseMagnitude (unsignedPart bs) with k | n
  · exact nomatch (parseString_error hbs hmagnitude).symm.trans h
  obtain ⟨hpos, -, hbody⟩ := parseMagnitude_ok hmagnitude
  by_cases hsign : bs.head? = some 0x2D
  · rw [parseString_negative hsign hmagnitude] at h
    split_ifs at h with hbig
    obtain rfl := Except.ok.inj h
    obtain ⟨ds, rfl⟩ := List.head?_eq_some_iff.1 hsign
    rw [canonicalDecimal_negative hpos]
    exact ⟨by omega, by omega, congrArg _ hbody⟩
  · rw [parseString_nonnegative hbs hsign hmagnitude] at h
    split_ifs at h with hbig
    obtain rfl := Except.ok.inj h
    rw [unsignedPart, if_neg hsign] at hbody
    rw [canonicalDecimal_natCast]
    exact ⟨by omega, by omega, hbody⟩

/-- The spelling of a value of i64 has 1 to 20 bytes (rule R82). -/
theorem canonicalDecimal_length {v : Int} (hlow : -(2 ^ 63) ≤ v) (hhigh : v ≤ 2 ^ 63 - 1) :
    0 < (canonicalDecimal v).length ∧ (canonicalDecimal v).length ≤ 20 := by
  have hpos : 0 < (decimalDigits 20 v.natAbs []).length := decimalDigits_length_pos 19 _
  have hle : (decimalDigits 20 v.natAbs []).length ≤ 19 := decimalDigits_length_le (by omega) (by decide)
  unfold canonicalDecimal
  split
  · rw [List.length_cons]; omega
  · omega

end Sys2Proof.Machine
end

section
/-! What S2N and TRYE answer on the string at BASE, and the faults they take. -/

namespace Sys2Proof.Machine

/-! ## The parse of the string at BASE (rule R78) -/

section
variable {s : State} {addr n : Nat}

/-- No byte is read for an empty string or one at or above STR_MAX_LEN. -/
theorem parseDec_unread (h : n = 0 ∨ s.params.strMaxLen ≤ n) : parseDec s addr n = .ok (.error .invalidString) :=
  if_pos h

theorem parseDec_outside (hpos : 0 < n) (hmax : n < s.params.strMaxLen) (hout : s.params.bufLen < addr + n) :
    parseDec s addr n = .error (.bufferBounds addr n) := by
  rw [parseDec, if_neg (by omega), memRead_outside hpos hout, map_error]

theorem parseDec_inside (hpos : 0 < n) (hmax : n < s.params.strMaxLen) (hin : addr + n ≤ s.params.bufLen) :
    parseDec s addr n = .ok (parseString (s.buf.readBytes addr n)) := by
  rw [parseDec, if_neg (by omega), memRead_inside hin, map_ok]

end

/-! ## Answers written from a parse (rules R79, R83, R90) -/

section
variable {s : State} (hrun : s.halt = false)
include hrun

/-- A part of the pseudocode that answers a, and the ports written from a. -/
theorem issue_map_ok {α : Type} {x : Except Raise α} {a : α} (h : x = .ok a) (f : α → State) :
    issue s (x.map f) = .next (f a) := by
  rw [h, map_ok, issue_ok hrun]

theorem issue_map_error {α : Type} {x : Except Raise α} {e : Raise} (h : x = .error e) (f : α → State) :
    issue s (x.map f) = .next (s.takeFault e) := by
  rw [h, map_error, issue_error hrun]

/-- S2N answers what `parse_dec` decided. -/
theorem exec_s2n_ok {r : Except ErrKind Int} (h : parseDec s s.baseAddr s.strLen = .ok r) :
    exec .s2n s = .next (s.answerNumber r) := issue_map_ok hrun h _

/-- TRYE answers its choice. -/
theorem exec_trye_ok {c : Option (Int × Byte)} (h : tryEncoding s = .ok c) :
    exec .trye s = .next (s.answerEncoding c) := issue_map_ok hrun h _

end

/-! ## S2N (rules R79, R80, R92) -/

/-- Settles O23: the ceiling, then the window, then the parser's answer. -/
theorem s2nParsesTheString : Obligations.S2nParsesTheString := by
  refine ⟨rfl, fun s hrun => ⟨fun hunread => exec_s2n_ok hrun (parseDec_unread hunread),
    fun hpos hmax hout => issue_map_error hrun (parseDec_outside hpos hmax hout) _, fun hpos hmax hin => ?_⟩⟩
  have hexec := exec_s2n_ok hrun (parseDec_inside hpos hmax hin)
  refine ⟨fun v hv => by rw [hexec, hv]; rfl, ?_⟩
  simp only [List.forall_mem_cons]
  refine ⟨?_, ?_, ?_, ?_, ?_, ?_, ?_, nofun⟩ <;> intro hk <;> rw [hexec, hk] <;> rfl

/-- Settles O25. -/
theorem s2nAcceptsCanonicalDecimals : Obligations.S2nAcceptsCanonicalDecimals := by
  intro s v hrun hlegal hlow hhigh hlen hin hbytes
  obtain ⟨hpos, hle⟩ := canonicalDecimal_length hlow hhigh
  obtain ⟨hceiling, -⟩ := Params.legal_ceilings hlegal
  rw [← hlen] at hpos hle
  have hparse := parseDec_inside hpos (Nat.lt_of_le_of_lt hle hceiling) hin
  rw [hbytes, parseString_canonicalDecimal hlow hhigh] at hparse
  rw [exec_s2n_ok hrun hparse]
  rfl

/-- Where `parse_dec` answers a value, it has read the string and the parser has accepted it. -/
theorem parseString_of_parseDec_ok {s : State} {addr n : Nat} {v : Int} (h : parseDec s addr n = .ok (.ok v)) :
    parseString (s.buf.readBytes addr n) = .ok v := by
  unfold parseDec at h
  split_ifs at h
  · exact nomatch Except.ok.inj h
  · rcases memRead_cases s addr n with ⟨bs, hread, -, rfl⟩ | hread <;> rw [hread] at h
    · exact Except.ok.inj h
    · exact nomatch h

/-- Settles O26: OK = 1 is the answer to a parsed value alone. -/
theorem s2nAcceptsOnlyCanonicalDecimals : Obligations.S2nAcceptsOnlyCanonicalDecimals := by
  intro s t hrun hexec hdone hok
  have hop := issue_completed hrun hexec hdone
  rcases hparse : parseDec s s.baseAddr s.strLen with f | r <;> rw [hparse] at hop
  · exact nomatch hop
  · obtain rfl := Except.ok.inj hop
    cases r with
    | error k => exact nomatch hok
    | ok v =>
      obtain ⟨hlow, hhigh, hbytes⟩ := eq_canonicalDecimal_of_parseString_ok (parseString_of_parseDec_ok hparse)
      exact ⟨v, hlow, hhigh, rfl, rfl, hbytes⟩

/-! ## TRYE (rules R82, R83) -/

section
variable {s : State}

/-- Absent, with no byte read, for an empty string or one at or above either ceiling. -/
theorem tryEncoding_unread (h : s.strLen = 0 ∨ s.params.tryEncMaxLen ≤ s.strLen ∨ s.params.strMaxLen ≤ s.strLen) :
    tryEncoding s = .ok none := by
  unfold tryEncoding
  split_ifs with hceiling
  · rfl
  · rw [parseDec_unread (by omega), map_ok]
    rfl

variable (hpos : 0 < s.strLen) (hmax : s.strLen < s.params.tryEncMaxLen)
include hpos hmax

/-- Below TRYE's own ceiling the parse decides. -/
theorem tryEncoding_read :
    tryEncoding s = (parseDec s s.baseAddr s.strLen).map (encodingChoice s.params) := if_neg (by omega)

theorem tryEncoding_outside (hmax' : s.strLen < s.params.strMaxLen)
    (hout : s.params.bufLen < s.baseAddr + s.strLen) :
    tryEncoding s = .error (.bufferBounds s.baseAddr s.strLen) := by
  rw [tryEncoding_read hpos hmax, parseDec_outside hpos hmax' hout, map_error]

theorem tryEncoding_inside (hmax' : s.strLen < s.params.strMaxLen) (hin : s.baseAddr + s.strLen ≤ s.params.bufLen) :
    tryEncoding s = .ok (encodingChoice s.params (parseString (s.buf.readBytes s.baseAddr s.strLen))) := by
  rw [tryEncoding_read hpos hmax, parseDec_inside hpos hmax' hin, map_ok]

end

/-- Settles O27: the ceilings, then the window, then the parser's answer. -/
theorem tryeChoosesIntegerStorage : Obligations.TryeChoosesIntegerStorage := by
  refine ⟨rfl, fun s hrun => ⟨fun hunread => exec_trye_ok hrun (tryEncoding_unread hunread),
    fun hpos htry hmax hout => issue_map_error hrun (tryEncoding_outside hpos htry hmax hout) _,
    fun hpos htry hmax hin => ?_⟩⟩
  have hexec := exec_trye_ok hrun (tryEncoding_inside hpos htry hmax hin)
  exact ⟨fun v hv => by rw [hexec, hv]; rfl, fun k hk => by rw [hexec, hk]; rfl⟩

/-- The parser accepts no empty string and none of more than 20 bytes (rule R82). -/
theorem parseString_ok_length {bs : List Byte} {v : Int} (h : parseString bs = .ok v) :
    0 < bs.length ∧ bs.length ≤ 20 := by
  obtain ⟨hlow, hhigh, rfl⟩ := eq_canonicalDecimal_of_parseString_ok h
  exact canonicalDecimal_length hlow hhigh

/-- With ceilings of at least 21 the parser alone decides: where one keeps TRYE from reading the string, the parser
would accept nothing there. -/
theorem tryEncoding_of_ceilings {s : State} (hmax : 21 ≤ s.params.strMaxLen) (htry : 21 ≤ s.params.tryEncMaxLen)
    (hin : s.baseAddr + s.strLen ≤ s.params.bufLen) :
    tryEncoding s = .ok (encodingChoice s.params (parseString (s.buf.readBytes s.baseAddr s.strLen))) := by
  by_cases hunread : s.strLen = 0 ∨ s.params.tryEncMaxLen ≤ s.strLen ∨ s.params.strMaxLen ≤ s.strLen
  · rw [tryEncoding_unread hunread]
    rcases hparse : parseString (s.buf.readBytes s.baseAddr s.strLen) with k | v
    · rfl
    · have hlen := parseString_ok_length hparse
      rw [Memory.readBytes_length] at hlen
      omega
  · exact tryEncoding_inside (by omega) (by omega) (by omega) hin

/-- Settles O28: under either pair of ceilings the answer is the parser's. -/
theorem ceilingsDoNotChangeTrye : Obligations.CeilingsDoNotChangeTrye := by
  intro s strMax tryMax hrun hlegal hstrMax htryMax hin
  obtain ⟨hstr, htry⟩ := Params.legal_ceilings hlegal
  have hexec := exec_trye_ok hrun (tryEncoding_of_ceilings hstr htry hin)
  have hother := exec_trye_ok (s := { s with params := { s.params with strMaxLen := strMax, tryEncMaxLen := tryMax } })
    hrun (tryEncoding_of_ceilings hstrMax htryMax hin)
  refine ⟨_, _, hexec, hother, ?_⟩
  simp only
  cases parseString (s.buf.readBytes s.baseAddr s.strLen) with
  | ok v => exact ⟨rfl, rfl, rfl, rfl⟩
  | error k => exact ⟨rfl, rfl, rfl, rfl⟩

end Sys2Proof.Machine
end

section
/-! What LDI answers, and the faults it takes. -/

namespace Sys2Proof.Machine

/-! ## The payload as the bit vector of its bytes (rules R8, R85) -/

/-- Bytes read little-endian: the lowest address is the lowest byte, below the bytes that follow it. -/
theorem leNat_readBytes_succ {m : Memory} {addr n w : Nat} {v : BitVec w}
    (h : leNat (m.readBytes (addr + 1) n) = v.toNat) :
    leNat (m.readBytes addr (n + 1)) = (v ++ m.read addr).toNat := by
  rw [Memory.readBytes, leNat, h, toNat_append_byte]
  omega

/-- One byte read is that byte. -/
theorem leNat_readBytes_one (m : Memory) (addr : Nat) : leNat (m.readBytes addr 1) = (m.read addr).toNat := by
  rw [Memory.readBytes, Memory.readBytes, leNat, leNat, Nat.mul_zero, Nat.add_zero]

/-- The signed payload of n bytes is the sign extension of the bit vector they make. -/
theorem trunc64_payloadValue {bs : List Byte} {n : Nat} {x : BitVec (8 * n)} (hpos : 0 < n) (hlen : bs.length = n)
    (hx : leNat bs = x.toNat) : trunc64 (payloadValue bs) = x.signExtend 64 := by
  rw [payloadValue, hx, hlen, trunc64_sextInt (by omega)]

/-! ## LDI (rule R87) -/

/-- Under a tag with payload bytes LDI's value is read from them and from nowhere else. -/
theorem loadedValue_eq_memRead {s : State} {n : Nat} (hwidth : payloadWidth (classifyTag s.params s.enc) = some n)
    (hpos : 0 < n) : loadedValue s = (memRead s s.baseAddr n).map payloadValue := by
  unfold loadedValue
  cases hk : classifyTag s.params s.enc with
  | int8 | int16 | int24 | int32 | int64 =>
    rw [hk] at hwidth
    obtain rfl := Option.some.inj hwidth
    rfl
  | imm k =>
    rw [hk] at hwidth
    exact absurd (Option.some.inj hwidth) hpos.ne
  | str6 | str14 | str32 | invalid =>
    rw [hk] at hwidth
    exact nomatch hwidth

/-- LDI's fault where the payload is not inside the window. -/
theorem loadedValue_outside {s : State} {n : Nat} (hwidth : payloadWidth (classifyTag s.params s.enc) = some n)
    (hpos : 0 < n) (hout : s.params.bufLen < s.baseAddr + n) :
    loadedValue s = .error (.bufferBounds s.baseAddr n) := by
  rw [loadedValue_eq_memRead hwidth hpos, memRead_outside hpos hout, map_error]

/-- LDI's fault under a tag of no integer. -/
theorem loadedValue_noWidth {s : State} (hwidth : payloadWidth (classifyTag s.params s.enc) = none) :
    loadedValue s = .error (.invalidIntegerEncoding s.enc) := by
  unfold loadedValue
  cases hk : classifyTag s.params s.enc with
  | str6 | str14 | str32 | invalid => rfl
  | int8 | int16 | int24 | int32 | int64 | imm k =>
    rw [hk] at hwidth
    exact nomatch hwidth

section
variable {s : State} {k : EntryKind} (hrun : s.halt = false) (hk : classifyTag s.params s.enc = k)
include hrun

/-- LDI takes the fault of its read. -/
theorem exec_ldi_error {e : Raise} (h : loadedValue s = .error e) : exec .ldi s = .next (s.takeFault e) := by
  show issue s _ = _
  rw [h, bind_error, issue_error hrun]

include hk

/-- LDI under a class of n payload bytes that make the bit vector x, inside the window and outside it. -/
theorem exec_ldi_payload {n : Nat} {x : BitVec (8 * n)} (hwidth : payloadWidth k = some n) (hpos : 0 < n)
    (hx : leNat (s.buf.readBytes s.baseAddr n) = x.toNat) :
    (s.baseAddr + n ≤ s.params.bufLen → exec .ldi s = .next (s.answer (x.signExtend 64))) ∧
    (s.params.bufLen < s.baseAddr + n → exec .ldi s = .next (s.takeFault (.bufferBounds s.baseAddr n))) := by
  subst hk
  refine ⟨fun hin => ?_, fun hout => exec_ldi_error hrun (loadedValue_outside hwidth hpos hout)⟩
  rw [exec_ldi_value hrun (loadedValue_payload hwidth hpos hin),
    trunc64_payloadValue hpos (Memory.readBytes_length ..) hx]

end

/-- Settles O32, class by class: a payload of n bytes is the byte at BASE below the n - 1 bytes that follow it. -/
theorem ldiLoadsPayload : Obligations.LdiLoadsPayload := by
  refine ⟨rfl, fun s hrun => ⟨fun hk => ?int8, fun hk => ?int16, fun hk => ?int24, fun hk => ?int32, fun hk => ?int64,
    fun k hk => ?imm, fun hk => ?noInteger⟩⟩
  case int8 => exact exec_ldi_payload hrun hk rfl (by decide) (leNat_readBytes_one ..)
  case int16 => exact exec_ldi_payload hrun hk rfl (by decide) (leNat_readBytes_succ (leNat_readBytes_one ..))
  case int24 =>
    exact exec_ldi_payload hrun hk rfl (by decide)
      (leNat_readBytes_succ (leNat_readBytes_succ (leNat_readBytes_one ..)))
  case int32 => exact exec_ldi_payload hrun hk rfl (by decide) (leNat_readBytes_four ..)
  case int64 =>
    have hload := exec_ldi_payload hrun hk rfl (by decide) (leNat_readBytes_succ (leNat_readBytes_succ
      (leNat_readBytes_succ (leNat_readBytes_succ (leNat_readBytes_four s.buf (s.baseAddr + 4))))))
    rwa [BitVec.signExtend_eq] at hload
  case imm =>
    rw [exec_ldi_value hrun (loadedValue_imm hk)]
    exact congrArg (fun v => Host.Outcome.next (s.answer v)) (BitVec.ofInt_natCast 64 k)
  case noInteger =>
    have hnone : ∀ k ∈ [EntryKind.str6, .str14, .str32, .invalid], payloadWidth k = none := by decide
    exact exec_ldi_error hrun (loadedValue_noWidth (hnone _ hk))

end Sys2Proof.Machine
end

section
/-! What INCL answers, the faults it takes, and the count it leaves in the buffer. -/

namespace Sys2Proof.Machine

/-! ## Bytes written back and written over (rules R8, R9) -/

/-- Bytes are the little-endian bytes of the number they make (rule R8). -/
theorem leBytes_leNat (bs : List Byte) : leBytes bs.length (leNat bs) = bs := by
  induction bs with
  | nil => rfl
  | cons b bs ih =>
    have hb := b.isLt
    have hlow : BitVec.ofNat 8 (b.toNat + 256 * leNat bs) = b :=
      BitVec.eq_of_toNat_eq (by rw [BitVec.toNat_ofNat]; omega)
    have hrest : (b.toNat + 256 * leNat bs) / 256 = leNat bs := by omega
    rw [List.length_cons, leNat, leBytes, hlow, hrest, ih]

/-- Writing back what a range holds changes nothing. -/
theorem Memory.writeBytes_readBytes {m : Memory} (h : m.wf = true) (addr n : Nat) :
    m.writeBytes addr (m.readBytes addr n) = m := by
  refine Memory.ext_of_read (Memory.writeBytes_wf h) h fun x => ?_
  rw [Memory.read_writeBytes h, Memory.readBytes_length]
  split_ifs with hx
  · rw [Memory.readBytes_getD (by omega), Nat.add_sub_cancel' hx.1]
  · rfl

/-- What stood in a range no longer shows once it is written over. -/
theorem Memory.writeBytes_congr {m m' : Memory} {addr : Nat} {bs : List Byte} (h : m.wf = true) (h' : m'.wf = true)
    (hagree : ∀ x, inRange (addr, bs.length) x = false → m.read x = m'.read x) :
    m.writeBytes addr bs = m'.writeBytes addr bs := by
  refine Memory.ext_of_read (Memory.writeBytes_wf h) (Memory.writeBytes_wf h') fun x => ?_
  rw [Memory.read_writeBytes h, Memory.read_writeBytes h']
  split_ifs with hx
  · rfl
  · exact hagree x (Bool.eq_false_iff.2 (mt inRange_iff.1 hx))

/-! ## The count in the buffer (rules R41, R88) -/

/-- The stored count as the concatenation of its two bytes, the one at the higher address on top. -/
theorem State.storedCount_eq (s : State) :
    s.storedCount = (s.buf.read (s.counterAddr + 1) ++ s.buf.read s.counterAddr : BitVec 16).toNat :=
  leNat_two ..

/-- INCL's completion with n stored: the count's two bytes are n's, and OUT0 is n. -/
abbrev State.withCount (s : State) (n : Nat) : State :=
  State.answer { s with buf := s.buf.writeBytes s.counterAddr (leBytes 2 n) } (BitVec.ofNat 64 n)

theorem State.storedCount_withCount {s : State} (hwf : s.buf.wf = true) {n : Nat} (hn : n ≤ 65535) :
    (s.withCount n).storedCount = n := by
  have hread : (s.buf.writeBytes s.counterAddr (leBytes 2 n)).readBytes s.counterAddr 2 = leBytes 2 n :=
    Memory.readBytes_writeBytes hwf
  show leNat (Memory.readBytes _ s.counterAddr 2) = n
  rw [State.answer_buf, hread, leNat_leBytes]
  exact Nat.mod_eq_of_lt (Nat.lt_succ_of_le hn)

/-- Storing the count that is there already is no change but the answer. -/
theorem State.withCount_storedCount {s : State} (hwf : s.buf.wf = true) :
    s.withCount s.storedCount = s.answer (BitVec.ofNat 64 s.storedCount) := by
  have hbytes : leBytes 2 s.storedCount = s.buf.readBytes s.counterAddr 2 :=
    leBytes_leNat (s.buf.readBytes s.counterAddr 2)
  rw [State.withCount, hbytes, Memory.writeBytes_readBytes hwf]

/-- Machines that agree in all but the counter bytes and A agree in all but A once the same count is stored. -/
theorem State.withCount_congr {s : State} {m : Memory} {v : Word64} (hwf : s.buf.wf = true) (hm : m.wf = true)
    (hagree : ∀ x, inRange (s.counterAddr, 2) x = false → m.read x = s.buf.read x) (n : Nat) :
    State.withCount { s with buf := m, a := v } n = { s.withCount n with a := v } := by
  have hbuf : m.writeBytes s.counterAddr (leBytes 2 n) = s.buf.writeBytes s.counterAddr (leBytes 2 n) :=
    Memory.writeBytes_congr hm hwf hagree
  show State.answer { s with buf := m.writeBytes s.counterAddr (leBytes 2 n), a := v } (BitVec.ofNat 64 n) = _
  rw [hbuf]
  rfl

/-! ## What INCL stores for a sum (rule R88) -/

theorem counterSum_of_le {p : Params} {t : Nat} (h : t ≤ 65535) : counterSum p t = t := if_pos h

theorem counterSum_clamp {p : Params} (hclamp : p.counterOverflow = .clamp) (t : Nat) :
    counterSum p t = min 65535 t := by
  unfold counterSum
  rw [hclamp]
  split_ifs with hle
  · exact (min_eq_right hle).symm
  · exact (min_eq_left (le_of_not_ge hle)).symm

theorem counterSum_wrap {p : Params} (hwrap : p.counterOverflow = .wrap) {t : Nat} (h : 65535 < t) :
    counterSum p t = t % 2 ^ 16 := by
  rw [counterSum, if_neg (not_le.2 h), hwrap]

/-! ## INCL (rule R88) -/

section
variable {s : State} (hrun : s.halt = false)
include hrun

theorem exec_incl_outside (hout : s.params.bufLen < s.counterAddr + 2) :
    exec .incl s = .next (s.takeFault (.bufferBounds s.counterAddr 2)) :=
  issue_memRead_outside hrun Nat.two_pos hout _

variable (hin : s.counterAddr + 2 ≤ s.params.bufLen)
include hin

/-- INCL at a saturated count stores nothing. -/
theorem exec_incl_saturated (hsat : s.storedCount = 65535) :
    exec .incl s = .next (s.answer (BitVec.ofNat 64 s.storedCount)) := by
  show issue s _ = _
  rw [memRead_inside hin, bind_ok]
  exact (congrArg (issue s) (if_pos hsat)).trans (issue_ok hrun _)

variable (hunsat : s.storedCount ≠ 65535)
include hunsat

/-- INCL on an unsaturated count and a sum below 0 takes CounterUnderflow. -/
theorem exec_incl_underflow (hneg : (s.storedCount : Int) + s.a.toInt < 0) :
    exec .incl s = .next (s.takeFault (.counterUnderflow s.storedCount s.a.toInt)) := by
  show issue s _ = _
  rw [memRead_inside hin, bind_ok]
  exact (congrArg (issue s) ((if_neg hunsat).trans (if_pos hneg))).trans (issue_error hrun _)

/-- INCL on an unsaturated count and a sum of at least 0 stores the sum, cut down to two bytes if need be. -/
theorem exec_incl_stores (hsum : 0 ≤ (s.storedCount : Int) + s.a.toInt) :
    exec .incl s =
      .next (s.withCount (counterSum s.params ((s.storedCount : Int) + s.a.toInt).toNat)) := by
  show issue s _ = _
  rw [memRead_inside hin, bind_ok]
  refine (congrArg (issue s) ((if_neg hunsat).trans (if_neg (not_lt.2 hsum)))).trans ?_
  simp only
  rw [memWrite_eq, memWriteBytes_inside (by rwa [leBytes_length]), bind_ok, pure_eq_ok, issue_ok hrun]
  rfl

end

/-- Settles O34, clause by clause. -/
theorem inclAddsToTheCounter : Obligations.InclAddsToTheCounter := by
  refine ⟨rfl, fun s hrun => ?_⟩
  simp only [← State.storedCount_eq]
  refine ⟨exec_incl_outside hrun, fun hin => ⟨fun hsat => ?saturated, fun hunsat hneg => ?underflow,
    fun hunsat hsum hle => ?sum, fun hunsat hover hclamp => ?clamp, fun hunsat hover hwrap => ?wrap⟩⟩
  case saturated =>
    rw [exec_incl_saturated hrun hin hsat, hsat]
    rfl
  case underflow => exact exec_incl_underflow hrun hin hunsat hneg
  case sum =>
    rw [exec_incl_stores hrun hin hunsat hsum, counterSum_of_le (by omega)]
    rfl
  case clamp =>
    rw [exec_incl_stores hrun hin hunsat (by omega), counterSum_clamp hclamp, min_eq_left (by omega)]
    rfl
  case wrap =>
    rw [exec_incl_stores hrun hin hunsat (by omega), counterSum_wrap hwrap (by omega)]
    rfl

/-! ## INCL where it completes, and where it saturates (rules R88, R89, R90) -/

/-- INCL completes at a saturated count or with the sum stored. -/
theorem exec_incl_completed {s t : State} (hrun : s.halt = false) (h : exec .incl s = .next t)
    (hdone : t.halt = false) :
    (s.storedCount = 65535 ∧ t = s.answer (BitVec.ofNat 64 s.storedCount)) ∨
    (s.storedCount ≠ 65535 ∧ 0 ≤ (s.storedCount : Int) + s.a.toInt ∧
      t = s.withCount (counterSum s.params ((s.storedCount : Int) + s.a.toInt).toNat)) := by
  rcases Nat.lt_or_ge s.params.bufLen (s.counterAddr + 2) with hout | hin
  · obtain rfl := Host.Outcome.next.inj ((exec_incl_outside hrun hout).symm.trans h)
    exact nomatch hdone
  by_cases hsat : s.storedCount = 65535
  · exact .inl ⟨hsat, (Host.Outcome.next.inj ((exec_incl_saturated hrun hin hsat).symm.trans h)).symm⟩
  rcases lt_or_ge ((s.storedCount : Int) + s.a.toInt) 0 with hneg | hsum
  · obtain rfl := Host.Outcome.next.inj ((exec_incl_underflow hrun hin hsat hneg).symm.trans h)
    exact nomatch hdone
  · exact .inr ⟨hsat, hsum, (Host.Outcome.next.inj ((exec_incl_stores hrun hin hsat hsum).symm.trans h)).symm⟩

/-- The count INCL leaves under clamp is what OUT0 says: 65535 where it was that, else the sum clamped. -/
theorem exec_incl_clamp_count {s t : State} (hrun : s.halt = false) (hwf : s.buf.wf = true)
    (hclamp : s.params.counterOverflow = .clamp) (h : exec .incl s = .next t) (hdone : t.halt = false) :
    t.counterAddr = s.counterAddr ∧ t.out0 = some (BitVec.ofNat 64 t.storedCount) ∧
      ((s.storedCount = 65535 ∧ t.storedCount = 65535) ∨
        (s.storedCount ≠ 65535 ∧ (t.storedCount : Int) = min 65535 ((s.storedCount : Int) + s.a.toInt))) := by
  rcases exec_incl_completed hrun h hdone with ⟨hsat, rfl⟩ | ⟨hunsat, hsum, rfl⟩
  · exact ⟨rfl, rfl, .inl ⟨hsat, hsat⟩⟩
  · rw [State.storedCount_withCount hwf (counterSum_le ..)]
    refine ⟨rfl, rfl, .inr ⟨hunsat, ?_⟩⟩
    rw [counterSum_clamp hclamp]
    omega

/-- Under clamp INCL saturates from a saturated count and from a sum of 65535 or more alike: it ends with 65535 stored,
whatever the count and delta were (rule R89). -/
theorem exec_incl_saturates {s : State} (hrun : s.halt = false) (hwf : s.buf.wf = true)
    (hclamp : s.params.counterOverflow = .clamp) (hin : s.counterAddr + 2 ≤ s.params.bufLen)
    (hsat : s.statedCount = none ∨ 65535 ≤ (s.storedCount : Int) + s.a.toInt) :
    exec .incl s = .next (s.withCount 65535) := by
  by_cases hmax : s.storedCount = 65535
  · rw [exec_incl_saturated hrun hin hmax, ← State.withCount_storedCount hwf, hmax]
  · have hsum := hsat.resolve_left (mt State.statedCount_eq_none.1 hmax)
    rw [exec_incl_stores hrun hin hmax (by omega), counterSum_clamp hclamp, min_eq_left (by omega)]

/-- Settles O35: the count after a completed INCL, then the one end of every INCL that saturates. -/
theorem counterSaturates : Obligations.CounterSaturates := by
  refine ⟨fun s t hrun hwf hclamp hexec hdone => ?_, fun s m v hrun hwf hm hclamp hin hagree hsat hsat' => ?_⟩
  · obtain ⟨haddr, hout, hcount⟩ := exec_incl_clamp_count hrun hwf hclamp hexec hdone
    have hnew : leNat (t.buf.readBytes s.counterAddr 2) = t.storedCount := by rw [State.storedCount, haddr]
    rw [hnew]
    refine ⟨hout, fun hmax => ?_, fun hdelta => ?_, rfl⟩
    · exact (hcount.resolve_right fun hunsat => hunsat.1 hmax).2
    · rcases hcount with ⟨hsat, hmax⟩ | ⟨-, hmin⟩
      · show _ = min 65535 ((s.storedCount : Int) + s.a.toInt)
        omega
      · exact hmin
  · have hexec' : exec .incl { s with buf := m, a := v } = .next _ :=
      exec_incl_saturates hrun hm hclamp hin hsat'
    refine ⟨_, exec_incl_saturates hrun hwf hclamp hin hsat, hrun,
      State.statedCount_eq_none.2 (State.storedCount_withCount hwf le_rfl), ?_⟩
    rw [hexec', State.withCount_congr hwf hm hagree]

end Sys2Proof.Machine
end

section
/-! What a run keeps: the halted state until reset, and the mark of a refused run; and the host's actions that are outside
the contract. -/

namespace Sys2Proof.Machine

/-! ## Invariants along a run -/

/-- What every step keeps, a run that goes on keeps. -/
theorem run_keeps {M : Host.Core} {P : M.State → Prop} (hstep : ∀ s t, P s → M.step s = .next t → P t) (k : Nat)
    {s t : M.State} (h : P s) (hrun : M.run k s = .next t) : P t := by
  induction k generalizing s with
  | zero => exact Host.Outcome.next.inj hrun ▸ h
  | succ k ih =>
    cases hs : M.step s with
    | next u => exact ih (hstep s u h hs) ((run_of_step k hs).symm.trans hrun)
    | fault | refused =>
      rw [Host.Core.run, hs] at hrun
      exact nomatch hrun

/-! ## The halted state (rules R97 to R100, R107) -/

/-- A halted unit ends every command by the refusal alone (rule R99). -/
theorem Ending.of_halted {s t : State} (h : Ending s t) (hhalt : s.halt = true) : t = s.refuseCommand := by
  cases h with
  | refused => rfl
  | completed hrun | faulted hrun => exact nomatch hhalt.symm.trans hrun

/-- The unit is halted in t with the STATUS and the result ports it has in s, and none of the host's remaining actions
is reset, the only way out (rule R100). -/
structure HaltedAs (s t : State) : Prop where
  halt : t.halt = true
  status : t.status = s.status
  out0 : t.out0 = s.out0
  out1 : t.out1 = s.out1
  renc : t.renc = s.renc
  ok : t.ok = s.ok
  err : t.err = s.err
  noReset : ∀ act ∈ t.host, act ≠ .reset

/-- Apart from reset only a command could write STATUS or a result port, and a halted unit refuses every command. -/
theorem HaltedAs.did {s t u : State} {act : HostAction} (h : HaltedAs s t) (hact : act ≠ .reset) (hdid : Did t act u) :
    HaltedAs s u := by
  cases hdid with
  | command b hend => exact hend.of_halted h.halt ▸ { h with }
  | reset => exact absurd rfl hact
  | setBase | setA | setEnc | setSlen | writeStatus | writeBytes | readByte | readPort | readStatus => exact { h with }

theorem HaltedAs.step {s t u : State} (h : HaltedAs s t) (hstep : step t = .next u) : HaltedAs s u := by
  rcases step_next hstep with ⟨-, rfl⟩ | ⟨act, rest, hhost, hdid⟩
  · exact h
  · obtain ⟨hact, hrest⟩ := List.forall_mem_cons.1 (hhost ▸ h.noReset)
    exact HaltedAs.did (t := { t with host := rest }) { h with noReset := hrest } hact hdid

/-- Settles O47: a halted unit is halted as it is now, and every step keeps that. -/
theorem haltLastsUntilReset : Obligations.HaltLastsUntilReset := by
  intro k s t hhalt hhost hrun
  have hstart : HaltedAs s s := ⟨hhalt, rfl, rfl, rfl, rfl, rfl, rfl, hhost⟩
  have hend : HaltedAs s t := run_keeps (M := Sys2Proof.core) (fun _ _ => HaltedAs.step) k hstart hrun
  exact ⟨hend.halt, hend.status, hend.out0, hend.out1, hend.renc, hend.ok, hend.err⟩

/-! ## The mark of a refused run (rules R98, R99) -/

theorem State.successful_iff (s : State) : s.successful = true ↔ s.halt = false ∧ s.runRefused = false := by
  simp [State.successful]

theorem State.not_successful_of_runRefused {s : State} (h : s.runRefused = true) : s.successful = false := by
  simp [State.successful, h]

/-- No ending of a command takes the mark away. -/
theorem Ending.runRefused {s t : State} (h : Ending s t) (hmark : s.runRefused = true) : t.runRefused = true := by
  cases h with
  | refused => rfl
  | completed _ h => cases h with | mk => exact hmark
  | faulted => exact hmark

/-- No step takes the mark away, reset included. -/
theorem step_runRefused {s t : State} (hmark : s.runRefused = true) (h : step s = .next t) : t.runRefused = true := by
  rcases step_next h with ⟨-, rfl⟩ | ⟨act, rest, -, hdid⟩
  · exact hmark
  · cases hdid with
    | command b hend => exact hend.runRefused hmark
    | setBase | setA | setEnc | setSlen | writeStatus | writeBytes | readByte | readPort | readStatus | reset =>
      exact hmark

/-- Settles O46: the mark is kept by every step, and a marked state is no successful end. -/
theorem refusedRunIsNeverSuccessful : Obligations.RefusedRunIsNeverSuccessful := by
  refine ⟨State.successful_iff, fun k s t hmark hrun => ?_⟩
  have hend : t.runRefused = true :=
    run_keeps (M := Sys2Proof.core) (P := fun s => s.runRefused = true) (fun _ _ => step_runRefused) k hmark hrun
  exact ⟨hend, State.not_successful_of_runRefused hend⟩

/-! ## Actions outside the contract (rule R105) -/

/-- A step whose host action is refused is refused, by the action or before it by the configuration check. -/
theorem step_refused {s : State} {act : HostAction} {rest : List HostAction} {r : Refusal} (hhost : s.host = act :: rest)
    (hact : hostAct act { s with host := rest } = .refused r) : ∃ r, step s = .refused r := by
  cases hlegal : s.params.legal with
  | false => exact ⟨_, illegalConfigurationIsRefused.1 s hlegal⟩
  | true => exact ⟨r, (step_action hlegal hhost).trans hact⟩

/-- Settles O53. -/
theorem actionOutsideTheContractIsRefused : Obligations.ActionOutsideTheContractIsRefused := by
  refine fun s b rest => ⟨?_, fun hlegal hhost => step_action hlegal hhost, fun hlegal hhost => step_action hlegal hhost⟩
  rintro (hhost | hhost)
  · exact step_refused hhost rfl
  · exact step_refused hhost rfl

end Sys2Proof.Machine
end
